-- ==== Sys2Proof/Word.lean ====
section
/-! DEFINITION. The two word types of the ST7: a byte of memory or of a register, and a 16-bit address. -/

namespace Sys2Proof

/-- An 8-bit value: a register A, X or Y (R21, R22), or one memory location (R60). -/
abbrev Byte := BitVec 8

/-- A 16-bit value: the program counter (R23), or an address (R60). -/
abbrev Word := BitVec 16

end Sys2Proof
end

