-- ==== Sys2Proof/Config.lean ====
section
/-! DEFINITION. What the manual leaves to the device: the parameters of `00_scope.md` R5 as plain data, the one
parameter set `State.reset` uses, and the free value of a device-region read. -/

namespace Sys2Proof

/-- The kinds of region of `MEMORY_MAP` (`92_eei_decisions.md`, table of parameters). -/
inductive RegionKind where
  | ram
  | rom
  | eeprom
  | device
  deriving DecidableEq, Repr

/-- One region of `MEMORY_MAP`: its first and last address and its kind. -/
structure Region where
  first : Word
  last : Word
  kind : RegionKind
  deriving DecidableEq, Repr

/-- `IRQ_ACK[k]` (R363): when the latch `pending[k]` is cleared. -/
inductive IrqAck where
  | onEntry
  | bySoftware
  deriving DecidableEq, Repr

/-- What R5 leaves open about one interrupt source `k`: `IRQ_VECTOR[k]`, `IRQ_ACK[k]`, and whether `k` is in
`HALT_WAKE_SET`. -/
structure IrqSource where
  vector : Word
  ack : IrqAck
  wakesHalt : Bool
  deriving DecidableEq, Repr

/-- The parameters of `00_scope.md` R5 that are fixed for one device. `N_IRQ` is the length of `sources`. -/
structure Device where
  /-- `SP_PRESET`, the forced value of SP[15:6] (R25). -/
  spPreset : BitVec 10
  /-- `RESET_VECTOR` (R391). -/
  resetVector : Word
  /-- `TRAP_VECTOR` (R330). -/
  trapVector : Word
  /-- The hardware interrupt sources, in the order of their numbers `k` (R351). -/
  sources : List IrqSource
  /-- `IRQ_PRIORITY` (R358): the source numbers, the first ranked first. -/
  priority : List Nat
  /-- `MEMORY_MAP` (R70). -/
  memoryMap : List Region
  /-- `CLR_READS_DEST` (R67, R167). -/
  clrReadsDest : Bool
  /-- `LD_REGREG_SETS_NZ` (R164 to R166, decision D3). -/
  ldRegRegSetsNZ : Bool
  deriving DecidableEq, Repr

/-- `HALT_RESTART_CYCLES`: "with 4096 clock cycles delay" (R5, R372). -/
def Config.haltRestartCycles : Nat := 4096

/-- The parameter set of `State.reset`. PRESUMED: the stack preset and the vector addresses are the family's usual values of
`00_scope.md` R5, which no source states (log 1; unsafe). DESIGN CHOICE: an all-RAM map (log 4), four sources, their
order, acknowledge and wake set (log 5), and no read by CLR (log 20). `ldRegRegSetsNZ` is false by decision D3 (log 14).
No meaning names this set: every one reads the parameters from the state it is given. -/
def Config.device : Device where
  spPreset := 0b0000000101#10
  resetVector := 0xFFFE#16
  trapVector := 0xFFFC#16
  sources :=
    [ { vector := 0xFFFA#16, ack := .onEntry, wakesHalt := true }
    , { vector := 0xFFF8#16, ack := .onEntry, wakesHalt := true }
    , { vector := 0xFFF6#16, ack := .onEntry, wakesHalt := false }
    , { vector := 0xFFF4#16, ack := .onEntry, wakesHalt := false } ]
  priority := [0, 1, 2, 3]
  memoryMap := [{ first := 0x0000#16, last := 0xFFFF#16, kind := .ram }]
  clrReadsDest := false
  ldRegRegSetsNZ := false

/-- The value the environment supplies to the `n`-th read of a device region (R69, D23: "reads return a drawn value").
A FREE VALUE: it has no definition, so no proof can rest on what it is (log 6; safe). -/
opaque Config.deviceByte : Nat → Byte

end Sys2Proof
end

