-- ==== Sys2Proof/Machine/Memory.lean ====
section
/-! DEFINITION. The 64 KiB byte memory (R60) as a list of (address, byte) pairs in one canonical form. -/

namespace Sys2Proof.Machine

/-- Memory: the bytes that differ from what an unlisted address reads as. -/
abbrev Memory := List Host.Cell

/-- What an address that is not listed reads as. DESIGN CHOICE: the spec gives RAM no content at reset (R393, D18 "any value");
the model names 00, one value for every run from reset (log 3; unsafe). A state that lists every address has any content. -/
def unlisted : Byte := 0x00#8

/-- The byte at address `a`. -/
def Memory.read : Memory → Nat → Byte
  | [], _ => unlisted
  | (k, v) :: m, a => if k = a then v else Memory.read m a

/-- The memory without an entry for address `a`. -/
def Memory.erase (m : Memory) (a : Nat) : Memory := m.filter fun c => c.1 != a

/-- The memory with the pair `(a, v)` put before the first greater address. -/
def Memory.insert : Memory → Nat → Byte → Memory
  | [], a, v => [(a, v)]
  | (k, w) :: m, a, v => if a < k then (a, v) :: (k, w) :: m else (k, w) :: Memory.insert m a v

/-- The memory with byte `v` at address `a`. Writing what an unlisted address reads as removes the entry, so that equal
memories are equal lists. -/
def Memory.write (m : Memory) (a : Nat) (v : Byte) : Memory :=
  if v = unlisted then m.erase a else (m.erase a).insert a v

/-- The canonical form: addresses strictly rising and inside the address space (R60), and no entry equal to what an
unlisted address reads as. -/
abbrev Memory.wf (m : Memory) : Prop :=
  m.Pairwise (fun c d => c.1 < d.1) ∧ ∀ c ∈ m, c.1 < 65536 ∧ c.2 ≠ unlisted

end Sys2Proof.Machine
end

