-- ==== Sys2Proof/Machine/State.lean ====
section
/-! DEFINITION. The state of the machine, the reasons it stops for, and the state after reset. -/

namespace Sys2Proof.Machine

/-- The condition code register: "a 5-bit register" (R26). Bits 7..5 of its byte are no state. -/
structure CC where
  /-- Half carry, bit 4 (R34). -/
  h : Bool
  /-- Interrupt mask, bit 3 (R35). -/
  i : Bool
  /-- Negative, bit 2 (R36). -/
  n : Bool
  /-- Zero, bit 1 (R36). -/
  z : Bool
  /-- Carry or borrow, bit 0 (R37). -/
  c : Bool
  deriving DecidableEq, Repr

/-- `run_state` (R41). -/
inductive RunState where
  /-- Executing instructions. -/
  | running
  /-- WAIT mode, entered by WFI (R331). -/
  | waiting
  /-- HALT mode, entered by HALT (R332). -/
  | halted
  deriving DecidableEq, Repr

/-- Bytes other agents write between the byte accesses of one turn of the core (R74, D11): the first list lands right before the
next access, the second before the one after it, and so on. -/
abbrev Gaps := List (List (Word × Byte))

/-- The origin of a reset (R390): outside the device, or its watchdog, which cannot fire in HALT (R373). -/
inductive ResetOrigin where
  | external
  | watchdog
  deriving DecidableEq, Repr

/-- The values the environment draws for what a reset leaves unspecified (R43, R392, R393, D18 "any value"): the registers,
the four flags other than I, and the RAM bytes that change. FREE VALUES: nothing constrains them (log 22; safe). -/
structure ResetDraw where
  a : Byte
  x : Byte
  y : Byte
  h : Bool
  n : Bool
  z : Bool
  c : Bool
  ram : List (Word × Byte)
  deriving DecidableEq, Repr

/-- A reset (R390): where it comes from, what it draws, and what other agents write between the accesses of its sequence. -/
structure Reset where
  origin : ResetOrigin
  draw : ResetDraw
  gaps : Gaps
  deriving DecidableEq, Repr

/-- What an agent other than the core and the reset logic does between two turns of the core (R6). -/
inductive Input where
  /-- Interrupt source `k` raises a request (R352). -/
  | request (k : Nat)
  /-- The device clears the latch of source `k`, as `by_software` acknowledge needs (R363). DESIGN CHOICE: it may do so for any
  source and at any time (log 37; safe). -/
  | withdraw (k : Nat)
  /-- The external interrupt line takes a level (R315). -/
  | line (level : Bool)
  /-- A DMA channel or peripheral writes a byte of RAM (R6 (4)). DESIGN CHOICE: any RAM byte, and no other (log 36). -/
  | busWrite (addr : Word) (value : Byte)
  deriving DecidableEq, Repr

/-- Whose turn a step is (log 10). -/
inductive Turn where
  /-- The core's. Other agents write in its gaps. With a reset to come, the turn is cut short once the gaps are used up, so that
  as many byte accesses take place as there are gaps, and the resets follow (R359, R390); with no gap the reset comes at the
  boundary. Each reset but the last is cut short by the next in the same way. -/
  | core (gaps : Gaps) (resets : List Reset)
  /-- The environment's, with one input. -/
  | env (e : Input)
  deriving DecidableEq, Repr

/-- An access to a device region, as the environment sees it (R69, D23). -/
inductive BusEvent where
  | read (addr : Word) (value : Byte)
  | write (addr : Word) (value : Byte)
  deriving DecidableEq, Repr

/-- The state of the machine. -/
structure State where
  /-- The accumulator (R21). -/
  a : Byte
  /-- The index register X (R22). -/
  x : Byte
  /-- The index register Y (R22). -/
  y : Byte
  /-- The program counter (R23). -/
  pc : Word
  /-- SP[5:0], the live bits of the stack pointer (R25). -/
  sp : BitVec 6
  /-- The condition code register (R26). -/
  cc : CC
  /-- The 64 KiB memory (R60). -/
  mem : Memory
  /-- `run_state` (R41). -/
  runState : RunState
  /-- The latch `pending[k]` of each interrupt source `k` (R40). -/
  pending : List Bool
  /-- `EXT_INT_LINE` (R315). -/
  extIntLine : Bool
  /-- The parameters of R5. No step changes them (log 1). -/
  device : Device
  /-- The model's own: the turns to come. When it is empty every turn is the core's (log 10). -/
  schedule : List Turn
  /-- The model's own: what other agents still write in this turn of the core. Empty between turns (log 10). -/
  gaps : Gaps
  /-- The model's own: a reset cuts this turn short when `gaps` is used up. False between turns (log 22). -/
  cut : Bool
  /-- The model's own: how many values device-region reads have drawn (log 6). -/
  draws : Nat
  /-- The model's own: the device-region accesses so far, newest first (log 6). -/
  events : List BusEvent
  /-- The model's own: the cycles of the instructions executed (R405, log 23). -/
  cycles : Nat
  deriving DecidableEq, Repr

/-- Why the machine stops with a fault. -/
inductive Fault where
  /-- Raised by fetching a (pre-byte, op-code) pair that is in no table (R106 to R108, R360, D4, D5): a spec-level fault, no
  state changed. Safe: the real core goes on in a way no source states. -/
  | illegalOpcode (pre : Option Byte) (op : Byte)
  deriving DecidableEq, Repr

/-- What an access does. -/
inductive AccessKind where
  | read
  | write
  deriving DecidableEq, Repr

/-- Why the model gives a step no result. -/
inductive Refusal where
  /-- Raised by `exec` alone, for an instruction without a meaning yet. Safe. -/
  | notModelled (mnemonic : String)
  /-- Raised by a read or write of an address in no region of `MEMORY_MAP`, and by a write to a `rom` or `eeprom` region
  (R71, D10 "refused"). Safe: the bus behaviour is the device's. -/
  | accessRefused (kind : AccessKind) (addr : Word)
  deriving DecidableEq, Repr

/-- The machine right after reset (R43, R391), with the parameter set `Config.device`. DESIGN CHOICE: A, X, Y, H, N, Z and C are
0, where the spec gives no value (log 2; unsafe); the line is high (log 27; unsafe) and the environment does nothing (log 34;
unsafe). PC is the word at `RESET_VECTOR`, 0000 in a memory that lists nothing. -/
def State.reset : State where
  a := 0x00#8
  x := 0x00#8
  y := 0x00#8
  pc := 0x0000#16
  sp := 0b111111#6
  cc := { h := false, i := true, n := false, z := false, c := false }
  mem := []
  runState := .running
  pending := [false, false, false, false]
  extIntLine := true
  device := Config.device
  schedule := []
  gaps := []
  cut := false
  draws := 0
  events := []
  cycles := 0

end Sys2Proof.Machine
end

