-- ==== Sys2Proof/Machine/Flags.lean ====
section
/-! DEFINITION. Every result and flag computation of the instruction pages, on plain values: each function answers the result and
the condition codes after it. Results are computed exactly and narrowed at the end. -/

namespace Sys2Proof.Machine

/-- `SetNZ(v)` (R36). -/
def CC.setNZ (cc : CC) (v : Byte) : CC := { cc with n := v.msb, z := v == 0x00#8 }

/-- ADC and ADD (R34, R240, R241): `a + m + cin`; H is the carry out of bit 3, C the carry out of bit 7. -/
def addFlags (a m : Byte) (cin : Bool) (cc : CC) : Byte × CC :=
  let sum := a.toNat + m.toNat + cin.toNat
  let r := BitVec.ofNat 8 sum
  (r, { cc.setNZ r with h := decide (a.toNat % 16 + m.toNat % 16 + cin.toNat > 15), c := decide (sum > 255) })

/-- SUB, SBC and CP (R37, R182, R242, R243): `a - m - cin`; C is the borrow. H is not affected. -/
def subFlags (a m : Byte) (cin : Bool) (cc : CC) : Byte × CC :=
  let d : Int := (a.toNat : Int) - (m.toNat : Int) - (cin.toNat : Int)
  let r := BitVec.ofInt 8 d
  (r, { cc.setNZ r with c := decide (d < 0) })

/-- AND and BCP (R185, R200): C is not affected. -/
def andFlags (a m : Byte) (cc : CC) : Byte × CC := (a &&& m, cc.setNZ (a &&& m))

/-- OR (R201). -/
def orFlags (a m : Byte) (cc : CC) : Byte × CC := (a ||| m, cc.setNZ (a ||| m))

/-- XOR (R202). -/
def xorFlags (a m : Byte) (cc : CC) : Byte × CC := (a ^^^ m, cc.setNZ (a ^^^ m))

/-- MUL (R244): the unsigned 16-bit product; H and C are cleared. -/
def mulFlags (r a : Byte) (cc : CC) : Word × CC :=
  (BitVec.ofNat 16 (r.toNat * a.toNat), { cc with h := false, c := false })

/-- INC (R180). -/
def incFlags (v : Byte) (cc : CC) : Byte × CC := (v + 1, cc.setNZ (v + 1))

/-- DEC (R181). -/
def decFlags (v : Byte) (cc : CC) : Byte × CC := (v - 1, cc.setNZ (v - 1))

/-- CPL (R203): C is set. -/
def cplFlags (v : Byte) (cc : CC) : Byte × CC := (v ^^^ 0xFF#8, { cc.setNZ (v ^^^ 0xFF#8) with c := true })

/-- NEG (R204): C is cleared if the result is zero, else set. -/
def negFlags (v : Byte) (cc : CC) : Byte × CC := (0#8 - v, { cc.setNZ (0#8 - v) with c := (0#8 - v) != 0x00#8 })

/-- SLL and SLA (R260, R261): C is the old bit 7. -/
def sllFlags (v : Byte) (cc : CC) : Byte × CC := (v <<< 1, { cc.setNZ (v <<< 1) with c := v.getLsbD 7 })

/-- SRL (R262): C is the old bit 0; N is cleared. -/
def srlFlags (v : Byte) (cc : CC) : Byte × CC :=
  (v >>> 1, { cc with n := false, z := v >>> 1 == 0x00#8, c := v.getLsbD 0 })

/-- SRA (R263): bit 7 stays; C is the old bit 0. -/
def sraFlags (v : Byte) (cc : CC) : Byte × CC :=
  let r := v >>> 1 ||| v &&& 0x80#8
  (r, { cc.setNZ r with c := v.getLsbD 0 })

/-- RLC (R264): the old C enters bit 0; C is the old bit 7. -/
def rlcFlags (v : Byte) (cc : CC) : Byte × CC :=
  let r := v <<< 1 ||| (BitVec.ofBool cc.c).setWidth 8
  (r, { cc.setNZ r with c := v.getLsbD 7 })

/-- RRC (R265): the old C enters bit 7; C is the old bit 0. -/
def rrcFlags (v : Byte) (cc : CC) : Byte × CC :=
  let r := v >>> 1 ||| (BitVec.ofBool cc.c).setWidth 8 <<< 7
  (r, { cc.setNZ r with c := v.getLsbD 0 })

/-- SWAP (R266): the two nibbles exchanged. -/
def swapFlags (v : Byte) (cc : CC) : Byte × CC :=
  let r := (v &&& 0x0F#8) <<< 4 ||| v >>> 4
  (r, cc.setNZ r)

/-- CLR (R167): 00, with N cleared and Z set. -/
def clrFlags (cc : CC) : Byte × CC := (0x00#8, { cc with n := false, z := true })

end Sys2Proof.Machine
end

