-- ==== Sys2Proof/Syntax.lean ====
section
/-! DEFINITION. The instructions of the ST7: every mnemonic of `spec/opcode_table.json`, with the operand forms of
`30_encoding.md` R95 as its operands, so that a constructor with its operand form is a row of the table. -/

namespace Sys2Proof

/-- An index register (`ndx`, R11). -/
inductive Index where
  | x
  | y
  deriving DecidableEq, Repr

/-- A register operand (`reg`, R11). -/
inductive Reg where
  | a
  | x
  | y
  deriving DecidableEq, Repr

/-- The operands of PUSH and POP (R168, R169). -/
inductive StackReg where
  | a
  | x
  | y
  | cc
  deriving DecidableEq, Repr

/-- The register operand that an index register is. -/
def Index.reg : Index → Reg
  | .x => .x
  | .y => .y

/-- A memory operand: one of the addressing modes R133 to R141, with the bytes the instruction holds. -/
inductive MemForm where
  /-- `SHORT` (R133): the page-zero address `aa`. -/
  | short (aa : Byte)
  /-- `LONG` (R134): the address `hh:ll`. -/
  | long (addr : Word)
  /-- `IDX0` (R135): the index register alone. -/
  | idx0 (ndx : Index)
  /-- `IDX1` (R136): a byte offset plus the index register. -/
  | idx1 (ndx : Index) (off : Byte)
  /-- `IDX2` (R137): a word offset plus the index register. -/
  | idx2 (ndx : Index) (off : Word)
  /-- `IND_S` (R138): the page-zero address of a byte pointer. -/
  | indS (ptr : Byte)
  /-- `IND_L` (R139): the page-zero address of a word pointer. -/
  | indL (ptr : Byte)
  /-- `INDX_S` (R140): a byte pointer, plus the index register. -/
  | indxS (ndx : Index) (ptr : Byte)
  /-- `INDX_L` (R141): a word pointer, plus the index register. -/
  | indxL (ndx : Index) (ptr : Byte)
  deriving DecidableEq, Repr

/-- A source operand: an immediate byte (R132) or a memory operand. -/
inductive Src where
  | imm (value : Byte)
  | mem (m : MemForm)
  deriving DecidableEq, Repr

/-- The operand of the read-modify-write family (R99): a register or a memory operand. -/
inductive Dst where
  | reg (r : Reg)
  | mem (m : MemForm)
  deriving DecidableEq, Repr

/-- The operand of a relative jump: the displacement itself (R142) or the page-zero address of it (R143). -/
inductive Rel where
  | direct (disp : Byte)
  | indirect (ptr : Byte)
  deriving DecidableEq, Repr

/-- The operand byte of a bit instruction: a page-zero address (R144, R146) or that of a byte pointer (R145, R147). -/
inductive BitForm where
  | direct (addr : Byte)
  | indirect (ptr : Byte)
  deriving DecidableEq, Repr

/-- An instruction. Every mnemonic of the opcode table is a constructor; LD is five, one for each kind of transfer that
`41_load_stack.md` gives a rule of its own (R160 and R161, R162 and R163, R164, R165, R166). -/
inductive Instr where
  -- arithmetic (`45_arithmetic.md`)
  | adc (src : Src)
  | add (src : Src)
  | sub (src : Src)
  | sbc (src : Src)
  | mul (ndx : Index)
  -- logical (`43_logical.md`)
  | and (src : Src)
  | or (src : Src)
  | xor (src : Src)
  | cpl (dst : Dst)
  | neg (dst : Dst)
  -- increment, decrement, compare, test (`42_incdec_compare.md`)
  | inc (dst : Dst)
  | dec (dst : Dst)
  | cp (r : Reg) (src : Src)
  | tnz (dst : Dst)
  | bcp (src : Src)
  -- load, transfer, clear, stack (`41_load_stack.md`)
  | ld (r : Reg) (src : Src)
  | ldStore (m : MemForm) (r : Reg)
  | ldRegReg (dst src : Reg)
  | ldSReg (r : Reg)
  | ldRegS (r : Reg)
  | clr (dst : Dst)
  | push (r : StackReg)
  | pop (r : StackReg)
  | rsp
  -- shift, rotate, swap (`46_shift_rotate.md`)
  | sll (dst : Dst)
  | sla (dst : Dst)
  | srl (dst : Dst)
  | sra (dst : Dst)
  | rlc (dst : Dst)
  | rrc (dst : Dst)
  | swap (dst : Dst)
  -- bit (`44_bit.md`)
  | bset (pos : BitVec 3) (b : BitForm)
  | bres (pos : BitVec 3) (b : BitForm)
  | btjt (pos : BitVec 3) (b : BitForm) (disp : Byte)
  | btjf (pos : BitVec 3) (b : BitForm) (disp : Byte)
  -- unconditional jump, call, return (`47_jump_call.md`)
  | jra (t : Rel)
  | jrt (t : Rel)
  | jrf (t : Rel)
  | jp (m : MemForm)
  | call (m : MemForm)
  | callr (t : Rel)
  | nop
  | ret
  -- conditional branches (`48_cond_branch.md`)
  | jrc (t : Rel)
  | jrnc (t : Rel)
  | jrult (t : Rel)
  | jruge (t : Rel)
  | jreq (t : Rel)
  | jrne (t : Rel)
  | jrmi (t : Rel)
  | jrpl (t : Rel)
  | jrh (t : Rel)
  | jrnh (t : Rel)
  | jrm (t : Rel)
  | jrnm (t : Rel)
  | jrugt (t : Rel)
  | jrule (t : Rel)
  | jrih (t : Rel)
  | jril (t : Rel)
  -- interrupt management and condition flags (`49_interrupt_ccflags.md`)
  | trap
  | wfi
  | halt
  | iret
  | sim
  | rim
  | scf
  | rcf
  deriving DecidableEq, Repr

end Sys2Proof
end

