-- ==== Sys2Proof/Decode.lean ====
section
/-! DEFINITION. The opcode map (`30_encoding.md` R97 to R105), the decoder of R91 and, after it, the encoder. -/

namespace Sys2Proof

/-- A 16-bit value from its most and least significant byte (R62, R96). -/
def wordOf (ms ls : Byte) : Word := ms ++ ls

/-- The most significant byte, `MS(v)` (R7). -/
def msByte (w : Word) : Byte := w.extractLsb' 8 8

/-- The least significant byte, `LS(v)` (R7). -/
def lsByte (w : Word) : Byte := w.extractLsb' 0 8

/-- Which pre-byte stands before the op-code, if any (R90). -/
inductive Pre where
  | none
  | pdy
  | piy
  | pix
  deriving DecidableEq, Repr

/-- The pre-byte a byte is: $90 PDY, $91 PIY, $92 PIX (R92 to R94). -/
def Pre.ofByte (b : Byte) : Option Pre :=
  if b = 0x90#8 then some .pdy
  else if b = 0x91#8 then some .piy
  else if b = 0x92#8 then some .pix
  else .none

/-- The bytes a pre-byte takes in the instruction: none, or one. -/
def Pre.bytes : Pre → List Byte
  | .none => []
  | .pdy => [0x90#8]
  | .piy => [0x91#8]
  | .pix => [0x92#8]

/-! ## Operand bytes

A row of the opcode map is kept as an instruction whose operand bytes are 0 (a TEMPLATE); `fill` puts the fetched bytes in. -/

/-- How many operand bytes the form has (R95). -/
def MemForm.operandCount : MemForm → Nat
  | .idx0 _ => 0
  | .short _ | .idx1 _ _ | .indS _ | .indL _ | .indxS _ _ | .indxL _ _ => 1
  | .long _ | .idx2 _ _ => 2

/-- The form with operand bytes `b1`, `b2` (R95, R96: a long address or offset has its MS byte first). -/
def MemForm.fill (b1 b2 : Byte) : MemForm → MemForm
  | .short _ => .short b1
  | .long _ => .long (wordOf b1 b2)
  | .idx0 r => .idx0 r
  | .idx1 r _ => .idx1 r b1
  | .idx2 r _ => .idx2 r (wordOf b1 b2)
  | .indS _ => .indS b1
  | .indL _ => .indL b1
  | .indxS r _ => .indxS r b1
  | .indxL r _ => .indxL r b1

/-- The operand bytes of the form, in the order they are stored. -/
def MemForm.operandBytes : MemForm → List Byte
  | .idx0 _ => []
  | .short b | .idx1 _ b | .indS b | .indL b | .indxS _ b | .indxL _ b => [b]
  | .long w | .idx2 _ w => [msByte w, lsByte w]

def Src.operandCount : Src → Nat
  | .imm _ => 1
  | .mem m => m.operandCount

def Src.fill (b1 b2 : Byte) : Src → Src
  | .imm _ => .imm b1
  | .mem m => .mem (m.fill b1 b2)

def Src.operandBytes : Src → List Byte
  | .imm b => [b]
  | .mem m => m.operandBytes

def Dst.operandCount : Dst → Nat
  | .reg _ => 0
  | .mem m => m.operandCount

def Dst.fill (b1 b2 : Byte) : Dst → Dst
  | .reg r => .reg r
  | .mem m => .mem (m.fill b1 b2)

def Dst.operandBytes : Dst → List Byte
  | .reg _ => []
  | .mem m => m.operandBytes

/-- The form with operand byte `b` (R142, R143). -/
def Rel.fill (b : Byte) : Rel → Rel
  | .direct _ => .direct b
  | .indirect _ => .indirect b

/-- The operand byte of the form. -/
def Rel.operandByte : Rel → Byte
  | .direct b | .indirect b => b

/-- The form with operand byte `b` (R144 to R147). -/
def BitForm.fill (b : Byte) : BitForm → BitForm
  | .direct _ => .direct b
  | .indirect _ => .indirect b

/-- The operand byte of the form. -/
def BitForm.operandByte : BitForm → Byte
  | .direct b | .indirect b => b

/-- How many operand bytes follow the op-code (R90: 0, 1 or 2). -/
def Instr.operandCount : Instr → Nat
  | .adc s | .add s | .sub s | .sbc s | .and s | .or s | .xor s | .bcp s | .cp _ s | .ld _ s => s.operandCount
  | .cpl d | .neg d | .inc d | .dec d | .tnz d | .clr d | .sll d | .sla d | .srl d | .sra d | .rlc d | .rrc d
  | .swap d => d.operandCount
  | .ldStore m _ | .jp m | .call m => m.operandCount
  | .bset _ _ | .bres _ _ => 1
  | .btjt _ _ _ | .btjf _ _ _ => 2
  | .jra _ | .jrt _ | .jrf _ | .callr _ | .jrc _ | .jrnc _ | .jrult _ | .jruge _ | .jreq _ | .jrne _ | .jrmi _
  | .jrpl _ | .jrh _ | .jrnh _ | .jrm _ | .jrnm _ | .jrugt _ | .jrule _ | .jrih _ | .jril _ => 1
  | .mul _ | .ldRegReg _ _ | .ldSReg _ | .ldRegS _ | .push _ | .pop _ | .rsp | .nop | .ret | .trap | .wfi | .halt
  | .iret | .sim | .rim | .scf | .rcf => 0

/-- The instruction with operand bytes `b1`, `b2` (the second unused where there is one, both where there is none). -/
def Instr.fill (b1 b2 : Byte) : Instr → Instr
  | .adc s => .adc (s.fill b1 b2)
  | .add s => .add (s.fill b1 b2)
  | .sub s => .sub (s.fill b1 b2)
  | .sbc s => .sbc (s.fill b1 b2)
  | .and s => .and (s.fill b1 b2)
  | .or s => .or (s.fill b1 b2)
  | .xor s => .xor (s.fill b1 b2)
  | .bcp s => .bcp (s.fill b1 b2)
  | .cp r s => .cp r (s.fill b1 b2)
  | .ld r s => .ld r (s.fill b1 b2)
  | .cpl d => .cpl (d.fill b1 b2)
  | .neg d => .neg (d.fill b1 b2)
  | .inc d => .inc (d.fill b1 b2)
  | .dec d => .dec (d.fill b1 b2)
  | .tnz d => .tnz (d.fill b1 b2)
  | .clr d => .clr (d.fill b1 b2)
  | .sll d => .sll (d.fill b1 b2)
  | .sla d => .sla (d.fill b1 b2)
  | .srl d => .srl (d.fill b1 b2)
  | .sra d => .sra (d.fill b1 b2)
  | .rlc d => .rlc (d.fill b1 b2)
  | .rrc d => .rrc (d.fill b1 b2)
  | .swap d => .swap (d.fill b1 b2)
  | .ldStore m r => .ldStore (m.fill b1 b2) r
  | .jp m => .jp (m.fill b1 b2)
  | .call m => .call (m.fill b1 b2)
  | .bset n b => .bset n (b.fill b1)
  | .bres n b => .bres n (b.fill b1)
  | .btjt n b _ => .btjt n (b.fill b1) b2
  | .btjf n b _ => .btjf n (b.fill b1) b2
  | .jra t => .jra (t.fill b1)
  | .jrt t => .jrt (t.fill b1)
  | .jrf t => .jrf (t.fill b1)
  | .callr t => .callr (t.fill b1)
  | .jrc t => .jrc (t.fill b1)
  | .jrnc t => .jrnc (t.fill b1)
  | .jrult t => .jrult (t.fill b1)
  | .jruge t => .jruge (t.fill b1)
  | .jreq t => .jreq (t.fill b1)
  | .jrne t => .jrne (t.fill b1)
  | .jrmi t => .jrmi (t.fill b1)
  | .jrpl t => .jrpl (t.fill b1)
  | .jrh t => .jrh (t.fill b1)
  | .jrnh t => .jrnh (t.fill b1)
  | .jrm t => .jrm (t.fill b1)
  | .jrnm t => .jrnm (t.fill b1)
  | .jrugt t => .jrugt (t.fill b1)
  | .jrule t => .jrule (t.fill b1)
  | .jrih t => .jrih (t.fill b1)
  | .jril t => .jril (t.fill b1)
  | .mul r => .mul r
  | .ldRegReg d s => .ldRegReg d s
  | .ldSReg r => .ldSReg r
  | .ldRegS r => .ldRegS r
  | .push r => .push r
  | .pop r => .pop r
  | .rsp => .rsp
  | .nop => .nop
  | .ret => .ret
  | .trap => .trap
  | .wfi => .wfi
  | .halt => .halt
  | .iret => .iret
  | .sim => .sim
  | .rim => .rim
  | .scf => .scf
  | .rcf => .rcf

/-! ## The opcode map (R97 to R105) -/

/-- Bit position of a bit instruction: op-code bits 3..1 (R98). -/
def bitPos (lo : Nat) : BitVec 3 := BitVec.ofNat 3 (lo / 2)

/-- Row 0: BTJT and BTJF (R98). -/
def rowBtj (lo : Nat) (b : BitForm) : Option Instr :=
  if lo % 2 = 0 then some (.btjt (bitPos lo) b 0#8) else some (.btjf (bitPos lo) b 0#8)

/-- Row 1: BSET and BRES (R98). -/
def rowBit (lo : Nat) (b : BitForm) : Option Instr :=
  if lo % 2 = 0 then some (.bset (bitPos lo) b) else some (.bres (bitPos lo) b)

/-- Row 2: the relative jumps (R102). Of two mnemonics with one encoding the decoder answers the first (R112, log 26). -/
def rowRel (lo : Nat) (t : Rel) : Option Instr :=
  match lo with
  | 0x0 => some (.jra t)
  | 0x1 => some (.jrf t)
  | 0x2 => some (.jrugt t)
  | 0x3 => some (.jrule t)
  | 0x4 => some (.jrnc t)
  | 0x5 => some (.jrc t)
  | 0x6 => some (.jrne t)
  | 0x7 => some (.jreq t)
  | 0x8 => some (.jrnh t)
  | 0x9 => some (.jrh t)
  | 0xA => some (.jrpl t)
  | 0xB => some (.jrmi t)
  | 0xC => some (.jrnm t)
  | 0xD => some (.jrm t)
  | 0xE => some (.jril t)
  | 0xF => some (.jrih t)
  | _ => none

/-- Rows 3 to 7: the read-modify-write family (R99). -/
def rowRmw (lo : Nat) (d : Dst) : Option Instr :=
  match lo with
  | 0x0 => some (.neg d)
  | 0x3 => some (.cpl d)
  | 0x4 => some (.srl d)
  | 0x6 => some (.rrc d)
  | 0x7 => some (.sra d)
  | 0x8 => some (.sll d)
  | 0x9 => some (.rlc d)
  | 0xA => some (.dec d)
  | 0xC => some (.inc d)
  | 0xD => some (.tnz d)
  | 0xE => some (.swap d)
  | 0xF => some (.clr d)
  | _ => none

/-- Row 8 without a pre-byte (R101). -/
def rowStack (lo : Nat) : Option Instr :=
  match lo with
  | 0x0 => some .iret
  | 0x1 => some .ret
  | 0x3 => some .trap
  | 0x4 => some (.pop .a)
  | 0x5 => some (.pop .x)
  | 0x6 => some (.pop .cc)
  | 0x8 => some (.push .a)
  | 0x9 => some (.push .x)
  | 0xA => some (.push .cc)
  | 0xE => some .halt
  | 0xF => some .wfi
  | _ => none

/-- Row 9 without a pre-byte (R101); $90 to $92 are the pre-bytes themselves. -/
def rowTransfer (lo : Nat) : Option Instr :=
  match lo with
  | 0x3 => some (.ldRegReg .x .y)
  | 0x4 => some (.ldSReg .x)
  | 0x5 => some (.ldSReg .a)
  | 0x6 => some (.ldRegS .x)
  | 0x7 => some (.ldRegReg .x .a)
  | 0x8 => some .rcf
  | 0x9 => some .scf
  | 0xA => some .rim
  | 0xB => some .sim
  | 0xC => some .rsp
  | 0xD => some .nop
  | 0xE => some (.ldRegS .a)
  | 0xF => some (.ldRegReg .a .x)
  | _ => none

/-- Row 9 after $90 (R92, R103). -/
def rowTransferY (lo : Nat) : Option Instr :=
  match lo with
  | 0x3 => some (.ldRegReg .y .x)
  | 0x4 => some (.ldSReg .y)
  | 0x6 => some (.ldRegS .y)
  | 0x7 => some (.ldRegReg .y .a)
  | 0xF => some (.ldRegReg .a .y)
  | _ => none

/-- Row A: the immediate column forms; `r` is the index register of columns 3 and E (R100). -/
def rowImm (lo : Nat) (r : Index) : Option Instr :=
  match lo with
  | 0x0 => some (.sub (.imm 0#8))
  | 0x1 => some (.cp .a (.imm 0#8))
  | 0x2 => some (.sbc (.imm 0#8))
  | 0x3 => some (.cp r.reg (.imm 0#8))
  | 0x4 => some (.and (.imm 0#8))
  | 0x5 => some (.bcp (.imm 0#8))
  | 0x6 => some (.ld .a (.imm 0#8))
  | 0x8 => some (.xor (.imm 0#8))
  | 0x9 => some (.adc (.imm 0#8))
  | 0xA => some (.or (.imm 0#8))
  | 0xB => some (.add (.imm 0#8))
  | 0xE => some (.ld r.reg (.imm 0#8))
  | _ => none

/-- Rows B to F: the memory column forms; `r` is the index register of columns 3, E and F (R100). -/
def rowMem (lo : Nat) (r : Index) (m : MemForm) : Option Instr :=
  match lo with
  | 0x0 => some (.sub (.mem m))
  | 0x1 => some (.cp .a (.mem m))
  | 0x2 => some (.sbc (.mem m))
  | 0x3 => some (.cp r.reg (.mem m))
  | 0x4 => some (.and (.mem m))
  | 0x5 => some (.bcp (.mem m))
  | 0x6 => some (.ld .a (.mem m))
  | 0x7 => some (.ldStore m .a)
  | 0x8 => some (.xor (.mem m))
  | 0x9 => some (.adc (.mem m))
  | 0xA => some (.or (.mem m))
  | 0xB => some (.add (.mem m))
  | 0xC => some (.jp m)
  | 0xD => some (.call m)
  | 0xE => some (.ld r.reg (.mem m))
  | 0xF => some (.ldStore m r.reg)
  | _ => none

/-- The columns 3, E and F, the only ones whose register operand is the index register (R103, R104). -/
def isIndexColumn (lo : Nat) : Bool := lo == 0x3 || lo == 0xE || lo == 0xF

/-- The un-prefixed map (R97 to R102). -/
def mapPlain (hi lo : Nat) : Option Instr :=
  match hi with
  | 0x0 => rowBtj lo (.direct 0#8)
  | 0x1 => rowBit lo (.direct 0#8)
  | 0x2 => rowRel lo (.direct 0#8)
  | 0x3 => rowRmw lo (.mem (.short 0#8))
  | 0x4 => if lo = 0x2 then some (.mul .x) else rowRmw lo (.reg .a)
  | 0x5 => rowRmw lo (.reg .x)
  | 0x6 => rowRmw lo (.mem (.idx1 .x 0#8))
  | 0x7 => rowRmw lo (.mem (.idx0 .x))
  | 0x8 => rowStack lo
  | 0x9 => rowTransfer lo
  | 0xA => if lo = 0xD then some (.callr (.direct 0#8)) else rowImm lo .x
  | 0xB => rowMem lo .x (.short 0#8)
  | 0xC => rowMem lo .x (.long 0#16)
  | 0xD => rowMem lo .x (.idx2 .x 0#16)
  | 0xE => rowMem lo .x (.idx1 .x 0#8)
  | 0xF => rowMem lo .x (.idx0 .x)
  | _ => none

/-- The map after $90, PDY (R92, R103). -/
def mapPdy (hi lo : Nat) : Option Instr :=
  match hi with
  | 0x4 => if lo = 0x2 then some (.mul .y) else none
  | 0x5 => rowRmw lo (.reg .y)
  | 0x6 => rowRmw lo (.mem (.idx1 .y 0#8))
  | 0x7 => rowRmw lo (.mem (.idx0 .y))
  | 0x8 => if lo = 0x5 then some (.pop .y) else if lo = 0x9 then some (.push .y) else none
  | 0x9 => rowTransferY lo
  | 0xA => if isIndexColumn lo then rowImm lo .y else none
  | 0xB => if isIndexColumn lo then rowMem lo .y (.short 0#8) else none
  | 0xC => if isIndexColumn lo then rowMem lo .y (.long 0#16) else none
  | 0xD => rowMem lo .y (.idx2 .y 0#16)
  | 0xE => rowMem lo .y (.idx1 .y 0#8)
  | 0xF => rowMem lo .y (.idx0 .y)
  | _ => none

/-- The map after $91, PIY (R94, R104). -/
def mapPiy (hi lo : Nat) : Option Instr :=
  match hi with
  | 0x6 => rowRmw lo (.mem (.indxS .y 0#8))
  | 0xB => if isIndexColumn lo then rowMem lo .y (.indS 0#8) else none
  | 0xC => if isIndexColumn lo then rowMem lo .y (.indL 0#8) else none
  | 0xD => rowMem lo .y (.indxL .y 0#8)
  | 0xE => rowMem lo .y (.indxS .y 0#8)
  | _ => none

/-- The map after $92, PIX (R93, R105). -/
def mapPix (hi lo : Nat) : Option Instr :=
  match hi with
  | 0x0 => rowBtj lo (.indirect 0#8)
  | 0x1 => rowBit lo (.indirect 0#8)
  | 0x2 => rowRel lo (.indirect 0#8)
  | 0x3 => rowRmw lo (.mem (.indS 0#8))
  | 0x6 => rowRmw lo (.mem (.indxS .x 0#8))
  | 0xA => if lo = 0xD then some (.callr (.indirect 0#8)) else none
  | 0xB => rowMem lo .x (.indS 0#8)
  | 0xC => rowMem lo .x (.indL 0#8)
  | 0xD => rowMem lo .x (.indxL .x 0#8)
  | 0xE => rowMem lo .x (.indxS .x 0#8)
  | _ => none

/-- The opcode map: the template of (pre, op), or nothing where the pair is undefined (R91, R106, R107). -/
def opcodeMap (p : Pre) (op : Byte) : Option Instr :=
  match p with
  | .none => mapPlain (op.toNat / 16) (op.toNat % 16)
  | .pdy => mapPdy (op.toNat / 16) (op.toNat % 16)
  | .piy => mapPiy (op.toNat / 16) (op.toNat % 16)
  | .pix => mapPix (op.toNat / 16) (op.toNat % 16)

/-! ## The decoder (R91) -/

/-- Why a byte sequence is no instruction. -/
inductive DecodeError where
  /-- The pair (pre, op) is in no table (R106, R107). -/
  | illegalOpcode (pre : Pre) (op : Byte)
  /-- The sequence ends before the instruction does. -/
  | truncated
  deriving DecidableEq, Repr

/-- The pre-byte, the op-code, and the bytes after them (R91, first two lines). -/
def splitPre : List Byte → Except DecodeError (Pre × Byte × List Byte)
  | [] => .error .truncated
  | b0 :: rest =>
    match Pre.ofByte b0, rest with
    | .none, _ => .ok (.none, b0, rest)
    | .some _, [] => .error .truncated
    | .some p, op :: rest' => .ok (p, op, rest')

/-- The template with its operand bytes taken from `rest`, and what is left (R91, fifth line). -/
def takeOperands (t : Instr) (rest : List Byte) : Except DecodeError (Instr × List Byte) :=
  match t.operandCount, rest with
  | 0, r => .ok (t, r)
  | 1, b1 :: r => .ok (t.fill b1 0#8, r)
  | 2, b1 :: b2 :: r => .ok (t.fill b1 b2, r)
  | _, _ => .error .truncated

/-- The decoder of R91: total on any byte sequence. It answers the instruction and the bytes after it. -/
def decode (bs : List Byte) : Except DecodeError (Instr × List Byte) :=
  match splitPre bs with
  | .error e => .error e
  | .ok (p, op, rest) =>
    match opcodeMap p op with
    | none => .error (.illegalOpcode p op)
    | some t => takeOperands t rest

/-! ## The encoder -/

/-- The op-code of row `hi`, column `lo`. -/
def opByte (hi lo : Nat) : Byte := BitVec.ofNat 8 (16 * hi + lo)

/-- Pre-byte and op-code of column `lo` for a memory operand, where the register operand is A or there is none (R92 to
R94, R100). -/
def MemForm.head (lo : Nat) : MemForm → Pre × Byte
  | .short _ => (.none, opByte 0xB lo)
  | .long _ => (.none, opByte 0xC lo)
  | .idx0 .x => (.none, opByte 0xF lo)
  | .idx0 .y => (.pdy, opByte 0xF lo)
  | .idx1 .x _ => (.none, opByte 0xE lo)
  | .idx1 .y _ => (.pdy, opByte 0xE lo)
  | .idx2 .x _ => (.none, opByte 0xD lo)
  | .idx2 .y _ => (.pdy, opByte 0xD lo)
  | .indS _ => (.pix, opByte 0xB lo)
  | .indL _ => (.pix, opByte 0xC lo)
  | .indxS .x _ => (.pix, opByte 0xE lo)
  | .indxS .y _ => (.piy, opByte 0xE lo)
  | .indxL .x _ => (.pix, opByte 0xD lo)
  | .indxL .y _ => (.piy, opByte 0xD lo)

/-- As `MemForm.head`, with register operand `r`: Y as the register operand takes $90 before the direct forms and $91
before the indirect ones (R103, R104). -/
def MemForm.headFor (r : Reg) (lo : Nat) (m : MemForm) : Pre × Byte :=
  match r, m with
  | .y, .short _ => (.pdy, opByte 0xB lo)
  | .y, .long _ => (.pdy, opByte 0xC lo)
  | .y, .indS _ => (.piy, opByte 0xB lo)
  | .y, .indL _ => (.piy, opByte 0xC lo)
  | _, _ => m.head lo

/-- Pre-byte and op-code of column `lo` for a source operand and register operand `r` (R100, R103, R104). -/
def Src.headFor (r : Reg) (lo : Nat) : Src → Pre × Byte
  | .imm _ => (if r = .y then .pdy else .none, opByte 0xA lo)
  | .mem m => m.headFor r lo

/-- Pre-byte and op-code of operation `lo` of the read-modify-write family (R99). The four forms the family does not have
are given the op-code of the nearest row; `Instr.wf` shuts them out. -/
def Dst.head (lo : Nat) : Dst → Pre × Byte
  | .reg .a => (.none, opByte 0x4 lo)
  | .reg .x => (.none, opByte 0x5 lo)
  | .reg .y => (.pdy, opByte 0x5 lo)
  | .mem (.short _) | .mem (.long _) => (.none, opByte 0x3 lo)
  | .mem (.idx0 .x) => (.none, opByte 0x7 lo)
  | .mem (.idx0 .y) => (.pdy, opByte 0x7 lo)
  | .mem (.idx1 .x _) | .mem (.idx2 .x _) => (.none, opByte 0x6 lo)
  | .mem (.idx1 .y _) | .mem (.idx2 .y _) => (.pdy, opByte 0x6 lo)
  | .mem (.indS _) | .mem (.indL _) => (.pix, opByte 0x3 lo)
  | .mem (.indxS .x _) | .mem (.indxL .x _) => (.pix, opByte 0x6 lo)
  | .mem (.indxS .y _) | .mem (.indxL .y _) => (.piy, opByte 0x6 lo)

/-- Pre-byte and op-code `op` of a relative jump (R93, R102). -/
def Rel.head (op : Byte) : Rel → Pre × Byte
  | .direct _ => (.none, op)
  | .indirect _ => (.pix, op)

/-- Pre-byte and op-code `base + 2·pos` of a bit instruction (R93, R98). -/
def BitForm.head (base : Nat) (pos : BitVec 3) : BitForm → Pre × Byte
  | .direct _ => (.none, BitVec.ofNat 8 (base + 2 * pos.toNat))
  | .indirect _ => (.pix, BitVec.ofNat 8 (base + 2 * pos.toNat))

/-- Pre-byte and op-code of an instruction (R98 to R105). `ldRegReg` of a register to itself has no encoding; `Instr.wf`
shuts it out. -/
def Instr.head : Instr → Pre × Byte
  | .sub s => s.headFor .a 0x0
  | .cp .a s => s.headFor .a 0x1
  | .sbc s => s.headFor .a 0x2
  | .cp .x s => s.headFor .x 0x3
  | .cp .y s => s.headFor .y 0x3
  | .and s => s.headFor .a 0x4
  | .bcp s => s.headFor .a 0x5
  | .ld .a s => s.headFor .a 0x6
  | .ldStore m .a => m.headFor .a 0x7
  | .xor s => s.headFor .a 0x8
  | .adc s => s.headFor .a 0x9
  | .or s => s.headFor .a 0xA
  | .add s => s.headFor .a 0xB
  | .jp m => m.headFor .a 0xC
  | .call m => m.headFor .a 0xD
  | .ld .x s => s.headFor .x 0xE
  | .ld .y s => s.headFor .y 0xE
  | .ldStore m .x => m.headFor .x 0xF
  | .ldStore m .y => m.headFor .y 0xF
  | .neg d => d.head 0x0
  | .cpl d => d.head 0x3
  | .srl d => d.head 0x4
  | .rrc d => d.head 0x6
  | .sra d => d.head 0x7
  | .sll d => d.head 0x8
  | .sla d => d.head 0x8
  | .rlc d => d.head 0x9
  | .dec d => d.head 0xA
  | .inc d => d.head 0xC
  | .tnz d => d.head 0xD
  | .swap d => d.head 0xE
  | .clr d => d.head 0xF
  | .mul .x => (.none, 0x42#8)
  | .mul .y => (.pdy, 0x42#8)
  | .btjt n b _ => b.head 0x00 n
  | .btjf n b _ => b.head 0x01 n
  | .bset n b => b.head 0x10 n
  | .bres n b => b.head 0x11 n
  | .jra t => t.head 0x20#8
  | .jrt t => t.head 0x20#8
  | .jrf t => t.head 0x21#8
  | .jrugt t => t.head 0x22#8
  | .jrule t => t.head 0x23#8
  | .jrnc t => t.head 0x24#8
  | .jruge t => t.head 0x24#8
  | .jrc t => t.head 0x25#8
  | .jrult t => t.head 0x25#8
  | .jrne t => t.head 0x26#8
  | .jreq t => t.head 0x27#8
  | .jrnh t => t.head 0x28#8
  | .jrh t => t.head 0x29#8
  | .jrpl t => t.head 0x2A#8
  | .jrmi t => t.head 0x2B#8
  | .jrnm t => t.head 0x2C#8
  | .jrm t => t.head 0x2D#8
  | .jril t => t.head 0x2E#8
  | .jrih t => t.head 0x2F#8
  | .callr t => t.head 0xAD#8
  | .iret => (.none, 0x80#8)
  | .ret => (.none, 0x81#8)
  | .trap => (.none, 0x83#8)
  | .pop .a => (.none, 0x84#8)
  | .pop .x => (.none, 0x85#8)
  | .pop .y => (.pdy, 0x85#8)
  | .pop .cc => (.none, 0x86#8)
  | .push .a => (.none, 0x88#8)
  | .push .x => (.none, 0x89#8)
  | .push .y => (.pdy, 0x89#8)
  | .push .cc => (.none, 0x8A#8)
  | .halt => (.none, 0x8E#8)
  | .wfi => (.none, 0x8F#8)
  | .ldRegReg .x .y => (.none, 0x93#8)
  | .ldRegReg .y .x => (.pdy, 0x93#8)
  | .ldSReg .x => (.none, 0x94#8)
  | .ldSReg .y => (.pdy, 0x94#8)
  | .ldSReg .a => (.none, 0x95#8)
  | .ldRegS .x => (.none, 0x96#8)
  | .ldRegS .y => (.pdy, 0x96#8)
  | .ldRegReg .x _ => (.none, 0x97#8)
  | .ldRegReg .y _ => (.pdy, 0x97#8)
  | .rcf => (.none, 0x98#8)
  | .scf => (.none, 0x99#8)
  | .rim => (.none, 0x9A#8)
  | .sim => (.none, 0x9B#8)
  | .rsp => (.none, 0x9C#8)
  | .nop => (.none, 0x9D#8)
  | .ldRegS .a => (.none, 0x9E#8)
  | .ldRegReg .a .y => (.pdy, 0x9F#8)
  | .ldRegReg .a _ => (.none, 0x9F#8)

/-- The operand bytes of an instruction, in the order they are stored (R95, R96). -/
def Instr.operandBytes : Instr → List Byte
  | .adc s | .add s | .sub s | .sbc s | .and s | .or s | .xor s | .bcp s | .cp _ s | .ld _ s => s.operandBytes
  | .cpl d | .neg d | .inc d | .dec d | .tnz d | .clr d | .sll d | .sla d | .srl d | .sra d | .rlc d | .rrc d
  | .swap d => d.operandBytes
  | .ldStore m _ | .jp m | .call m => m.operandBytes
  | .bset _ b | .bres _ b => [b.operandByte]
  | .btjt _ b r | .btjf _ b r => [b.operandByte, r]
  | .jra t | .jrt t | .jrf t | .callr t | .jrc t | .jrnc t | .jrult t | .jruge t | .jreq t | .jrne t | .jrmi t
  | .jrpl t | .jrh t | .jrnh t | .jrm t | .jrnm t | .jrugt t | .jrule t | .jrih t | .jril t => [t.operandByte]
  | .mul _ | .ldRegReg _ _ | .ldSReg _ | .ldRegS _ | .push _ | .pop _ | .rsp | .nop | .ret | .trap | .wfi | .halt
  | .iret | .sim | .rim | .scf | .rcf => []

/-- The bytes of a well-formed instruction (R90): pre-byte, op-code, operand bytes. -/
def encode (i : Instr) : List Byte := i.head.1.bytes ++ i.head.2 :: i.operandBytes

/-- `lgth`: the number of bytes of an instruction, pre-byte included (R11, R111). -/
def Instr.length (i : Instr) : Nat := i.head.1.bytes.length + 1 + i.operandCount

/-- The instruction the decoder answers for the encoding of `i`: `i` itself, but for the four second mnemonics of R112. -/
def Instr.canonical : Instr → Instr
  | .sla d => .sll d
  | .jrt t => .jra t
  | .jruge t => .jrnc t
  | .jrult t => .jrc t
  | i => i

/-! ## The host's numbering of an instruction's bits -/

/-- The bytes, in the order they are stored, of an instruction whose bits are `w`, numbered as `spec/opcode_table.json`
numbers them. A row with a pre-byte has its two match bytes as ONE number, the pre-byte in bits 15..8 and the op-code in
bits 7..0 (R113: "big-endian as one number"); any other byte counts on from the first (log 24). Bits above `nbits` are 0,
up to the four bytes of the longest instruction (R90). -/
def tableBytes (nbits w : Nat) : List Byte :=
  let v := w % 2 ^ nbits
  let b0 := BitVec.ofNat 8 v
  let b1 := BitVec.ofNat 8 (v / 256)
  let b2 := BitVec.ofNat 8 (v / 65536)
  let b3 := BitVec.ofNat 8 (v / 16777216)
  if (Pre.ofByte b1).isSome && (Pre.ofByte b0).isNone then [b1, b0, b2, b3] else [b0, b1, b2, b3]

/-- The instruction the decoder reads from an instruction whose bits are `w`, numbered as the opcode table numbers them. -/
def decodeTableWord (nbits w : Nat) : Option Instr :=
  match decode (tableBytes nbits w) with
  | .ok (i, _) => some i
  | .error _ => none

end Sys2Proof
end

