-- ==== Sys2Proof/Machine/Ops.lean ====
section
/-! DEFINITION. The operations every meaning is made of: byte accesses through the memory map, registers, the stack, entering
and leaving an exception. -/

namespace Sys2Proof.Machine

/-- A result of one of the three outcomes of a step. -/
abbrev Res (α : Type) := Host.Outcome α Fault Refusal

/-- Goes on with the value of a result; a fault or a refusal stays what it is. -/
def andThen {α β : Type} (r : Res α) (k : α → Res β) : Res β :=
  match r with
  | .next v => k v
  | .fault f => .fault f
  | .refused e => .refused e

/-- An 8-bit value as a 16-bit one, `zext_8` (R8). -/
def zext (b : Byte) : Word := b.setWidth 16

/-- An 8-bit value as a signed 16-bit one, `sext_8` (R8). -/
def sext (b : Byte) : Word := b.signExtend 16

/-! ## Memory accesses -/

/-- The kind of the region an address lies in: the first region that holds it, or none (R70; log 28). -/
def State.kindAt (s : State) (a : Word) : Option RegionKind :=
  (s.device.memoryMap.find? fun r => r.first ≤ a && a ≤ r.last).map (·.kind)

/-- Bytes another agent writes, one after another (R6 (4), R393). DESIGN CHOICE: every RAM byte may be so written, and a write to
any other kind of address changes nothing (log 36). -/
def storeRam (s : State) : List (Word × Byte) → State
  | [] => s
  | (a, v) :: rest =>
    storeRam (if s.kindAt a = some .ram then { s with mem := s.mem.write a.toNat v } else s) rest

/-- The state right before the next byte access: what other agents write in that gap has landed (R74, D11). -/
def State.settle (s : State) : State :=
  match s.gaps with
  | [] => s
  | ws :: rest => storeRam { s with gaps := rest } ws

/-- A reset has cut this turn short: no further access takes place (R359, R390). What the core computes from here on is lost, for
the reset sequence gives every register its value (log 22). -/
def State.frozen (s : State) : Bool := s.cut && s.gaps.isEmpty

/-- A read, by the kind of the region. RAM, ROM and EEPROM read as plain storage; a device region answers the next drawn value
and the access is an event (R69, D23); an address in no region is refused (R71, D10). -/
def readMapped (s : State) (a : Word) : Res (Byte × State) :=
  match s.kindAt a with
  | some .ram | some .rom | some .eeprom => .next (s.mem.read a.toNat, s)
  | some .device =>
    .next (Config.deviceByte s.draws,
      { s with draws := s.draws + 1, events := .read a (Config.deviceByte s.draws) :: s.events })
  | none => .refused (.accessRefused .read a)

/-- A write, by the kind of the region. RAM is written; a write to a device region is an event; a write to ROM, EEPROM or no
region is refused (R69, R71, D10, D23). -/
def writeMapped (s : State) (a : Word) (v : Byte) : Res State :=
  match s.kindAt a with
  | some .ram => .next { s with mem := s.mem.write a.toNat v }
  | some .device => .next { s with events := .write a v :: s.events }
  | some .rom | some .eeprom | none => .refused (.accessRefused .write a)

/-- `MemRead(a, 1)` (R8): the value of the most recent write by any agent (R74). Once a reset has cut the turn short there is no
access, and the value is a placeholder that nothing keeps. -/
def readByte (s : State) (a : Word) : Res (Byte × State) :=
  if s.frozen then .next (0x00#8, s) else readMapped s.settle a

/-- `MemWrite(a, 1, v)` (R8). Once a reset has cut the turn short there is no access. -/
def writeByte (s : State) (a : Word) (v : Byte) : Res State :=
  if s.frozen then .next s else writeMapped s.settle a v

/-- `MemRead16(a)` (R8): the most significant byte at `a`, then the least significant at `a + 1`, mod 2^16 (R62, R66). -/
def readWord (s : State) (a : Word) : Res (Word × State) :=
  andThen (readByte s a) fun (ms, s) =>
  andThen (readByte s (a + 1)) fun (ls, s) =>
  .next (wordOf ms ls, s)

/-- `Fetch8()` (R8): the byte at PC; PC moves on by one, mod 2^16 (D8). -/
def fetchByte (s : State) : Res (Byte × State) :=
  andThen (readByte s s.pc) fun (b, s) =>
  .next (b, { s with pc := s.pc + 1 })

/-! ## Registers -/

/-- The index register an addressing mode selects, `ndx` (R130). -/
def State.index (s : State) : Index → Byte
  | .x => s.x
  | .y => s.y

/-- The value of a register operand. -/
def State.reg (s : State) : Reg → Byte
  | .a => s.a
  | .x => s.x
  | .y => s.y

/-- The state with a register operand written. -/
def State.setReg (s : State) (r : Reg) (v : Byte) : State :=
  match r with
  | .a => { s with a := v }
  | .x => { s with x := v }
  | .y => { s with y := v }

/-- SP as a 16-bit address: the forced bits above the live ones (R25). -/
def State.spAddr (s : State) : Word := s.device.spPreset ++ s.sp

/-- S, the low byte of SP: SP_PRESET[1:0] above SP[5:0] (R25, R27). -/
def State.spLow (s : State) : Byte := lsByte s.spAddr

/-- CC as a byte: `0b111 : H : I : N : Z : C` (R26). -/
def CC.toByte (cc : CC) : Byte :=
  0b111#3 ++ BitVec.ofBool cc.h ++ BitVec.ofBool cc.i ++ BitVec.ofBool cc.n ++ BitVec.ofBool cc.z ++ BitVec.ofBool cc.c

/-- CC from a byte: bits 4 to 0; bits 7 to 5 are ignored (R26). -/
def CC.ofByte (v : Byte) : CC where
  h := v.getLsbD 4
  i := v.getLsbD 3
  n := v.getLsbD 2
  z := v.getLsbD 1
  c := v.getLsbD 0

/-- The value PUSH stores (R168). -/
def State.stackReg (s : State) : StackReg → Byte
  | .a => s.a
  | .x => s.x
  | .y => s.y
  | .cc => s.cc.toByte

/-- The state with the operand of POP written (R169). -/
def State.setStackReg (s : State) (r : StackReg) (v : Byte) : State :=
  match r with
  | .a => { s with a := v }
  | .x => { s with x := v }
  | .y => { s with y := v }
  | .cc => { s with cc := CC.ofByte v }

/-! ## The stack -/

/-- `Push(v)`: the store at SP, then SP[5:0] one less, mod 64 (R30, R32). -/
def pushByte (s : State) (v : Byte) : Res State :=
  andThen (writeByte s s.spAddr v) fun s =>
  .next { s with sp := s.sp - 1 }

/-- `Pop()`: SP[5:0] one more, mod 64, then the load at SP (R31, D9). -/
def popByte (s : State) : Res (Byte × State) :=
  readByte { s with sp := s.sp + 1 } { s with sp := s.sp + 1 }.spAddr

/-- A return address pushed: its least significant byte, then its most significant byte (R62 (d), R66). -/
def pushWord (s : State) (w : Word) : Res State :=
  andThen (pushByte s (lsByte w)) fun s =>
  pushByte s (msByte w)

/-- A return address popped: its most significant byte, then its least significant byte (R62 (d), R66). -/
def popWord (s : State) : Res (Word × State) :=
  andThen (popByte s) fun (ms, s) =>
  andThen (popByte s) fun (ls, s) =>
  .next (wordOf ms ls, s)

/-! ## Taking an exception, and returning from one -/

/-- The five pushes of an exception: PC low, PC high, X, A, CC (R330, R355). Y is not stacked (R44). -/
def pushContext (s : State) : Res State :=
  andThen (pushWord s s.pc) fun s =>
  andThen (pushByte s s.x) fun s =>
  andThen (pushByte s s.a) fun s =>
  pushByte s s.cc.toByte

/-- TAKING AN EXCEPTION, the sequence TRAP and hardware interrupts share (R330, R355): the context is pushed, I becomes 1
after CC is stacked, and PC is loaded from the vector (R357, D2). PC is the address to return to. -/
def enterException (s : State) (vector : Word) : Res State :=
  andThen (pushContext s) fun s =>
  andThen (readWord { s with cc := { s.cc with i := true } } vector) fun (target, s) =>
  .next { s with pc := target }

/-- RETURNING FROM AN EXCEPTION, the reverse of the five pushes (R333, R361): CC, A, X, PC high, PC low. -/
def returnFromException (s : State) : Res State :=
  andThen (popByte s) fun (cc, s) =>
  andThen (popByte { s with cc := CC.ofByte cc }) fun (a, s) =>
  andThen (popByte { s with a := a }) fun (x, s) =>
  andThen (popWord { s with x := x }) fun (target, s) =>
  .next { s with pc := target }

/-- THE RESET SEQUENCE (R391, R392): SP to its upper value, I set, every latch cleared (D13), running, PC from the reset
vector (D2); what the spec leaves unspecified, RAM too, is what the environment drew (R393, D18, log 22). Nothing is pushed. -/
def resetSequence (s : State) (d : ResetDraw) : Res State :=
  andThen
    (readWord
      (storeRam
        { s with
          a := d.a
          x := d.x
          y := d.y
          sp := 0b111111#6
          cc := { h := d.h, i := true, n := d.n, z := d.z, c := d.c }
          pending := s.pending.map fun _ => false
          runState := .running }
        d.ram)
      s.device.resetVector)
    fun (target, s) => .next { s with pc := target }

end Sys2Proof.Machine
end

