-- ==== Sys2Proof/Machine/Operands.lean ====
section
/-! DEFINITION. Every operand form: effective addresses (R149), sources, destinations, relative targets, bit operands. `PC`
is the address of the next instruction throughout (R24). -/

namespace Sys2Proof.Machine

/-- The effective address of a memory operand (R133 to R141, R149). Short sums reach 01FE (R72); long sums wrap mod 2^16 (D6);
a word pointer at FF has its second byte at 0100 (D7). -/
def effAddr (m : MemForm) (s : State) : Res (Word × State) :=
  match m with
  | .short aa => .next (zext aa, s)
  | .long addr => .next (addr, s)
  | .idx0 r => .next (zext (s.index r), s)
  | .idx1 r off => .next (zext off + zext (s.index r), s)
  | .idx2 r off => .next (off + zext (s.index r), s)
  | .indS ptr => andThen (readByte s (zext ptr)) fun (p, s) => .next (zext p, s)
  | .indL ptr => readWord s (zext ptr)
  | .indxS r ptr => andThen (readByte s (zext ptr)) fun (p, s) => .next (zext p + zext (s.index r), s)
  | .indxL r ptr => andThen (readWord s (zext ptr)) fun (p, s) => .next (p + zext (s.index r), s)

/-- The value at a memory operand: the read at its effective address. -/
def readMem (m : MemForm) (s : State) : Res (Byte × State) :=
  andThen (effAddr m s) fun (ea, s) => readByte s ea

/-- A source operand: the immediate byte (R132), or the byte at the effective address. -/
def readSrc (src : Src) (s : State) : Res (Byte × State) :=
  match src with
  | .imm v => .next (v, s)
  | .mem m => readMem m s

/-- An operation of A with a source operand (R200 to R202, R240 to R243): `f` answers the new A and the condition codes. -/
def modifyAcc (src : Src) (s : State) (f : Byte → Byte → CC → Byte × CC) : Res State :=
  andThen (readSrc src s) fun (m, s) =>
  .next { s with a := (f s.a m s.cc).1, cc := (f s.a m s.cc).2 }

/-- A comparison of a register with a source operand (R182, R183, R185): the result is lost, the condition codes stay. -/
def compareReg (r : Reg) (src : Src) (s : State) (f : Byte → Byte → CC → Byte × CC) : Res State :=
  andThen (readSrc src s) fun (m, s) =>
  .next { s with cc := (f (s.reg r) m s.cc).2 }

/-- The operand of the read-modify-write family, read only (TNZ, R184). -/
def readDst (dst : Dst) (s : State) : Res (Byte × State) :=
  match dst with
  | .reg r => .next (s.reg r, s)
  | .mem m => readMem m s

/-- An operand read, changed and written back (R67): `f` answers the new value and the condition codes after it. A memory
operand is read once and written once, at one effective address, even when the value does not change. -/
def modifyDst (dst : Dst) (s : State) (f : Byte → CC → Byte × CC) : Res State :=
  match dst with
  | .reg r => .next { s.setReg r (f (s.reg r) s.cc).1 with cc := (f (s.reg r) s.cc).2 }
  | .mem m =>
    andThen (effAddr m s) fun (ea, s) =>
    andThen (readByte s ea) fun (v, s) =>
    andThen (writeByte s ea (f v s.cc).1) fun t =>
    .next { t with cc := (f v s.cc).2 }

/-- An operand written with `v`, for CLR: a memory operand is first read where `CLR_READS_DEST` says so (R67, D17). -/
def overwriteDst (dst : Dst) (s : State) (v : Byte) : Res State :=
  match dst with
  | .reg r => .next (s.setReg r v)
  | .mem m =>
    andThen (effAddr m s) fun (ea, s) =>
    andThen (if s.device.clrReadsDest then readByte s ea else .next (0x00#8, s)) fun (_, s) =>
    writeByte s ea v

/-- The displacement byte of a relative jump; the indirect form reads it from page zero whether or not the jump is taken
(R142, R143, R280, D12). -/
def readRel (t : Rel) (s : State) : Res (Byte × State) :=
  match t with
  | .direct disp => .next (disp, s)
  | .indirect ptr => readByte s (zext ptr)

/-- `target`: PC_next plus the signed displacement, mod 2^16 (R142, R280, D8). -/
def relTarget (s : State) (disp : Byte) : Word := s.pc + sext disp

/-- A relative jump: to its target if `cond`, else to the next instruction (R280, R300). -/
def branchIf (cond : Bool) (t : Rel) (s : State) : Res State :=
  andThen (readRel t s) fun (disp, s) =>
  .next (if cond then { s with pc := relTarget s disp } else s)

/-- The effective address of a bit instruction, in page zero (R144 to R147). -/
def bitAddr (b : BitForm) (s : State) : Res (Word × State) :=
  match b with
  | .direct addr => .next (zext addr, s)
  | .indirect ptr => andThen (readByte s (zext ptr)) fun (p, s) => .next (zext p, s)

/-- The byte with bit `pos` alone set, `1 << pos` (R220, R221). -/
def bitMask (pos : BitVec 3) : Byte := 0x01#8 <<< pos.toNat

/-- A byte of page zero read, changed and written back (R67, R220, R221). -/
def modifyBit (b : BitForm) (s : State) (f : Byte → Byte) : Res State :=
  andThen (bitAddr b s) fun (ea, s) =>
  andThen (readByte s ea) fun (v, s) =>
  writeByte s ea (f v)

/-- A bit tested: C is the bit, and the jump is taken where the bit equals `want` (R222, R223). -/
def testBit (b : BitForm) (pos : BitVec 3) (disp : Byte) (want : Bool) (s : State) : Res State :=
  andThen (bitAddr b s) fun (ea, s) =>
  andThen (readByte s ea) fun (v, s) =>
  .next
    { s with
      cc := { s.cc with c := v.getLsbD pos.toNat }
      pc := if v.getLsbD pos.toNat = want then relTarget s disp else s.pc }

end Sys2Proof.Machine
end

