-- ==== Sys2Proof/Machine/Arith.lean ====
section
/-! DEFINITION. Arithmetic: the meanings of `45_arithmetic.md`. -/

namespace Sys2Proof.Machine

/-- ADC (R240). -/
def execAdc (src : Src) (s : State) : Res State := modifyAcc src s fun a m cc => addFlags a m cc.c cc

/-- ADD (R241): the incoming C is ignored. -/
def execAdd (src : Src) (s : State) : Res State := modifyAcc src s fun a m cc => addFlags a m false cc

/-- SUB (R242): the incoming C is ignored. -/
def execSub (src : Src) (s : State) : Res State := modifyAcc src s fun a m cc => subFlags a m false cc

/-- SBC (R243). -/
def execSbc (src : Src) (s : State) : Res State := modifyAcc src s fun a m cc => subFlags a m cc.c cc

/-- MUL (R244): the index register takes the product's high byte, A its low byte; N and Z are not affected. -/
def execMul (ndx : Index) (s : State) : Res State :=
  let p := mulFlags (s.index ndx) s.a s.cc
  .next { s.setReg ndx.reg (msByte p.1) with a := lsByte p.1, cc := p.2 }

end Sys2Proof.Machine
end

