-- ==== Sys2Proof/Machine/Bit.lean ====
section
/-! DEFINITION. Bit instructions: the meanings of `44_bit.md`. -/

namespace Sys2Proof.Machine

/-- BSET (R220): no flag is written; the byte is written even where the bit was 1 already. -/
def execBset (pos : BitVec 3) (b : BitForm) (s : State) : Res State := modifyBit b s fun v => v ||| bitMask pos

/-- BRES (R221, with the complement the page lost, C12). -/
def execBres (pos : BitVec 3) (b : BitForm) (s : State) : Res State := modifyBit b s fun v => v &&& ~~~bitMask pos

/-- BTJT (R222): jumps where the bit is 1. -/
def execBtjt (pos : BitVec 3) (b : BitForm) (disp : Byte) (s : State) : Res State := testBit b pos disp true s

/-- BTJF (R223): jumps where the bit is 0. -/
def execBtjf (pos : BitVec 3) (b : BitForm) (disp : Byte) (s : State) : Res State := testBit b pos disp false s

end Sys2Proof.Machine
end

