-- ==== Sys2Proof/Machine/Branch.lean ====
section
/-! DEFINITION. Conditional relative branches: the meanings of `48_cond_branch.md`. The condition is that of the flags before the branch (R300). -/

namespace Sys2Proof.Machine

/-- JRC (R301). -/
def execJrc (t : Rel) (s : State) : Res State := branchIf s.cc.c t s

/-- JRNC (R302). -/
def execJrnc (t : Rel) (s : State) : Res State := branchIf (!s.cc.c) t s

/-- JRULT (R303). -/
def execJrult (t : Rel) (s : State) : Res State := branchIf s.cc.c t s

/-- JRUGE (R304). -/
def execJruge (t : Rel) (s : State) : Res State := branchIf (!s.cc.c) t s

/-- JREQ (R305). -/
def execJreq (t : Rel) (s : State) : Res State := branchIf s.cc.z t s

/-- JRNE (R306). -/
def execJrne (t : Rel) (s : State) : Res State := branchIf (!s.cc.z) t s

/-- JRMI (R307). -/
def execJrmi (t : Rel) (s : State) : Res State := branchIf s.cc.n t s

/-- JRPL (R308). -/
def execJrpl (t : Rel) (s : State) : Res State := branchIf (!s.cc.n) t s

/-- JRH (R309). -/
def execJrh (t : Rel) (s : State) : Res State := branchIf s.cc.h t s

/-- JRNH (R310). -/
def execJrnh (t : Rel) (s : State) : Res State := branchIf (!s.cc.h) t s

/-- JRM (R311). -/
def execJrm (t : Rel) (s : State) : Res State := branchIf s.cc.i t s

/-- JRNM (R312). -/
def execJrnm (t : Rel) (s : State) : Res State := branchIf (!s.cc.i) t s

/-- JRUGT (R313). -/
def execJrugt (t : Rel) (s : State) : Res State := branchIf (!s.cc.c && !s.cc.z) t s

/-- JRULE (R314). -/
def execJrule (t : Rel) (s : State) : Res State := branchIf (s.cc.c || s.cc.z) t s

/-- JRIH (R315). -/
def execJrih (t : Rel) (s : State) : Res State := branchIf s.extIntLine t s

/-- JRIL (R316). -/
def execJril (t : Rel) (s : State) : Res State := branchIf (!s.extIntLine) t s

end Sys2Proof.Machine
end

