-- ==== Sys2Proof/Machine/Compare.lean ====
section
/-! DEFINITION. Increment, decrement, compare and test: the meanings of `42_incdec_compare.md`. -/

namespace Sys2Proof.Machine

/-- INC (R180). -/
def execInc (dst : Dst) (s : State) : Res State := modifyDst dst s incFlags

/-- DEC (R181). -/
def execDec (dst : Dst) (s : State) : Res State := modifyDst dst s decFlags

/-- CP A,src; CP X,src; CP Y,src (R182, R183): the flags of `reg - M`; the register stays. -/
def execCp (r : Reg) (src : Src) (s : State) : Res State := compareReg r src s fun v m cc => subFlags v m false cc

/-- TNZ (R184): N and Z follow the operand; nothing is written back. -/
def execTnz (dst : Dst) (s : State) : Res State :=
  andThen (readDst dst s) fun (v, s) => .next { s with cc := s.cc.setNZ v }

/-- BCP (R185): the flags of `A AND M`; A stays. -/
def execBcp (src : Src) (s : State) : Res State := compareReg .a src s andFlags

end Sys2Proof.Machine
end

