-- ==== Sys2Proof/Machine/Jump.lean ====
section
/-! DEFINITION. Unconditional jump, call and return: the meanings of `47_jump_call.md`. -/

namespace Sys2Proof.Machine

/-- JRA (R281). -/
def execJra (t : Rel) (s : State) : Res State := branchIf true t s

/-- JRT (R282), the second mnemonic of JRA. -/
def execJrt (t : Rel) (s : State) : Res State := branchIf true t s

/-- JRF (R283): never jumps; the indirect form still reads its displacement (R280). -/
def execJrf (t : Rel) (s : State) : Res State := branchIf false t s

/-- JP (R284): PC becomes the effective address itself; memory there is not read (R150). -/
def execJp (m : MemForm) (s : State) : Res State :=
  andThen (effAddr m s) fun (ea, s) => .next { s with pc := ea }

/-- CALL (R285): the target is computed before the two pushes of the return address. -/
def execCall (m : MemForm) (s : State) : Res State :=
  andThen (effAddr m s) fun (ea, s) =>
  andThen (pushWord s s.pc) fun s =>
  .next { s with pc := ea }

/-- CALLR (R286): as CALL, to the relative target. -/
def execCallr (t : Rel) (s : State) : Res State :=
  andThen (readRel t s) fun (disp, s) =>
  andThen (pushWord s s.pc) fun t =>
  .next { t with pc := relTarget s disp }

/-- NOP (R287). -/
def execNop (s : State) : Res State := .next s

/-- RET (R288). -/
def execRet (s : State) : Res State :=
  andThen (popWord s) fun (target, s) => .next { s with pc := target }

end Sys2Proof.Machine
end

