-- ==== Sys2Proof/Machine/Load.lean ====
section
/-! DEFINITION. Load, transfer, clear and stack: the meanings of `41_load_stack.md`. -/

namespace Sys2Proof.Machine

/-- LD A,src; LD X,src; LD Y,src (R160, R161): the register takes the operand, N and Z follow it. In an indexed form the old
index forms the address (R404). -/
def execLd (r : Reg) (src : Src) (s : State) : Res State :=
  andThen (readSrc src s) fun (m, s) =>
  .next { s.setReg r m with cc := s.cc.setNZ m }

/-- LD dst,A; LD dst,X; LD dst,Y (R162, R163): the store, written only; N and Z follow the stored value. -/
def execLdStore (m : MemForm) (r : Reg) (s : State) : Res State :=
  andThen (effAddr m s) fun (ea, s) =>
  andThen (writeByte s ea (s.reg r)) fun t =>
  .next { t with cc := s.cc.setNZ (s.reg r) }

/-- The flags of a register transfer (R164 to R166, D3): none, unless the parameter `LD_REGREG_SETS_NZ` is true. -/
def transferFlags (s : State) (v : Byte) : CC := if s.device.ldRegRegSetsNZ then s.cc.setNZ v else s.cc

/-- LD reg,reg (R164). -/
def execLdRegReg (dst src : Reg) (s : State) : Res State :=
  .next { s.setReg dst (s.reg src) with cc := transferFlags s (s.reg src) }

/-- LD S,reg (R165): SP[5:0] takes bits 5..0 of the register; bits 7 and 6 are discarded (R27). -/
def execLdSReg (r : Reg) (s : State) : Res State :=
  .next { s with sp := (s.reg r).extractLsb' 0 6, cc := transferFlags s (s.reg r) }

/-- LD reg,S (R166): the register takes SP[7:0]. -/
def execLdRegS (r : Reg) (s : State) : Res State :=
  .next { s.setReg r s.spLow with cc := transferFlags s s.spLow }

/-- CLR (R167). -/
def execClr (dst : Dst) (s : State) : Res State :=
  andThen (overwriteDst dst s (clrFlags s.cc).1) fun t =>
  .next { t with cc := (clrFlags s.cc).2 }

/-- PUSH (R168): no flag is written. -/
def execPush (r : StackReg) (s : State) : Res State := pushByte s (s.stackReg r)

/-- POP (R169): POP CC writes all five flags, the other forms none (D21). -/
def execPop (r : StackReg) (s : State) : Res State :=
  andThen (popByte s) fun (v, s) => .next (s.setStackReg r v)

/-- RSP (R170): SP[5:0] takes its reset value. -/
def execRsp (s : State) : Res State := .next { s with sp := 0b111111#6 }

end Sys2Proof.Machine
end

