-- ==== Sys2Proof/Machine/Logic.lean ====
section
/-! DEFINITION. Logical instructions: the meanings of `43_logical.md`. -/

namespace Sys2Proof.Machine

/-- AND (R200). -/
def execAnd (src : Src) (s : State) : Res State := modifyAcc src s andFlags

/-- OR (R201). -/
def execOr (src : Src) (s : State) : Res State := modifyAcc src s orFlags

/-- XOR (R202). -/
def execXor (src : Src) (s : State) : Res State := modifyAcc src s xorFlags

/-- CPL (R203). -/
def execCpl (dst : Dst) (s : State) : Res State := modifyDst dst s cplFlags

/-- NEG (R204). -/
def execNeg (dst : Dst) (s : State) : Res State := modifyDst dst s negFlags

end Sys2Proof.Machine
end

