-- ==== Sys2Proof/Machine/Shift.lean ====
section
/-! DEFINITION. Shifts, rotates and swap: the meanings of `46_shift_rotate.md`. -/

namespace Sys2Proof.Machine

/-- SLL (R260). -/
def execSll (dst : Dst) (s : State) : Res State := modifyDst dst s sllFlags

/-- SLA, which "is equivalent to SLL one" (R261). -/
def execSla (dst : Dst) (s : State) : Res State := modifyDst dst s sllFlags

/-- SRL (R262). -/
def execSrl (dst : Dst) (s : State) : Res State := modifyDst dst s srlFlags

/-- SRA (R263). -/
def execSra (dst : Dst) (s : State) : Res State := modifyDst dst s sraFlags

/-- RLC (R264). -/
def execRlc (dst : Dst) (s : State) : Res State := modifyDst dst s rlcFlags

/-- RRC (R265). -/
def execRrc (dst : Dst) (s : State) : Res State := modifyDst dst s rrcFlags

/-- SWAP (R266). -/
def execSwap (dst : Dst) (s : State) : Res State := modifyDst dst s swapFlags

end Sys2Proof.Machine
end

