-- ==== Sys2Proof/Machine/System.lean ====
section
/-! DEFINITION. Interrupt management and condition flags: the meanings of `49_interrupt_ccflags.md`. -/

namespace Sys2Proof.Machine

/-- TRAP (R330, R356): takes the software interrupt whatever I is. -/
def execTrap (s : State) : Res State := enterException s s.device.trapVector

/-- WFI (R331): I is cleared and the core waits. -/
def execWfi (s : State) : Res State := .next { s with cc := { s.cc with i := false }, runState := .waiting }

/-- HALT (R332): I is cleared and the oscillator stops. -/
def execHalt (s : State) : Res State := .next { s with cc := { s.cc with i := false }, runState := .halted }

/-- IRET (R333). -/
def execIret (s : State) : Res State := returnFromException s

/-- SIM (R334). -/
def execSim (s : State) : Res State := .next { s with cc := { s.cc with i := true } }

/-- RIM (R335). -/
def execRim (s : State) : Res State := .next { s with cc := { s.cc with i := false } }

/-- SCF (R336). -/
def execScf (s : State) : Res State := .next { s with cc := { s.cc with c := true } }

/-- RCF (R337). -/
def execRcf (s : State) : Res State := .next { s with cc := { s.cc with c := false } }

end Sys2Proof.Machine
end

