-- ==== Sys2Proof/Machine/Dispatch.lean ====
section
/-! DEFINITION. The dispatch: one arm per constructor of `Instr`. `s` is the state after the fetch: its PC is the address of the next
instruction (R24). -/

namespace Sys2Proof.Machine

def exec (i : Instr) (s : State) : Host.Outcome State Fault Refusal :=
  match i with
  | .adc src => Sys2Proof.Machine.execAdc src s
  | .add src => Sys2Proof.Machine.execAdd src s
  | .sub src => Sys2Proof.Machine.execSub src s
  | .sbc src => Sys2Proof.Machine.execSbc src s
  | .mul ndx => Sys2Proof.Machine.execMul ndx s
  | .and src => Sys2Proof.Machine.execAnd src s
  | .or src => Sys2Proof.Machine.execOr src s
  | .xor src => Sys2Proof.Machine.execXor src s
  | .cpl dst => Sys2Proof.Machine.execCpl dst s
  | .neg dst => Sys2Proof.Machine.execNeg dst s
  | .inc dst => Sys2Proof.Machine.execInc dst s
  | .dec dst => Sys2Proof.Machine.execDec dst s
  | .cp r src => Sys2Proof.Machine.execCp r src s
  | .tnz dst => Sys2Proof.Machine.execTnz dst s
  | .bcp src => Sys2Proof.Machine.execBcp src s
  | .ld r src => Sys2Proof.Machine.execLd r src s
  | .ldStore m r => Sys2Proof.Machine.execLdStore m r s
  | .ldRegReg dst src => Sys2Proof.Machine.execLdRegReg dst src s
  | .ldSReg r => Sys2Proof.Machine.execLdSReg r s
  | .ldRegS r => Sys2Proof.Machine.execLdRegS r s
  | .clr dst => Sys2Proof.Machine.execClr dst s
  | .push r => Sys2Proof.Machine.execPush r s
  | .pop r => Sys2Proof.Machine.execPop r s
  | .rsp => Sys2Proof.Machine.execRsp s
  | .sll dst => Sys2Proof.Machine.execSll dst s
  | .sla dst => Sys2Proof.Machine.execSla dst s
  | .srl dst => Sys2Proof.Machine.execSrl dst s
  | .sra dst => Sys2Proof.Machine.execSra dst s
  | .rlc dst => Sys2Proof.Machine.execRlc dst s
  | .rrc dst => Sys2Proof.Machine.execRrc dst s
  | .swap dst => Sys2Proof.Machine.execSwap dst s
  | .bset pos b => Sys2Proof.Machine.execBset pos b s
  | .bres pos b => Sys2Proof.Machine.execBres pos b s
  | .btjt pos b disp => Sys2Proof.Machine.execBtjt pos b disp s
  | .btjf pos b disp => Sys2Proof.Machine.execBtjf pos b disp s
  | .jra t => Sys2Proof.Machine.execJra t s
  | .jrt t => Sys2Proof.Machine.execJrt t s
  | .jrf t => Sys2Proof.Machine.execJrf t s
  | .jp m => Sys2Proof.Machine.execJp m s
  | .call m => Sys2Proof.Machine.execCall m s
  | .callr t => Sys2Proof.Machine.execCallr t s
  | .nop => Sys2Proof.Machine.execNop s
  | .ret => Sys2Proof.Machine.execRet s
  | .jrc t => Sys2Proof.Machine.execJrc t s
  | .jrnc t => Sys2Proof.Machine.execJrnc t s
  | .jrult t => Sys2Proof.Machine.execJrult t s
  | .jruge t => Sys2Proof.Machine.execJruge t s
  | .jreq t => Sys2Proof.Machine.execJreq t s
  | .jrne t => Sys2Proof.Machine.execJrne t s
  | .jrmi t => Sys2Proof.Machine.execJrmi t s
  | .jrpl t => Sys2Proof.Machine.execJrpl t s
  | .jrh t => Sys2Proof.Machine.execJrh t s
  | .jrnh t => Sys2Proof.Machine.execJrnh t s
  | .jrm t => Sys2Proof.Machine.execJrm t s
  | .jrnm t => Sys2Proof.Machine.execJrnm t s
  | .jrugt t => Sys2Proof.Machine.execJrugt t s
  | .jrule t => Sys2Proof.Machine.execJrule t s
  | .jrih t => Sys2Proof.Machine.execJrih t s
  | .jril t => Sys2Proof.Machine.execJril t s
  | .trap => Sys2Proof.Machine.execTrap s
  | .wfi => Sys2Proof.Machine.execWfi s
  | .halt => Sys2Proof.Machine.execHalt s
  | .iret => Sys2Proof.Machine.execIret s
  | .sim => Sys2Proof.Machine.execSim s
  | .rim => Sys2Proof.Machine.execRim s
  | .scf => Sys2Proof.Machine.execScf s
  | .rcf => Sys2Proof.Machine.execRcf s

end Sys2Proof.Machine
end

