-- ==== Sys2Proof/Machine/Events.lean ====
section
/-! DEFINITION. Hardware interrupts, wake-up, and the inputs of the agents other than the core (`60_exceptions.md`, R6). -/

namespace Sys2Proof.Machine

/-- `pending[k]` (R40). -/
def State.isPending (s : State) (k : Nat) : Bool := s.pending[k]?.getD false

/-- Source `k`, where its latch is set and it can be taken in the present run state: in HALT only a source of
`HALT_WAKE_SET` (R370, R372). -/
def candidate (s : State) (k : Nat) : Option (Nat × IrqSource) :=
  match s.device.sources[k]? with
  | some src => if s.isPending k && (s.runState != .halted || src.wakesHalt) then some (k, src) else none
  | none => none

/-- The interrupt accepted at this boundary (R353, R358): none while I is set, else the first in `IRQ_PRIORITY` that can be
taken. -/
def acceptedSource (s : State) : Option (Nat × IrqSource) :=
  if s.cc.i then none else s.device.priority.findSome? (candidate s)

/-- The cycles of leaving HALT, "with 4096 clock cycles delay" (R372, R373). -/
def wakeCycles (s : State) : Nat := if s.runState = .halted then Config.haltRestartCycles else 0

/-- The entry of hardware interrupt `k` (R355, R370, R372): the sequence of an exception through its vector, the latch cleared
where `IRQ_ACK[k]` is `on_entry` (R363), and the core running. -/
def enterInterrupt (k : Nat) (src : IrqSource) (s : State) : Res State :=
  andThen (enterException s src.vector) fun t =>
  .next
    { t with
      pending := if src.ack = .onEntry then t.pending.set k false else t.pending
      runState := .running
      cycles := t.cycles + wakeCycles s }

/-- Whether source `k` can act now: in HALT "all internal peripherals" are stopped, and only a source of `HALT_WAKE_SET` can
raise a request (R332, R372). -/
def sourceRuns (s : State) (k : Nat) : Bool :=
  s.runState != .halted || (s.device.sources[k]?.any (·.wakesHalt))

/-- One input of the environment (R6). In HALT the internal peripherals are stopped, so a request of theirs, a withdrawal and a
bus write cannot happen, and such an input changes nothing (R372 to R374, log 11). DESIGN CHOICE: a withdrawal clears the
latch of any source, whatever its `IRQ_ACK` (log 37; safe); a bus write reaches any RAM byte, and one to another kind of
address changes nothing (log 36; unsafe). -/
def deliver (e : Input) (s : State) : Res State :=
  match e with
  | .request k => .next (if sourceRuns s k then { s with pending := s.pending.set k true } else s)
  | .withdraw k => .next (if s.runState = .halted then s else { s with pending := s.pending.set k false })
  | .line level => .next { s with extIntLine := level }
  | .busWrite a v =>
    .next (if s.runState = .halted then s else storeRam s [(a, v)])

end Sys2Proof.Machine
end

