-- ==== Sys2Proof/Machine/Timing.lean ====
section
/-! DEFINITION. Cycle counts (`70_reset_and_hazards.md` R405, R406). They are an observation: nothing an instruction does
depends on them. -/

namespace Sys2Proof

/-- Cycles of an operand read by an A-register instruction (R406, first table). -/
def MemForm.readCycles : MemForm → Nat
  | .short _ => 3
  | .long _ => 4
  | .idx0 .x => 3
  | .idx0 .y => 4
  | .idx1 .x _ => 4
  | .idx1 .y _ => 5
  | .idx2 .x _ => 5
  | .idx2 .y _ => 6
  | .indS _ => 5
  | .indL _ => 6
  | .indxS _ _ => 6
  | .indxL _ _ => 7

/-- As `MemForm.readCycles`, for register operand `r`: the direct forms of Y cost one cycle more, their pre-byte (R406). -/
def MemForm.readCyclesFor (r : Reg) (m : MemForm) : Nat :=
  match r, m with
  | .y, .short _ => 4
  | .y, .long _ => 5
  | _, _ => m.readCycles

/-- Cycles of ADC, ADD, AND, BCP, CP, LD, OR, SBC, SUB and XOR with a source operand (R406). -/
def Src.readCyclesFor (r : Reg) : Src → Nat
  | .imm _ => if r = .y then 3 else 2
  | .mem m => m.readCyclesFor r

/-- Cycles of the read-modify-write family, `extra` more than a read for a memory operand (R406: 2; TNZ 1). -/
def Dst.cycles (extra : Nat) : Dst → Nat
  | .reg .a | .reg .x => 3
  | .reg .y => 4
  | .mem m => m.readCycles + extra

/-- Cycles of a relative jump (R406). -/
def Rel.cycles : Rel → Nat
  | .direct _ => 3
  | .indirect _ => 5

/-- Cycles of a bit instruction (R406). -/
def BitForm.cycles : BitForm → Nat
  | .direct _ => 5
  | .indirect _ => 7

/-- `cy`: the cycles of an instruction (R405, R406). -/
def Instr.cycles : Instr → Nat
  | .adc s | .add s | .sub s | .sbc s | .and s | .or s | .xor s | .bcp s => s.readCyclesFor .a
  | .cp r s | .ld r s => s.readCyclesFor r
  | .ldStore m r => m.readCyclesFor r + 1
  | .ldRegReg .y _ | .ldRegReg .a .y | .ldSReg .y | .ldRegS .y => 3
  | .ldRegReg _ _ | .ldSReg _ | .ldRegS _ => 2
  | .clr d | .cpl d | .dec d | .inc d | .neg d | .rlc d | .rrc d | .sll d | .sla d | .sra d | .srl d
  | .swap d => d.cycles 2
  | .tnz d => d.cycles 1
  | .mul .x => 11
  | .mul .y => 12
  | .push .y => 4
  | .push _ => 3
  | .pop .y => 5
  | .pop _ => 4
  | .bset _ b | .bres _ b | .btjt _ b _ | .btjf _ b _ => b.cycles
  | .jp m => m.readCycles - 1
  | .call m => m.readCycles + 2
  | .callr t => t.cycles + 3
  | .jra t | .jrt t | .jrf t | .jrc t | .jrnc t | .jrult t | .jruge t | .jreq t | .jrne t | .jrmi t | .jrpl t | .jrh t
  | .jrnh t | .jrm t | .jrnm t | .jrugt t | .jrule t | .jrih t | .jril t => t.cycles
  | .ret => 6
  | .iret => 9
  | .trap => 10
  | .nop | .rsp | .rcf | .scf | .rim | .sim | .wfi | .halt => 2

end Sys2Proof
end

