-- ==== Sys2Proof/Machine/Turn.lean ====
section
/-! DEFINITION. Fetching an instruction (R91), and one turn of the core: an interrupt, an instruction, or a wait. -/

namespace Sys2Proof.Machine

/-- The byte a pre-byte is, if there is one. -/
def preByte? : Pre → Option Byte
  | .none => none
  | .pdy => some 0x90#8
  | .piy => some 0x91#8
  | .pix => some 0x92#8

/-- The rest of the fetch, after pre-byte and op-code (R91): the row of the opcode map, then its operand bytes. An undefined
pair is the fault of R108, unless a reset has cut the turn short before it is decoded (R359). -/
def fetchOperands (p : Pre) (op : Byte) (s : State) : Res (Instr × State) :=
  match opcodeMap p op with
  | none => if s.frozen then .next (.nop, s) else .fault (.illegalOpcode (preByte? p) op)
  | some t =>
    match t.operandCount with
    | 0 => .next (t, s)
    | 1 => andThen (fetchByte s) fun (b1, s) => .next (t.fill b1 0#8, s)
    | _ =>
      andThen (fetchByte s) fun (b1, s) =>
      andThen (fetchByte s) fun (b2, s) =>
      .next (t.fill b1 b2, s)

/-- The decoding algorithm of R91 over memory: every byte is read from memory when the instruction is decoded (R77, D20). PC is
left at the next instruction (R24). -/
def fetchInstr (s : State) : Res (Instr × State) :=
  andThen (fetchByte s) fun (b0, s) =>
  match Pre.ofByte b0 with
  | some p => andThen (fetchByte s) fun (op, s) => fetchOperands p op s
  | none => fetchOperands .none b0 s

/-- One instruction: fetched, executed, its cycles counted (R405). -/
def runInstruction (s : State) : Res State :=
  andThen (fetchInstr s) fun (i, s) =>
  andThen (exec i s) fun s =>
  .next { s with cycles := s.cycles + i.cycles }

/-- One turn of the core at an instruction boundary (R354, R359): an acceptable interrupt first, else an instruction; in WAIT and
HALT with nothing to take, nothing happens (U16). -/
def coreTurn (s : State) : Res State :=
  match acceptedSource s with
  | some (k, src) => enterInterrupt k src s
  | none =>
    match s.runState with
    | .running => runInstruction s
    | .waiting | .halted => .next s

/-- The oscillator is stopped, so that no watchdog can fire (R373): HALT, with nothing that ends it at this boundary. -/
def oscillatorStopped (s : State) : Bool := s.runState == .halted && (acceptedSource s).isNone

/-- The resets that can happen: while the oscillator is stopped, none before the first external one (R373, log 11). -/
def possibleResets (s : State) (resets : List Reset) : List Reset :=
  if oscillatorStopped s then resets.dropWhile (·.origin == .watchdog) else resets

/-- Resets one after another, each but the last cut short by the next (R359, R390). -/
def resetAll : List Reset → State → Res State
  | [], s => .next s
  | r :: rest, s =>
    andThen (resetSequence { s with gaps := r.gaps, cut := !rest.isEmpty } r.draw) fun t => resetAll rest t

/-- A turn of the core with what other agents do in it: their writes land in its gaps (R74, D11), and a reset cuts it short
(R359, R390). Of a turn cut short only the accesses made are left; its own cycles are not counted (log 23). -/
def takeTurn (gaps : Gaps) (resets : List Reset) (s : State) : Res State :=
  andThen (coreTurn { s with gaps := gaps, cut := !(possibleResets s resets).isEmpty }) fun t =>
  andThen
    (match possibleResets s resets with
      | [] => .next t
      | r :: rest => resetAll (r :: rest) { t with cycles := s.cycles + wakeCycles s }) fun t =>
  .next { t with gaps := [], cut := false }

/-- Whose turn it is, and the state with that turn taken off the schedule (log 10). -/
def nextTurn (s : State) : Turn × State :=
  match s.schedule with
  | [] => (.core [] [], s)
  | t :: rest => (t, { s with schedule := rest })

/-- The bytes stored from address `a` on, mod 2^16. -/
def storeBytes (m : Memory) (a : Word) : List Byte → Memory
  | [] => m
  | b :: rest => storeBytes (m.write a.toNat b) (a + 1) rest

/-- The state whose next step fetches and runs the instruction with bytes `bs`: they stand at PC, and it is the core's turn with
nothing before the fetch. At `State.reset` only the memory changes (log 25). -/
def placeAtFetch (s : State) (bs : List Byte) : State :=
  { s with
    mem := storeBytes s.mem s.pc bs
    runState := .running
    schedule := []
    pending := s.pending.map fun _ => false }

end Sys2Proof.Machine
end

