-- ==== Sys2Proof/Machine/Step.lean ====
section
/-! DEFINITION. One step: one turn of one agent. -/

namespace Sys2Proof.Machine

/-- One step of the machine (R6, R354): the turn the schedule names, the core's where it names none. -/
def step (s : State) : Host.Outcome State Fault Refusal :=
  match nextTurn s with
  | (.core gaps resets, t) => takeTurn gaps resets t
  | (.env e, t) => deliver e t

/-- The state whose next step fetches and runs the instruction whose bits are `w`, numbered as the opcode table numbers them. -/
def State.withFetchWord (s : State) (nbits w : Nat) : State := placeAtFetch s (tableBytes nbits w)

end Sys2Proof.Machine
end

