-- ==== Sys2Proof/WellFormed.lean ====
section
/-! DEFINITION. Which operand forms an instruction has an encoding for: the instruction × mode matrix of
`40_addressing_modes.md` R148. -/

namespace Sys2Proof

/-- The index register a memory operand uses, if any. -/
def MemForm.index? : MemForm → Option Index
  | .idx0 r | .idx1 r _ | .idx2 r _ | .indxS r _ | .indxL r _ => some r
  | .short _ | .long _ | .indS _ | .indL _ => none

/-- R148: "For CP X/Y and LD with X/Y as the data register the index of an indexed form is the same register". A pairs
with either index register. -/
def MemForm.pairsWith (m : MemForm) (r : Reg) : Bool :=
  match r, m.index? with
  | .a, _ | _, none => true
  | .x, some i => i == .x
  | .y, some i => i == .y

/-- As `MemForm.pairsWith`; an immediate pairs with every register. -/
def Src.pairsWith : Src → Reg → Bool
  | .imm _, _ => true
  | .mem m, r => m.pairsWith r

/-- R99, R148: the memory operands of the read-modify-write family; "There is no long form and no immediate form". -/
def Dst.wf : Dst → Bool
  | .reg _ => true
  | .mem (.short _) | .mem (.idx0 _) | .mem (.idx1 _ _) | .mem (.indS _) | .mem (.indxS _ _) => true
  | .mem (.long _) | .mem (.idx2 _ _) | .mem (.indL _) | .mem (.indxL _ _) => false

/-- The instructions the opcode table has a row for (R148; R164 for the six register-to-register forms). -/
def Instr.wf : Instr → Bool
  | .ld r s | .cp r s => s.pairsWith r
  | .ldStore m r => m.pairsWith r
  | .ldRegReg d s => d != s
  | .clr d | .cpl d | .dec d | .inc d | .neg d | .rlc d | .rrc d | .sll d | .sla d | .sra d | .srl d | .swap d
  | .tnz d => d.wf
  | .adc _ | .add _ | .sub _ | .sbc _ | .mul _ | .and _ | .or _ | .xor _ | .bcp _ | .ldSReg _ | .ldRegS _ | .push _
  | .pop _ | .rsp | .bset _ _ | .bres _ _ | .btjt _ _ _ | .btjf _ _ _ | .jra _ | .jrt _ | .jrf _ | .jp _ | .call _
  | .callr _ | .nop | .ret | .jrc _ | .jrnc _ | .jrult _ | .jruge _ | .jreq _ | .jrne _ | .jrmi _ | .jrpl _ | .jrh _
  | .jrnh _ | .jrm _ | .jrnm _ | .jrugt _ | .jrule _ | .jrih _ | .jril _ | .trap | .wfi | .halt | .iret | .sim | .rim
  | .scf | .rcf => true

end Sys2Proof
end

