-- ==== Sys2Proof/Safety.lean ====
section
/-! DEFINITION. The terms claims are stated in: one byte of memory, plain and stack addresses, what a stored context looks like,
the invariant of the machine, which instruction writes what (R38), and what a safe run is. -/

namespace Sys2Proof.Machine

/-! ## Reading a state -/

/-- The byte memory holds at an address. -/
def State.byteAt (s : State) (a : Word) : Byte := s.mem.read a.toNat

/-- The 16-bit value memory holds at an address, most significant byte first (R62). -/
def State.wordAt (s : State) (a : Word) : Word := wordOf (s.byteAt a) (s.byteAt (a + 1))

/-- The `n` bytes memory holds from an address on, mod 2^16. -/
def State.bytesAt (s : State) (a : Word) : Nat → List Byte
  | 0 => []
  | n + 1 => s.byteAt a :: s.bytesAt (a + 1) n

/-- An address whose reads are plain: RAM, ROM or EEPROM (R69). -/
def State.plainAt (s : State) (a : Word) : Prop :=
  s.kindAt a = some .ram ∨ s.kindAt a = some .rom ∨ s.kindAt a = some .eeprom

/-- The `n` addresses from `a` on are plain. -/
def State.plainRange (s : State) (a : Word) (n : Nat) : Prop := ∀ k < n, s.plainAt (a + BitVec.ofNat 16 k)

/-- `s` with what byte accesses have changed on the way to `t`: memory, the count of drawn values, the events, and the writes of
other agents still to come in this turn. -/
def State.afterBus (s t : State) : State := { s with mem := t.mem, gaps := t.gaps, draws := t.draws, events := t.events }

/-! ## What other agents do in a turn of the core (R74, R359) -/

/-- Nothing happens in this turn but what the core does: no other agent writes, and no reset cuts it short. -/
def State.quiet (s : State) : Prop := s.gaps = [] ∧ s.cut = false

/-- No other agent writes address `b` in the rest of this turn. -/
def Spared (s : State) (b : Word) : Prop := ∀ ws ∈ s.gaps, ∀ w ∈ ws, w.1 ≠ b

/-- The byte the last of the writes `ws` to address `b` leaves there, if there is one. -/
def lastWrite (ws : List (Word × Byte)) (b : Word) : Option Byte := (ws.reverse.find? fun w => w.1 == b).map (·.2)

/-- The state before the `n`-th byte access to come, `n` from 1: what other agents write in `n` gaps has landed. -/
def State.settled (s : State) : Nat → State
  | 0 => s
  | n + 1 => (s.settle).settled n

/-- `SetNZ(r)` as R36 writes it: N is bit 7 of the result, Z says that it is zero. -/
def nzOf (cc : CC) (r : Byte) : CC := { cc with n := r.getLsbD 7, z := decide (r.toNat = 0) }

/-- The address a displacement reaches from the next instruction: the signed sum, mod 2^16 (R280). -/
def reach (s : State) (disp : Byte) : Word := BitVec.ofInt 16 ((s.pc.toNat : Int) + disp.toInt)

/-! ## The stack -/

/-- The address of the `k`-th byte pushed from `s` on, `k` from 0 (R25, R30). -/
def State.slot (s : State) (k : Nat) : Word := s.device.spPreset ++ (s.sp - BitVec.ofNat 6 k)

/-- The 64 bytes of the stack are RAM (R394 (2)). -/
def State.stackIsRam (s : State) : Prop := ∀ p : BitVec 6, s.kindAt (s.device.spPreset ++ p) = some .ram

/-- From `s` to `t` the bytes `vs` were pushed, the first first: they stand in their slots, SP went down by their number, and
every other byte of memory is unchanged. -/
def Pushed (s t : State) (vs : List Byte) : Prop :=
  (∀ k < vs.length, t.byteAt (s.slot k) = vs.getD k 0#8) ∧
  (∀ b : Word, (∀ k < vs.length, b ≠ s.slot k) → t.byteAt b = s.byteAt b) ∧
  t.sp = s.sp - BitVec.ofNat 6 vs.length

/-- The five bytes an exception stacks, in the order they are pushed, for return address `s.pc` (R330, R355). -/
def State.context (s : State) : List Byte := [lsByte s.pc, msByte s.pc, s.x, s.a, s.cc.toByte]

/-- From `s` to `t` one byte was stored: `v` at `ea`, and every other byte of memory is unchanged. -/
def StoredAt (s t : State) (ea : Word) (v : Byte) : Prop :=
  ∀ b : Word, t.byteAt b = if b = ea then v else s.byteAt b

/-- Bytes pushed one after another. -/
def pushAll (s : State) : List Byte → Res State
  | [] => .next s
  | v :: vs => andThen (pushByte s v) fun s => pushAll s vs

/-- `n` bytes popped, the first popped first. -/
def popAll (s : State) : Nat → Res (List Byte × State)
  | 0 => .next ([], s)
  | n + 1 => andThen (popByte s) fun (v, s) => andThen (popAll s n) fun (vs, s) => .next (v :: vs, s)

/-! ## Turns and interrupts -/

/-- The next step of `s` is the core's turn, no reset in it, taken from state `t` with the writes `g` of other agents in its gaps. -/
def SharedTurn (s : State) (g : Gaps) (t : State) : Prop :=
  (s.schedule = [] ∧ g = [] ∧ t = { s with gaps := g, cut := false }) ∨
    ∃ rest, s.schedule = .core g [] :: rest ∧ t = { s with schedule := rest, gaps := g, cut := false }

/-- The next step of `s` is the core's turn, taken from state `t`, and no other agent does anything in it. -/
def CoreTurn (s t : State) : Prop := SharedTurn s [] t

/-- Source `k` can be taken in the run state of `s`: its latch is set and, in HALT, it is in `HALT_WAKE_SET` (R353, R372). -/
def Takeable (s : State) (k : Nat) (src : IrqSource) : Prop :=
  s.device.sources[k]? = some src ∧ s.pending[k]? = some true ∧ (s.runState = .halted → src.wakesHalt = true)

/-- No interrupt is accepted at this boundary: I is set, or no source can be taken (R353). -/
def Undisturbed (s : State) : Prop := s.cc.i = true ∨ ∀ k src, ¬ Takeable s k src

/-- Source `k` is the one taken: it is ranked in `IRQ_PRIORITY` and nothing ranked before it can be taken (R358). -/
def Selected (s : State) (k : Nat) (src : IrqSource) : Prop :=
  Takeable s k src ∧
    ∃ before after, s.device.priority = before ++ k :: after ∧ ∀ j ∈ before, ∀ src', ¬ Takeable s j src'

/-- `IRQ_PRIORITY` ranks every source (R5 "total order on sources"). -/
def RanksAll (d : Device) : Prop := ∀ k < d.sources.length, k ∈ d.priority

/-! ## The invariant -/

/-- What holds of every state a run reaches: memory is in its canonical form, there is one latch for each source (R40), the
core stands in WAIT or HALT only with I clear (R331, R332, R374), and between turns nothing of a turn is left (log 10). -/
structure Inv (s : State) : Prop where
  memWf : s.mem.wf
  quiet : s.quiet
  latches : s.pending.length = s.device.sources.length
  unmasked : s.runState ≠ .running → s.cc.i = false

end Sys2Proof.Machine

namespace Sys2Proof

/-! ## Which instruction writes what (R38; the register files of `40_addressing_modes.md` R148) -/

/-- The operand an instruction of the read-modify-write family writes (TNZ writes none). -/
def Instr.writtenDst : Instr → Option Dst
  | .cpl d | .neg d | .inc d | .dec d | .clr d | .sll d | .sla d | .srl d | .sra d | .rlc d | .rrc d | .swap d => some d
  | _ => none

/-- The register an instruction writes as its destination operand. -/
def Instr.writtenReg : Instr → Option Reg
  | .adc _ | .add _ | .sub _ | .sbc _ | .and _ | .or _ | .xor _ | .pop .a => some .a
  | .ld r _ | .ldRegReg r _ | .ldRegS r => some r
  | .pop .x => some .x
  | .pop .y => some .y
  | i => match i.writtenDst with
    | some (.reg r) => some r
    | _ => none

/-- The instructions that can change `r`: their destination operand, MUL's two halves, and IRET for A and X (R244, R333). -/
def Instr.changesReg (i : Instr) (r : Reg) : Bool :=
  i.writtenReg == some r ||
    match i, r with
    | .mul _, .a | .iret, .a | .iret, .x => true
    | .mul n, r => n.reg == r
    | _, _ => false

/-- SP[5:0] after an instruction that completes (R27, R30, R31, R33, R170). -/
def Instr.spAfter (i : Instr) (s : Machine.State) : BitVec 6 :=
  match i with
  | .push _ => s.sp - 1
  | .pop _ => s.sp + 1
  | .call _ | .callr _ => s.sp - 2
  | .ret => s.sp + 2
  | .trap => s.sp - 5
  | .iret => s.sp + 5
  | .rsp => 0b111111#6
  | .ldSReg r => BitVec.ofNat 6 (s.reg r).toNat
  | _ => s.sp

/-- The instructions that can change PC other than by moving on (R23). -/
def Instr.changesPc : Instr → Bool
  | .jra _ | .jrt _ | .jp _ | .call _ | .callr _ | .ret | .trap | .iret | .btjt _ _ _ | .btjf _ _ _ | .jrc _ | .jrnc _
  | .jrult _ | .jruge _ | .jreq _ | .jrne _ | .jrmi _ | .jrpl _ | .jrh _ | .jrnh _ | .jrm _ | .jrnm _ | .jrugt _
  | .jrule _ | .jrih _ | .jril _ => true
  | _ => false

/-- The instructions that can store to memory (R67, R30). -/
def Instr.storesMem (i : Instr) : Bool :=
  match i with
  | .ldStore _ _ | .bset _ _ | .bres _ _ | .push _ | .call _ | .callr _ | .trap => true
  | _ => match i.writtenDst with
    | some (.mem _) => true
    | _ => false

/-- R38, column H. -/
def Instr.changesH : Instr → Bool
  | .adc _ | .add _ | .mul _ | .pop .cc | .iret => true
  | _ => false

/-- R38, column I. -/
def Instr.changesI : Instr → Bool
  | .rim | .wfi | .halt | .sim | .trap | .pop .cc | .iret => true
  | _ => false

/-- R38, columns N and Z, which have the same entries but for their values. -/
def Instr.changesNZ : Instr → Bool
  | .adc _ | .add _ | .sub _ | .sbc _ | .cp _ _ | .and _ | .or _ | .xor _ | .bcp _ | .ld _ _ | .ldStore _ _ | .clr _
  | .inc _ | .dec _ | .tnz _ | .swap _ | .cpl _ | .neg _ | .sll _ | .sla _ | .rlc _ | .sra _ | .rrc _ | .srl _
  | .pop .cc | .iret => true
  | _ => false

/-- R38, column C. -/
def Instr.changesC : Instr → Bool
  | .adc _ | .add _ | .sub _ | .sbc _ | .cp _ _ | .cpl _ | .neg _ | .sll _ | .sla _ | .rlc _ | .sra _ | .rrc _ | .srl _
  | .mul _ | .btjt _ _ _ | .btjf _ _ _ | .rcf | .scf | .pop .cc | .iret => true
  | _ => false

/-! ## Which instruction reads which flag (R39) -/

/-- The instructions that read H. -/
def Instr.readsH : Instr → Bool
  | .jrh _ | .jrnh _ | .push .cc | .trap => true
  | _ => false

/-- The instructions that read I. -/
def Instr.readsI : Instr → Bool
  | .jrm _ | .jrnm _ | .push .cc | .trap => true
  | _ => false

/-- The instructions that read N. -/
def Instr.readsN : Instr → Bool
  | .jrmi _ | .jrpl _ | .push .cc | .trap => true
  | _ => false

/-- The instructions that read Z. -/
def Instr.readsZ : Instr → Bool
  | .jreq _ | .jrne _ | .jrugt _ | .jrule _ | .push .cc | .trap => true
  | _ => false

/-- The instructions that read C. -/
def Instr.readsC : Instr → Bool
  | .adc _ | .sbc _ | .rlc _ | .rrc _ | .jrc _ | .jrnc _ | .jrult _ | .jruge _ | .jrugt _ | .jrule _ | .push .cc
  | .trap => true
  | _ => false

/-! ## The columns and rows of the cycle tables (R406) -/

/-- The columns of the tables of A-register reads, of stores of A, and of JP and CALL, but for the immediate. -/
def memForms (b : Byte) (w : Word) : List MemForm :=
  [.short b, .long w, .idx0 .x, .idx1 .x b, .idx2 .x w, .idx0 .y, .idx1 .y b, .idx2 .y w, .indS b, .indL b, .indxS .x b,
    .indxL .x b, .indxS .y b, .indxL .y b]

/-- The forms of CP X, LD X and LD mem,X. -/
def xForms (b : Byte) (w : Word) : List MemForm :=
  [.short b, .long w, .idx0 .x, .idx1 .x b, .idx2 .x w, .indS b, .indL b, .indxS .x b, .indxL .x b]

/-- The forms of CP Y, LD Y and LD mem,Y. -/
def yForms (b : Byte) (w : Word) : List MemForm :=
  [.short b, .long w, .idx0 .y, .idx1 .y b, .idx2 .y w, .indS b, .indL b, .indxS .y b, .indxL .y b]

/-- The columns of the table of the read-modify-write family. -/
def dstForms (b : Byte) : List Dst :=
  [.reg .a, .reg .x, .reg .y, .mem (.short b), .mem (.idx0 .x), .mem (.idx1 .x b), .mem (.idx0 .y), .mem (.idx1 .y b),
    .mem (.indS b), .mem (.indxS .x b), .mem (.indxS .y b)]

/-- The operand-reading A-register instructions. -/
def accReads : List (Src → Instr) := [.adc, .add, .and, .bcp, .cp .a, .ld .a, .or, .sbc, .sub, .xor]

/-- The read-modify-write family, TNZ apart. -/
def rewriters : List (Dst → Instr) :=
  [.clr, .cpl, .dec, .inc, .neg, .rlc, .rrc, .sll, .sla, .sra, .srl, .swap]

/-- Every JRxx, JRA, JRT and JRF. -/
def relatives : List (Rel → Instr) :=
  [.jra, .jrt, .jrf, .jrc, .jrnc, .jrult, .jruge, .jreq, .jrne, .jrmi, .jrpl, .jrh, .jrnh, .jrm, .jrnm, .jrugt, .jrule,
    .jrih, .jril]

end Sys2Proof

namespace Sys2Proof.Machine

/-! ## What the results of the instructions look like -/

/-- `i` stores `v` at `ea`, as the memory map lets it (R69, R71, D10, D23). `after` is the state right before the store, registers
and flags as `i` leaves them; what other agents write before the store lands first (`after.settle`, R74). In RAM the byte is
stored and everything else stays; a device region gets a write event; anything else is refused. Where a reset has cut the
turn short, nothing is stored (R359). -/
def StoresByte (i : Instr) (s after : State) (ea : Word) (v : Byte) : Prop :=
  (after.frozen = true → exec i s = .next after) ∧
  (after.frozen = false →
    (s.kindAt ea = some .ram →
      ∃ t, exec i s = .next t ∧ StoredAt after.settle t ea v ∧ t = { after.settle with mem := t.mem }) ∧
    (s.kindAt ea = some .device →
      exec i s = .next { after.settle with events := .write ea v :: after.settle.events }) ∧
    (s.kindAt ea ≠ some .ram → s.kindAt ea ≠ some .device → exec i s = .refused (.accessRefused .write ea)))

/-- `i` reads its operand as `v`, writes `r` back to it and leaves the condition codes `cc`; nothing else changes (R67). -/
def Rewrites (i : Instr) (dst : Dst) (s : State) (v r : Byte) (cc : CC) : Prop :=
  match dst with
  | .reg q => s.reg q = v → exec i s = .next { s.setReg q r with cc := cc }
  | .mem m => ∀ ea s1 s2, effAddr m s = .next (ea, s1) → readByte s1 ea = .next (v, s2) →
      StoresByte i s { s.afterBus s2 with cc := cc } ea r

/-- `i` adds `m` and a carry to A (R34, R37, R240). -/
def Sums (i : Instr) (s s1 : State) (m : Byte) (cin : Bool) : Prop :=
  ∃ (r : Byte) (c : Bool), r.toNat + 256 * c.toNat = s.a.toNat + m.toNat + cin.toNat ∧
    exec i s = .next
      { s.afterBus s1 with
        a := r
        cc := { nzOf s.cc r with h := decide (s.a.toNat % 16 + m.toNat % 16 + cin.toNat > 15), c := c } }

/-- `i` subtracts `m` and a borrow from A (R37, R243). -/
def Subtracts (i : Instr) (s s1 : State) (m : Byte) (cin : Bool) : Prop :=
  ∃ (r : Byte) (b : Bool), r.toNat + m.toNat + cin.toNat = s.a.toNat + 256 * b.toNat ∧
    exec i s = .next { s.afterBus s1 with a := r, cc := { nzOf s.cc r with c := b } }

/-- `i` jumps to its relative target if `cond`, else goes on; nothing else changes (R280, R300). -/
def JumpsIf (i : Instr) (rel : Rel) (s : State) (cond : Bool) : Prop :=
  ∀ disp s1, readRel rel s = .next (disp, s1) →
    exec i s = .next { s.afterBus s1 with pc := if cond then reach s disp else s.pc }

/-- `v` is what PUSH stores for its operand; CC as a byte is `0b111 : H : I : N : Z : C` (R26, R168). -/
def StackRegHolds (s : State) (r : StackReg) (v : Byte) : Prop :=
  match r with
  | .a => v = s.a
  | .x => v = s.x
  | .y => v = s.y
  | .cc => v.toNat = 224 + 16 * s.cc.h.toNat + 8 * s.cc.i.toNat + 4 * s.cc.n.toNat + 2 * s.cc.z.toNat + s.cc.c.toNat

/-- The five flags a stacked byte holds (R26, R169). -/
def stackedFlags (v : Byte) : CC where
  h := decide (v.toNat / 16 % 2 = 1)
  i := decide (v.toNat / 8 % 2 = 1)
  n := decide (v.toNat / 4 % 2 = 1)
  z := decide (v.toNat / 2 % 2 = 1)
  c := decide (v.toNat % 2 = 1)

/-- The flags of a register transfer: none written, or N and Z where the parameter `LD_REGREG_SETS_NZ` says so (R164, D3). -/
def transferred (s : State) (v : Byte) : CC := if s.device.ldRegRegSetsNZ then nzOf s.cc v else s.cc

/-- `lgth` by pre-byte and op-code row, the table of R111. -/
def rowLength (p : Pre) (row : Nat) : Nat :=
  let plain := if row ∈ [0x0, 0xC, 0xD] then 3 else if row ∈ [0x4, 0x5, 0x7, 0x8, 0x9, 0xF] then 1 else 2
  match p with
  | .none => plain
  | .pdy => plain + 1
  | .piy | .pix => if row = 0x0 then 4 else 3

/-- Two results are the same but for the condition codes of the next state. -/
def SameButFlags (r r' : Res State) : Prop :=
  ∀ cc : CC, andThen r (fun t => .next { t with cc := cc }) = andThen r' (fun t => .next { t with cc := cc })

/-- Every address is RAM. -/
def State.allRam (s : State) : Prop := ∀ a : Word, s.kindAt a = some .ram

/-! ## Safe runs -/

/-- A safe run: `n` steps from `s` meet no undefined op-code and no refused access (R360: "A proof about a program must show
the fault is never reached"). -/
def SafeRun (n : Nat) (s : State) : Prop := ∃ t, Host.Core.run Sys2Proof.core n s = .next t

end Sys2Proof.Machine
end

