-- ==== Sys2Proof/Certificates/Slice0/Obligations.lean ====
section
/-! DEFINITION. The statements for the provers. `s.afterBus t` is `s` with what the byte accesses on the way to `t` changed: device
reads drawn and logged (log 6), and the writes of other agents that landed between them (log 10). `PC` in a state given to `exec`
is the address of the next instruction (R24). -/

open Sys2Proof Sys2Proof.Machine

/-! ## Encoding -/

/-- Every well-formed instruction decodes from its encoding, whatever follows it, with every operand (R90 to R105). Of two mnemonics
of one encoding the decoder answers the first (R112): the model's choice, log 26. -/
def Obligations.DecodeOfEncode : Prop :=
  ∀ (i : Instr) (rest : List Byte), i.wf = true → decode (encode i ++ rest) = .ok (i.canonical, rest)

/-- What decodes is well formed and is written by the encoder exactly as it was read: no byte sequence has two meanings, and
the decoder accepts nothing the encoder does not write (R91, R148). The clause `i.canonical = i`, that the decoder never answers
SLA, JRT, JRUGE or JRULT, is the model's choice, log 26: R112 lets either name of a shared encoding stand. -/
def Obligations.EncodeOfDecode : Prop :=
  ∀ (bs : List Byte) (i : Instr) (rest : List Byte), decode bs = .ok (i, rest) →
    i.wf = true ∧ i.canonical = i ∧ encode i ++ rest = bs

/-- Worked encodings of the spec, one for each family (R160, R180, R202, R220, R222, R244, R260, R281, R285, R305, R330, R161).
That 48 and 20 decode to SLL and JRA, not to their second names SLA and JRT, is the model's choice (R112; log 26). -/
def Obligations.SampleEncodingsDecode : Prop :=
  decode [0xC6#8, 0x06#8, 0xE5#8] = .ok (.ld .a (.mem (.long 0x06E5#16)), []) ∧
  decode [0x90#8, 0xEF#8, 0x10#8] = .ok (.ldStore (.idx1 .y 0x10#8) .y, []) ∧
  decode [0x91#8, 0xD6#8, 0x40#8] = .ok (.ld .a (.mem (.indxL .y 0x40#8)), []) ∧
  decode [0x90#8, 0x93#8] = .ok (.ldRegReg .y .x, []) ∧
  decode [0x3C#8, 0x10#8] = .ok (.inc (.mem (.short 0x10#8)), []) ∧
  decode [0xA8#8, 0x55#8] = .ok (.xor (.imm 0x55#8), []) ∧
  decode [0x1E#8, 0x10#8] = .ok (.bset 7#3 (.direct 0x10#8), []) ∧
  decode [0x92#8, 0x00#8, 0x40#8, 0xFC#8] = .ok (.btjt 0#3 (.indirect 0x40#8) 0xFC#8, []) ∧
  decode [0x90#8, 0x42#8] = .ok (.mul .y, []) ∧
  decode [0x48#8] = .ok (.sll (.reg .a), []) ∧
  decode [0x20#8, 0xFE#8] = .ok (.jra (.direct 0xFE#8), []) ∧
  decode [0x92#8, 0xCD#8, 0x40#8] = .ok (.call (.indL 0x40#8), []) ∧
  decode [0x92#8, 0x27#8, 0x89#8] = .ok (.jreq (.indirect 0x89#8), []) ∧
  decode [0x83#8] = .ok (.trap, [])

/-- Without a pre-byte the op-codes that are no instruction are the 27 of R106, and the three pre-bytes (R92 to R94). -/
def Obligations.PlainOpcodesUndefined : Prop :=
  ∀ op : Byte, opcodeMap .none op = none ↔
    op ∈ [0x31#8, 0x32#8, 0x35#8, 0x3B#8, 0x41#8, 0x45#8, 0x4B#8, 0x51#8, 0x52#8, 0x55#8, 0x5B#8, 0x61#8, 0x62#8, 0x65#8,
      0x6B#8, 0x71#8, 0x72#8, 0x75#8, 0x7B#8, 0x82#8, 0x87#8, 0x8B#8, 0x8C#8, 0x8D#8, 0xA7#8, 0xAC#8, 0xAF#8] ∨
    op ∈ [0x90#8, 0x91#8, 0x92#8]

/-- After a pre-byte exactly the op-codes of R103, R104 and R105 are defined. -/
def Obligations.PrefixedOpcodesDefined : Prop :=
  let rmw : List Nat := [0x0, 0x3, 0x4, 0x6, 0x7, 0x8, 0x9, 0xA, 0xC, 0xD, 0xE, 0xF]
  ∀ op : Byte,
    (opcodeMap .pdy op ≠ none ↔
      op = 0x42#8 ∨ (op.toNat / 16 ∈ [0x5, 0x6, 0x7] ∧ op.toNat % 16 ∈ rmw) ∨
      op ∈ [0x85#8, 0x89#8, 0x93#8, 0x94#8, 0x96#8, 0x97#8, 0x9F#8, 0xA3#8, 0xAE#8, 0xB3#8, 0xBE#8, 0xBF#8, 0xC3#8,
        0xCE#8, 0xCF#8] ∨ 0xD ≤ op.toNat / 16) ∧
    (opcodeMap .piy op ≠ none ↔
      (op.toNat / 16 = 0x6 ∧ op.toNat % 16 ∈ rmw) ∨ op ∈ [0xB3#8, 0xBE#8, 0xBF#8, 0xC3#8, 0xCE#8, 0xCF#8] ∨
      op.toNat / 16 ∈ [0xD, 0xE]) ∧
    (opcodeMap .pix op ≠ none ↔
      op.toNat / 16 ∈ [0x0, 0x1, 0x2] ∨ (op.toNat / 16 ∈ [0x3, 0x6] ∧ op.toNat % 16 ∈ rmw) ∨ op = 0xAD#8 ∨
      op.toNat / 16 ∈ [0xB, 0xC, 0xD, 0xE])

/-- The length of an instruction is determined by pre-byte and op-code alone, as R111 tabulates it: the decoder takes that many
bytes, whatever the operand bytes are. -/
def Obligations.LengthByPreByteAndOpcode : Prop :=
  ∀ (p : Pre) (op b1 b2 : Byte) (rest : List Byte), opcodeMap p op ≠ none →
    ∃ (i : Instr) (n : Nat),
      decode (p.bytes ++ op :: b1 :: b2 :: rest) = .ok (i, (b1 :: b2 :: rest).drop n) ∧
      n ≤ 2 ∧ p.bytes.length + 1 + n = rowLength p (op.toNat / 16) ∧ i.length = rowLength p (op.toNat / 16)

/-- The four second mnemonics: one encoding, one behaviour with their twins (R112, R261, R282, R303, R304). -/
def Obligations.AliasesAreTheirTwins : Prop :=
  ∀ (d : Dst) (t : Rel) (s : State),
    (encode (.sla d) = encode (.sll d) ∧ exec (.sla d) s = exec (.sll d) s) ∧
    (encode (.jrt t) = encode (.jra t) ∧ exec (.jrt t) s = exec (.jra t) s) ∧
    (encode (.jruge t) = encode (.jrnc t) ∧ exec (.jruge t) s = exec (.jrnc t) s) ∧
    (encode (.jrult t) = encode (.jrc t) ∧ exec (.jrult t) s = exec (.jrc t) s)

/-- Cycle counts: the numbers of every table and line of R406, between 2 and 12 for every instruction; and the regularities of R407:
(a) a $90 form costs one more than the form it is built on, (b) a $92 form two more than the form of the same op-code, (c) a $91
form the same as the $92 form, (d) a store one more than the load, a call three more than the jump, INC two and TNZ one more
than the load. -/
def Obligations.CycleCounts : Prop :=
  (∀ (b : Byte) (w : Word),
    (∀ f ∈ accReads, (f (.imm b)).cycles = 2 ∧
      (memForms b w).map (fun m => (f (.mem m)).cycles) = [3, 4, 3, 4, 5, 4, 5, 6, 5, 6, 6, 7, 6, 7]) ∧
    (∀ f ∈ [Instr.cp .x, Instr.ld .x], (f (.imm b)).cycles = 2 ∧
      (xForms b w).map (fun m => (f (.mem m)).cycles) = [3, 4, 3, 4, 5, 5, 6, 6, 7]) ∧
    (∀ f ∈ [Instr.cp .y, Instr.ld .y], (f (.imm b)).cycles = 3 ∧
      (yForms b w).map (fun m => (f (.mem m)).cycles) = [4, 5, 4, 5, 6, 5, 6, 6, 7]) ∧
    (memForms b w).map (fun m => (Instr.ldStore m .a).cycles) = [4, 5, 4, 5, 6, 5, 6, 7, 6, 7, 7, 8, 7, 8] ∧
    (xForms b w).map (fun m => (Instr.ldStore m .x).cycles) = [4, 5, 4, 5, 6, 6, 7, 7, 8] ∧
    (yForms b w).map (fun m => (Instr.ldStore m .y).cycles) = [5, 6, 5, 6, 7, 6, 7, 7, 8] ∧
    (∀ f ∈ rewriters, (dstForms b).map (fun d => (f d).cycles) = [3, 3, 4, 5, 5, 6, 6, 7, 7, 8, 8]) ∧
    (dstForms b).map (fun d => (Instr.tnz d).cycles) = [3, 3, 4, 4, 4, 5, 5, 6, 6, 7, 7] ∧
    (memForms b w).map (fun m => (Instr.jp m).cycles) = [2, 3, 2, 3, 4, 3, 4, 5, 4, 5, 5, 6, 5, 6] ∧
    (memForms b w).map (fun m => (Instr.call m).cycles) = [5, 6, 5, 6, 7, 6, 7, 8, 7, 8, 8, 9, 8, 9] ∧
    (∀ f ∈ relatives, (f (.direct b)).cycles = 3 ∧ (f (.indirect b)).cycles = 5) ∧
    (Instr.callr (.direct b)).cycles = 6 ∧ (Instr.callr (.indirect b)).cycles = 8 ∧
    ∀ (k : BitVec 3) (d : Byte), ∀ f ∈ [Instr.bset k, Instr.bres k, (Instr.btjt k · d), (Instr.btjf k · d)],
      (f (.direct b)).cycles = 5 ∧ (f (.indirect b)).cycles = 7) ∧
  [Instr.mul .x, .mul .y, .push .a, .push .x, .push .cc, .push .y, .pop .a, .pop .x, .pop .cc, .pop .y, .ret, .iret, .trap].map
    Instr.cycles = [11, 12, 3, 3, 3, 4, 4, 4, 4, 5, 6, 9, 10] ∧
  (∀ i ∈ [Instr.nop, .rsp, .rcf, .scf, .rim, .sim, .wfi, .halt, .ldRegReg .x .a, .ldRegReg .a .x, .ldRegReg .x .y, .ldRegS .a,
    .ldSReg .a, .ldRegS .x, .ldSReg .x], i.cycles = 2) ∧
  (∀ i ∈ [Instr.ldRegReg .y .a, .ldRegReg .a .y, .ldRegReg .y .x, .ldRegS .y, .ldSReg .y], i.cycles = 3) ∧
  (∀ i : Instr, i.wf = true → 2 ≤ i.cycles ∧ i.cycles ≤ 12) ∧
  (∀ i j : Instr, i.wf = true → j.wf = true →
    (encode i = 0x90#8 :: encode j → i.cycles = j.cycles + 1) ∧
    ∀ (op : Byte) (r r' : List Byte),
      (encode i = 0x92#8 :: op :: r → encode j = op :: r' → i.cycles = j.cycles + 2) ∧
      (encode i = 0x91#8 :: op :: r → encode j = 0x92#8 :: op :: r' → i.cycles = j.cycles)) ∧
  (∀ (m : MemForm) (r : Reg), (Instr.ldStore m r).cycles = (Instr.ld r (.mem m)).cycles + 1) ∧
  (∀ m : MemForm, (Instr.call m).cycles = (Instr.jp m).cycles + 3) ∧
  ∀ m : MemForm, (Instr.inc (.mem m)).cycles = (Instr.ld .a (.mem m)).cycles + 2 ∧
    (Instr.tnz (.mem m)).cycles = (Instr.ld .a (.mem m)).cycles + 1

/-! ## The step -/

/-- A STEP RUNS THE DECODED INSTRUCTION. On the core's turn, with no interrupt to accept, if the `n` bytes at PC decode to `i`, are
plain storage and no other agent writes them in this turn, the step is `exec i` with PC past them (R24, R91), after the `n` gaps
of the fetch, and the cycles of `i` are counted (R405; log 23). That the fetch reads what memory holds now is decision D20
(log 21), that addresses wrap is D8 (log 16), where other agents write is log 10: the model's choices. A fetch from a device
region, whose bytes are whatever is drawn, is not in this statement. -/
def Obligations.StepRunsDecodedInstruction : Prop :=
  ∀ (s t : State) (g : Gaps) (n : Nat) (i : Instr), SharedTurn s g t → Undisturbed t → t.runState = .running →
    t.plainRange t.pc n → (∀ k < n, Spared t (t.pc + BitVec.ofNat 16 k)) → decode (t.bytesAt t.pc n) = .ok (i, []) →
    step s =
      match exec i { t.settled n with pc := t.pc + BitVec.ofNat 16 n } with
      | .next u => .next { u with cycles := u.cycles + i.cycles, gaps := [] }
      | .fault f => .fault f
      | .refused e => .refused e

/-- An undefined (pre-byte, op-code) pair at PC stops the run with the fault that names it: the spec's own decisions D4 and D5
(R108, R360; log 8). -/
def Obligations.IllegalOpcodeFaults : Prop :=
  ∀ (s t : State) (n : Nat) (p : Pre) (op : Byte), CoreTurn s t → Undisturbed t → t.runState = .running →
    t.plainRange t.pc n → decode (t.bytesAt t.pc n) = .error (.illegalOpcode p op) →
    step s = .fault (.illegalOpcode (preByte? p) op)

/-- Nothing else faults: no instruction does; a step does only on the core's turn, running, for an undefined (pre-byte, op-code)
pair, which the fault names (R350, R360). -/
def Obligations.OnlyIllegalOpcodesFault : Prop :=
  (∀ (i : Instr) (s : State) (f : Fault), exec i s ≠ .fault f) ∧
  ∀ (s : State) (f : Fault), step s = .fault f →
    s.runState = .running ∧ (s.schedule = [] ∨ ∃ g r rest, s.schedule = .core g r :: rest) ∧
    ∃ (p : Pre) (op : Byte), opcodeMap p op = none ∧ f = .illegalOpcode (preByte? p) op

/-- Where every address is RAM, every instruction completes, in every state, whatever other agents write meanwhile. -/
def Obligations.ExecCompletesOnRam : Prop :=
  ∀ (i : Instr) (s : State), s.allRam → ∃ t, exec i s = .next t

/-- The entry of a hardware interrupt: on the core's turn with I clear, the source selected takes the five pushes, I is set after
CC is stacked, PC is loaded through the vector, the latch is cleared where `IRQ_ACK` is `on_entry`, and the core runs
(R353, R355, R358, R370, R372). From HALT the 4096 restart cycles are counted. The model's choices in it: acceptance at this very
boundary, and the order of the sources, are D15 and D25 (log 12); the address stacked from WAIT and HALT is D19 (log 13); the
vector's byte order is D2 (log 9); the cycles of the entry itself are none (log 23). -/
def Obligations.InterruptEntry : Prop :=
  ∀ (s t : State) (k : Nat) (src : IrqSource), CoreTurn s t → t.cc.i = false → Selected t k src → t.stackIsRam →
    t.plainAt src.vector → t.plainAt (src.vector + 1) →
    ∃ u, step s = .next u ∧ Pushed t u t.context ∧
      u = { t with
            mem := u.mem, sp := u.sp
            cc := { t.cc with i := true }
            pc := u.wordAt src.vector
            pending := if src.ack = .onEntry then t.pending.set k false else t.pending
            runState := .running
            cycles := t.cycles + if t.runState = .halted then 4096 else 0 }

/-- With I clear and some source to take, the step takes one: the core leaves WAIT or HALT, masks interrupts and goes to the
address in the vector of a source that was selected (R353, R358, R370, R372). The model's choices in it: acceptance at this very
boundary, and the order, are D15 and D25 (log 12); the byte order of the vector in `wordAt` is D2 (log 9). -/
def Obligations.PendingRequestIsTaken : Prop :=
  ∀ s t : State, CoreTurn s t → t.cc.i = false → RanksAll t.device → (∃ k src, Takeable t k src) → t.stackIsRam →
    (∀ (k : Nat) (src : IrqSource), t.device.sources[k]? = some src → t.plainAt src.vector ∧ t.plainAt (src.vector + 1)) →
    ∃ u k src, step s = .next u ∧ Selected t k src ∧ u.pc = u.wordAt src.vector ∧ u.cc.i = true ∧ u.runState = .running

/-- In WAIT and HALT, with nothing to take, the core does nothing (R331, R332, R374). `Inv t` leaves out a core that waits with I
set, which no run reaches (log 30). -/
def Obligations.LowPowerWaits : Prop :=
  ∀ s t : State, CoreTurn s t → Inv t → Undisturbed t → t.runState ≠ .running → step s = .next t

/-- A request sets its latch whatever I is; a second one while it is set is lost (R40, R352). In HALT this is so for the sources
of `HALT_WAKE_SET` (R372). -/
def Obligations.RequestIsLatched : Prop :=
  ∀ (s : State) (k : Nat) (rest : List Turn), s.schedule = .env (.request k) :: rest →
    (s.runState = .halted → ∃ src, s.device.sources[k]? = some src ∧ src.wakesHalt = true) →
    step s = .next { s with schedule := rest, pending := s.pending.set k true } ∧
    (s.pending[k]? = some true → step s = .next { s with schedule := rest })

/-- The other inputs of the environment: the line takes its level; a latch is cleared by the device, of any source (the model's
choice, log 37); a bus agent stores one byte of RAM, and nothing anywhere else (the model's choice, log 36) (R6, R315, R363).
Between two byte accesses of a turn other agents write in the same way, the last write to an address the one that counts
(R74, D11; log 10). -/
def Obligations.EnvironmentInputs : Prop :=
  (∀ (s : State) (rest : List Turn),
    (∀ level, s.schedule = .env (.line level) :: rest →
      step s = .next { s with schedule := rest, extIntLine := level }) ∧
    (∀ k, s.schedule = .env (.withdraw k) :: rest → s.runState ≠ .halted →
      step s = .next { s with schedule := rest, pending := s.pending.set k false }) ∧
    (∀ a v, s.schedule = .env (.busWrite a v) :: rest → s.runState ≠ .halted →
      ∃ t, step s = .next t ∧ t = { s with schedule := rest, mem := t.mem } ∧
        (s.kindAt a = some .ram → StoredAt s t a v) ∧ (s.kindAt a ≠ some .ram → t.mem = s.mem))) ∧
  ∀ s : State, (s.gaps = [] → s.settle = s) ∧
    ∀ ws g, s.gaps = ws :: g → s.settle = { s with mem := s.settle.mem, gaps := g } ∧
      ∀ b : Word, s.settle.byteAt b =
        if s.kindAt b = some .ram then (lastWrite ws b).getD (s.byteAt b) else s.byteAt b

/-- In HALT the internal peripherals are stopped: they raise no request, clear no latch and write no memory; and while nothing
wakes the core, its watchdog cannot reset it (R332, R372, R373; log 11). -/
def Obligations.HaltStopsPeripherals : Prop :=
  ∀ (s : State) (rest : List Turn), s.runState = .halted →
    (∀ e : Input, s.schedule = .env e :: rest →
      ((∃ k, e = .request k ∧ ∀ src, s.device.sources[k]? = some src → src.wakesHalt = false) ∨ (∃ k, e = .withdraw k) ∨
        ∃ a v, e = .busWrite a v) →
      step s = .next { s with schedule := rest }) ∧
    ∀ (g : Gaps) (r : Reset), s.schedule = .core g [r] :: rest → r.origin = .watchdog → Undisturbed s →
      step s = .next { s with schedule := rest, gaps := [], cut := false }

/-- The reset sequence, after as many byte accesses of the turn it cuts short as there are gaps (`u0`), none where it comes at the
boundary: SP at its upper value, I set, no latch, running, PC from the reset vector (D2), every register and flag the spec
leaves unspecified as drawn; a drawn RAM byte takes its drawn value, the last one drawn for it, every other byte is as the accesses
made left it, and the device accesses made stay made (R359, R390 to R393, D13, D18; log 22). From HALT the 4096 restart cycles are
counted (R373). Excluded is a watchdog while the oscillator is stopped (log 11). -/
def Obligations.ResetTakesEffect : Prop :=
  ∀ (s u0 : State) (rest : List Turn) (g : Gaps) (r : Reset), s.schedule = .core g [r] :: rest → r.gaps = [] →
    (r.origin = .watchdog → s.runState ≠ .halted ∨ (acceptedSource s).isSome = true) →
    s.plainAt s.device.resetVector → s.plainAt (s.device.resetVector + 1) →
    (g = [] → ∃ v, coreTurn { s with schedule := rest, gaps := g, cut := true } = .next v ∧ v.mem = s.mem ∧
      v.draws = s.draws ∧ v.events = s.events) ∧
    (coreTurn { s with schedule := rest, gaps := g, cut := true } = .next u0 →
      ∃ u, step s = .next u ∧
        (∀ b : Word, u.byteAt b =
          if s.kindAt b = some .ram then (lastWrite r.draw.ram b).getD (u0.byteAt b) else u0.byteAt b) ∧
        u = { s with
              a := r.draw.a, x := r.draw.x, y := r.draw.y, pc := u.wordAt s.device.resetVector, sp := 0b111111#6
              cc := { h := r.draw.h, i := true, n := r.draw.n, z := r.draw.z, c := r.draw.c }
              mem := u.mem, draws := u0.draws, events := u0.events, gaps := [], cut := false
              runState := .running
              pending := List.replicate s.pending.length false
              schedule := rest
              cycles := s.cycles + if s.runState = .halted then 4096 else 0 })

/-- What R29, R43 and R391 give of the state after reset. Of it, that no latch is set is decision D13 (log 18) and that PC is the
word at the reset vector is D2 (log 9). (Its other values are the model's: log 1 to 5, 20, 27, 34.) -/
def Obligations.ResetState : Prop :=
  State.reset.sp = 0b111111#6 ∧ State.reset.spAddr = State.reset.device.spPreset ++ 0b111111#6 ∧
  State.reset.cc.i = true ∧ State.reset.cc.toByte.extractLsb' 5 3 = 0b111#3 ∧ State.reset.runState = .running ∧
  (∀ b ∈ State.reset.pending, b = false) ∧ State.reset.pc = State.reset.wordAt State.reset.device.resetVector

/-! ## Invariants of every step -/

/-- Every step keeps the invariant: memory in its canonical form, one latch for each source, WAIT or HALT only with I clear
(R40, R331, R332, R374), and nothing of a turn left when it is over (log 10). -/
def Obligations.StepKeepsInv : Prop := ∀ s t : State, Inv s → step s = .next t → Inv t

/-- The state after reset has the invariant. -/
def Obligations.ResetInv : Prop := Inv State.reset

/-- A step takes one turn off the schedule and changes no parameter of the device (R5: fixed for one device; log 1, log 10). -/
def Obligations.StepKeepsParameters : Prop :=
  ∀ s t : State, step s = .next t → t.device = s.device ∧ t.schedule = s.schedule.tail

/-! ## Which instruction writes what -/

/-- The flag writers of R38: an instruction whose row is empty in a flag's column leaves that flag alone. The row of the register
transfers holds with `LD_REGREG_SETS_NZ` false (D3; log 14). -/
def Obligations.FlagWriters : Prop :=
  ∀ (i : Instr) (s t : State), s.device.ldRegRegSetsNZ = false → exec i s = .next t →
    (i.changesH = false → t.cc.h = s.cc.h) ∧ (i.changesI = false → t.cc.i = s.cc.i) ∧
    (i.changesNZ = false → t.cc.n = s.cc.n ∧ t.cc.z = s.cc.z) ∧ (i.changesC = false → t.cc.c = s.cc.c)

/-- No instruction writes A, X or Y but those that have it as their destination, MUL, and IRET for A and X (R21, R22). -/
def Obligations.RegisterWriters : Prop :=
  ∀ (i : Instr) (r : Reg) (s t : State), exec i s = .next t → i.changesReg r = false → t.reg r = s.reg r

/-- SP after every instruction that completes: PUSH 1 down, POP 1 up, CALL and CALLR 2 down, RET 2 up, TRAP 5 down, IRET 5 up, all
mod 64, RSP and LD S set it, nothing else changes it (R27, R30, R31, R33, R170). -/
def Obligations.StackPointerMoves : Prop :=
  ∀ (i : Instr) (s t : State), exec i s = .next t → t.sp = i.spAfter s

/-- No instruction but a jump, call, return, BTJT, BTJF or TRAP changes PC after its bytes are fetched; JRF does not (R23, R24). -/
def Obligations.ProgramCounterWriters : Prop :=
  ∀ (i : Instr) (s t : State), exec i s = .next t → i.changesPc = false → t.pc = s.pc

/-- Every byte of memory is unchanged by an instruction that has no memory destination and does not push (R67), but for what other
agents write meanwhile (R74). -/
def Obligations.MemoryWriters : Prop :=
  ∀ (i : Instr) (s t : State), exec i s = .next t → i.storesMem = false → ∀ b : Word, Spared s b → t.byteAt b = s.byteAt b

/-- No instruction touches the interrupt latches, the interrupt line, the device's parameters or what is to come; only WFI and HALT
change the run state (R40, R41, R315). It uses up gaps from the front, and once a reset has cut the turn short it accesses nothing
(R74, R359; log 10, log 22). -/
def Obligations.ExecLeavesEnvironment : Prop :=
  ∀ (i : Instr) (s t : State), exec i s = .next t →
    t.pending = s.pending ∧ t.extIntLine = s.extIntLine ∧ t.device = s.device ∧ t.schedule = s.schedule ∧
    t.cycles = s.cycles ∧ (t.runState = if i = .wfi then .waiting else if i = .halt then .halted else s.runState) ∧
    t.cut = s.cut ∧ (∃ n, t.gaps = s.gaps.drop n) ∧
    (s.frozen = true → t.mem = s.mem ∧ t.gaps = s.gaps ∧ t.draws = s.draws ∧ t.events = s.events)

/-- The flag readers of R39: an instruction that does not read a flag does the same whatever that flag is, to every register, to
memory and to the rest of the state (its own condition codes apart). -/
def Obligations.FlagReaders : Prop :=
  ∀ (i : Instr) (s : State) (cc : CC),
    (i.readsH = true → cc.h = s.cc.h) → (i.readsI = true → cc.i = s.cc.i) → (i.readsN = true → cc.n = s.cc.n) →
    (i.readsZ = true → cc.z = s.cc.z) → (i.readsC = true → cc.c = s.cc.c) →
    SameButFlags (exec i s) (exec i { s with cc := cc })

/-- R44: TRAP, the interrupt entry and IRET neither read nor write Y. Whatever Y is, they do the same, and leave it. -/
def Obligations.YIsNeverStacked : Prop :=
  ∀ (s : State) (y : Byte),
    exec .trap { s with y := y } = andThen (exec .trap s) (fun t => .next { t with y := y }) ∧
    exec .iret { s with y := y } = andThen (exec .iret s) (fun t => .next { t with y := y }) ∧
    (∀ k src, enterInterrupt k src { s with y := y } =
      andThen (enterInterrupt k src s) (fun t => .next { t with y := y })) ∧
    ∀ t, (exec .trap s = .next t ∨ exec .iret s = .next t ∨ ∃ k src, enterInterrupt k src s = .next t) → t.y = s.y

/-! ## Memory and operands -/

/-- An access by the kind of its region, seen through LD A,long and LD long,A: ROM, RAM and EEPROM read as plain storage, a device
region answers whatever value is drawn and logs the access, an address in no region and a write to ROM or EEPROM are
refused (R69, R71; D10 and D23 are the spec's own decisions, log 6 and log 7). What other agents write before the access lands
first (R74; log 10); once a reset has cut the turn short there is no access (R359; log 22). -/
def Obligations.AccessByRegionKind : Prop :=
  ∀ (a : Word) (s : State),
    (s.frozen = false →
      (s.plainAt a → exec (.ld .a (.mem (.long a))) s =
        .next { s.settle with a := s.settle.byteAt a, cc := nzOf s.cc (s.settle.byteAt a) }) ∧
      (s.kindAt a = some .device → ∃ v, exec (.ld .a (.mem (.long a))) s =
        .next { s.settle with a := v, cc := nzOf s.cc v, draws := s.draws + 1, events := .read a v :: s.events }) ∧
      (s.kindAt a = none → exec (.ld .a (.mem (.long a))) s = .refused (.accessRefused .read a)) ∧
      (s.kindAt a = some .ram → ∃ t, exec (.ldStore (.long a) .a) s = .next t ∧ StoredAt s.settle t a s.a ∧
        t = { s.settle with mem := t.mem, cc := nzOf s.cc s.a }) ∧
      (s.kindAt a = some .device →
        exec (.ldStore (.long a) .a) s = .next { s.settle with cc := nzOf s.cc s.a, events := .write a s.a :: s.events }) ∧
      ((s.kindAt a = some .rom ∨ s.kindAt a = some .eeprom ∨ s.kindAt a = none) →
        exec (.ldStore (.long a) .a) s = .refused (.accessRefused .write a))) ∧
    (s.frozen = true →
      (∃ v, exec (.ld .a (.mem (.long a))) s = .next { s with a := v, cc := nzOf s.cc v }) ∧
      exec (.ldStore (.long a) .a) s = .next { s with cc := nzOf s.cc s.a })

/-- `EA(mode)`, the table of R149: sums of unsigned bytes reach 01FE, long sums wrap mod 2^16 (D6), a word pointer is read most
significant byte first, its second byte at the next address (D7); the index is the one before any memory access. Then the
operands: an immediate is its byte, a memory operand the byte at EA, a displacement the byte or the byte pointed to. -/
def Obligations.EffectiveAddresses : Prop :=
  ∀ (s : State),
    (∀ b, ∃ ea, effAddr (.short b) s = .next (ea, s) ∧ ea.toNat = b.toNat) ∧
    (∀ w, effAddr (.long w) s = .next (w, s)) ∧
    (∀ n, ∃ ea, effAddr (.idx0 n) s = .next (ea, s) ∧ ea.toNat = (s.index n).toNat) ∧
    (∀ n b, ∃ ea, effAddr (.idx1 n b) s = .next (ea, s) ∧ ea.toNat = b.toNat + (s.index n).toNat) ∧
    (∀ n w, ∃ ea, effAddr (.idx2 n w) s = .next (ea, s) ∧ ea.toNat = (w.toNat + (s.index n).toNat) % 65536) ∧
    (∀ b v t, readByte s (BitVec.ofNat 16 b.toNat) = .next (v, t) →
      (∃ ea, effAddr (.indS b) s = .next (ea, t) ∧ bitAddr (.indirect b) s = .next (ea, t) ∧ ea.toNat = v.toNat) ∧
      (∀ n, ∃ ea, effAddr (.indxS n b) s = .next (ea, t) ∧ ea.toNat = v.toNat + (s.index n).toNat) ∧
      readRel (.indirect b) s = .next (v, t)) ∧
    (∀ b ms t ls u, readByte s (BitVec.ofNat 16 b.toNat) = .next (ms, t) →
      readByte t (BitVec.ofNat 16 (b.toNat + 1)) = .next (ls, u) →
      (∃ ea, effAddr (.indL b) s = .next (ea, u) ∧ ea.toNat = 256 * ms.toNat + ls.toNat) ∧
      (∀ n, ∃ ea, effAddr (.indxL n b) s = .next (ea, u) ∧
        ea.toNat = (256 * ms.toNat + ls.toNat + (s.index n).toNat) % 65536)) ∧
    (∀ b, ∃ ea, bitAddr (.direct b) s = .next (ea, s) ∧ ea.toNat = b.toNat) ∧
    (∀ v, readSrc (.imm v) s = .next (v, s) ∧ readRel (.direct v) s = .next (v, s)) ∧
    (∀ m ea t, effAddr m s = .next (ea, t) → readSrc (.mem m) s = readByte t ea ∧ readDst (.mem m) s = readByte t ea)

/-- Two memories in canonical form that read alike are one value: equal contents are equal data. The canonical form is the
model's (log 3). -/
def Obligations.CanonicalMemoryIsUnique : Prop :=
  ∀ m m' : Memory, m.wf → m'.wf → (∀ a < 65536, m.read a = m'.read a) → m = m'

/-! ## The stack -/

/-- The stack is last in, first out: up to 64 bytes pushed come back in reverse order, and SP is where it was (R30, R31), where
no other agent writes meanwhile. That POP wraps as PUSH does is decision D9 (log 17). -/
def Obligations.StackIsLifo : Prop :=
  ∀ (s : State) (vs : List Byte), s.quiet → s.stackIsRam → vs.length ≤ 64 →
    ∃ t, pushAll s vs = .next t ∧ popAll t vs.length = .next (vs.reverse, { t with sp := s.sp })

/-- The stack wraps in its 64 bytes, silently: the 65th push overwrites the first byte and no other, and SP is one below where
it was (R32), where no other agent writes meanwhile. -/
def Obligations.StackWraps : Prop :=
  ∀ (s : State) (vs : List Byte) (v : Byte), s.quiet → s.stackIsRam → vs.length = 64 →
    ∃ t, pushAll s (vs ++ [v]) = .next t ∧ t.sp = s.sp - 1 ∧ t.byteAt (s.slot 0) = v ∧
      (∀ k, 1 ≤ k → k < 64 → t.byteAt (s.slot k) = vs.getD k 0#8) ∧
      ∀ b : Word, (∀ k < 64, b ≠ s.slot k) → t.byteAt b = s.byteAt b

/-- A call, a relative call and a trap come back: RET after CALL or CALLR, IRET after TRAP, restore PC and SP, and IRET also A, X and
the flags the trap stacked (R285, R286, R288, R330, R333, R361), where no other agent writes meanwhile. -/
def Obligations.CallsAndTrapReturn : Prop :=
  ∀ (s t : State), s.quiet → s.stackIsRam →
    (∀ m, exec (.call m) s = .next t → exec .ret t = .next { t with pc := s.pc, sp := s.sp }) ∧
    (∀ rel, exec (.callr rel) s = .next t → exec .ret t = .next { t with pc := s.pc, sp := s.sp }) ∧
    (exec .trap s = .next t → exec .iret t = .next { t with pc := s.pc, sp := s.sp, cc := s.cc })

/-- An interrupt is transparent: IRET right after its entry restores PC, SP, CC, A and X as they were when it was accepted, and
leaves Y (R354, R355, R361). The model's choices in it: acceptance at this boundary is D15 and D25 (log 12); in WAIT and HALT the
address stacked is the next instruction's, D19 (log 13). -/
def Obligations.InterruptThenIret : Prop :=
  ∀ (s t u : State) (k : Nat) (src : IrqSource), CoreTurn s t → t.cc.i = false → Selected t k src → t.stackIsRam →
    step s = .next u →
    exec .iret u = .next { u with pc := t.pc, sp := t.sp, cc := t.cc, a := t.a, x := t.x, y := t.y }

/-! ## What each instruction does

Every one of these ends in `exec i s = .next …` with the whole next state: what is not named in it is unchanged. -/

/-- ADD and ADC: A takes the sum mod 256, C its carry out of bit 7, H the carry out of bit 3 (R34, R37, R240, R241). -/
def Obligations.AddResult : Prop :=
  ∀ (src : Src) (s s1 : State) (m : Byte), readSrc src s = .next (m, s1) →
    Sums (.add src) s s1 m false ∧ Sums (.adc src) s s1 m s.cc.c

/-- SUB and SBC: A takes the difference mod 256, C the borrow; H stays (R37, R242, R243). -/
def Obligations.SubtractResult : Prop :=
  ∀ (src : Src) (s s1 : State) (m : Byte), readSrc src s = .next (m, s1) →
    Subtracts (.sub src) s s1 m false ∧ Subtracts (.sbc src) s s1 m s.cc.c

/-- AND, OR, XOR: bit by bit into A; BCP the flags of AND, A stays. N and Z follow the result; H, I and C stay (R185, R200 to
R202). -/
def Obligations.LogicResult : Prop :=
  ∀ (src : Src) (s s1 : State) (m : Byte), readSrc src s = .next (m, s1) →
    (∃ r : Byte, (∀ k < 8, r.getLsbD k = (s.a.getLsbD k && m.getLsbD k)) ∧
      exec (.and src) s = .next { s.afterBus s1 with a := r, cc := nzOf s.cc r } ∧
      exec (.bcp src) s = .next { s.afterBus s1 with cc := nzOf s.cc r }) ∧
    (∃ r : Byte, (∀ k < 8, r.getLsbD k = (s.a.getLsbD k || m.getLsbD k)) ∧
      exec (.or src) s = .next { s.afterBus s1 with a := r, cc := nzOf s.cc r }) ∧
    (∃ r : Byte, (∀ k < 8, r.getLsbD k = (s.a.getLsbD k ^^ m.getLsbD k)) ∧
      exec (.xor src) s = .next { s.afterBus s1 with a := r, cc := nzOf s.cc r })

/-- CP: N, Z and C of `reg - M`, the register stays (R182, R183). TNZ: N and Z of the operand, nothing is written back (R184). -/
def Obligations.CompareAndTestResult : Prop :=
  (∀ (r : Reg) (src : Src) (s s1 : State) (m : Byte), readSrc src s = .next (m, s1) →
    ∃ (d : Byte) (b : Bool), d.toNat + m.toNat = (s.reg r).toNat + 256 * b.toNat ∧
      exec (.cp r src) s = .next { s.afterBus s1 with cc := { nzOf s.cc d with c := b } }) ∧
  ∀ (dst : Dst) (s s1 : State) (v : Byte), readDst dst s = .next (v, s1) →
    exec (.tnz dst) s = .next { s.afterBus s1 with cc := nzOf s.cc v }

/-- After CP the branches read the unsigned relation of register and operand: JREQ =, JRNE ≠, JRULT and JRC <, JRUGE and JRNC ≥,
JRUGT >, JRULE ≤ (R182, R303, R304, R313, R314). -/
def Obligations.UnsignedBranches : Prop :=
  ∀ (r : Reg) (src : Src) (rel : Rel) (s s1 t : State) (m : Byte), readSrc src s = .next (m, s1) →
    exec (.cp r src) s = .next t →
    JumpsIf (.jreq rel) rel t (decide ((s.reg r).toNat = m.toNat)) ∧
    JumpsIf (.jrne rel) rel t (decide ((s.reg r).toNat ≠ m.toNat)) ∧
    JumpsIf (.jrult rel) rel t (decide ((s.reg r).toNat < m.toNat)) ∧
    JumpsIf (.jrc rel) rel t (decide ((s.reg r).toNat < m.toNat)) ∧
    JumpsIf (.jruge rel) rel t (decide ((s.reg r).toNat ≥ m.toNat)) ∧
    JumpsIf (.jrnc rel) rel t (decide ((s.reg r).toNat ≥ m.toNat)) ∧
    JumpsIf (.jrugt rel) rel t (decide ((s.reg r).toNat > m.toNat)) ∧
    JumpsIf (.jrule rel) rel t (decide ((s.reg r).toNat ≤ m.toNat))

/-- LD reg,src: the register takes the operand, read at the old index; N and Z follow it (R160, R161, R404). -/
def Obligations.LoadResult : Prop :=
  ∀ (r : Reg) (src : Src) (s s1 : State) (m : Byte), readSrc src s = .next (m, s1) →
    exec (.ld r src) s = .next { (s.afterBus s1).setReg r m with cc := nzOf s.cc m }

/-- LD mem,reg: one byte stored at the effective address; N and Z follow it (R162, R163). -/
def Obligations.StoreResult : Prop :=
  ∀ (m : MemForm) (r : Reg) (s s1 : State) (ea : Word), effAddr m s = .next (ea, s1) →
    StoresByte (.ldStore m r) s { s.afterBus s1 with cc := nzOf s.cc (s.reg r) } ea (s.reg r)

/-- Transfers: LD reg,reg copies; LD S,reg takes bits 5..0; LD reg,S reads SP_PRESET[1:0] : SP[5:0]. No flag is written, by decision
D3, which the parameter `LD_REGREG_SETS_NZ` turns (R27, R164 to R166; log 14). -/
def Obligations.TransferResult : Prop :=
  ∀ (d q : Reg) (s : State),
    exec (.ldRegReg d q) s = .next { s.setReg d (s.reg q) with cc := transferred s (s.reg q) } ∧
    (∃ p : BitVec 6, p.toNat = (s.reg q).toNat % 64 ∧
      exec (.ldSReg q) s = .next { s with sp := p, cc := transferred s (s.reg q) }) ∧
    ∃ v : Byte, v.toNat = 64 * (s.device.spPreset.toNat % 4) + s.sp.toNat ∧
      exec (.ldRegS d) s = .next { s.setReg d v with cc := transferred s v }

/-- CLR: 00, N cleared, Z set, H, I and C as they were. Whether a memory operand is read first is the parameter `CLR_READS_DEST`: a
device region sees that read, and an address in no region is refused as a read (R67, R167, D17; log 20), unless a reset has
cut the turn short. -/
def Obligations.ClearResult : Prop :=
  (∀ (q : Reg) (s : State),
    exec (.clr (.reg q)) s = .next { s.setReg q 0x00#8 with cc := { s.cc with n := false, z := true } }) ∧
  ∀ (m : MemForm) (s s1 : State) (ea : Word), effAddr m s = .next (ea, s1) →
    (s.device.clrReadsDest = false →
      StoresByte (.clr (.mem m)) s { s.afterBus s1 with cc := { s.cc with n := false, z := true } } ea 0x00#8) ∧
    (s.device.clrReadsDest = true →
      (∀ v s2, readByte s1 ea = .next (v, s2) →
        StoresByte (.clr (.mem m)) s { s.afterBus s2 with cc := { s.cc with n := false, z := true } } ea 0x00#8) ∧
      (s1.frozen = false → s.kindAt ea = none → exec (.clr (.mem m)) s = .refused (.accessRefused .read ea)))

/-- INC and DEC: one more or one less mod 256; N and Z follow the result; C and H stay (R180, R181). -/
def Obligations.IncrementDecrementResult : Prop :=
  ∀ (dst : Dst) (s : State) (v : Byte),
    (∃ r : Byte, r.toNat = (v.toNat + 1) % 256 ∧ Rewrites (.inc dst) dst s v r (nzOf s.cc r)) ∧
    ∃ r : Byte, r.toNat = (v.toNat + 255) % 256 ∧ Rewrites (.dec dst) dst s v r (nzOf s.cc r)

/-- CPL: `FF - v`, C set. NEG: `0 - v` mod 256, C cleared exactly when the result is zero (R203, R204). -/
def Obligations.ComplementResult : Prop :=
  ∀ (dst : Dst) (s : State) (v : Byte),
    (∃ r : Byte, r.toNat = 255 - v.toNat ∧ Rewrites (.cpl dst) dst s v r { nzOf s.cc r with c := true }) ∧
    ∃ r : Byte, r.toNat = (256 - v.toNat) % 256 ∧
      Rewrites (.neg dst) dst s v r { nzOf s.cc r with c := decide (r.toNat ≠ 0) }

/-- SLL and SLA double, C the bit that leaves; SRL halves unsigned and clears N; SRA halves signed, rounding down, C the old bit 0
(R260 to R263). -/
def Obligations.ShiftResult : Prop :=
  ∀ (dst : Dst) (s : State) (v : Byte),
    (∃ (r : Byte) (c : Bool), r.toNat + 256 * c.toNat = 2 * v.toNat ∧
      Rewrites (.sll dst) dst s v r { nzOf s.cc r with c := c } ∧
      Rewrites (.sla dst) dst s v r { nzOf s.cc r with c := c }) ∧
    (∃ (r : Byte) (c : Bool), 2 * r.toNat + c.toNat = v.toNat ∧
      Rewrites (.srl dst) dst s v r { s.cc with n := false, z := decide (r.toNat = 0), c := c }) ∧
    ∃ (r : Byte) (c : Bool), 2 * r.toInt + (c.toNat : Int) = v.toInt ∧
      Rewrites (.sra dst) dst s v r { nzOf s.cc r with c := c }

/-- RLC and RRC rotate the nine bits C and operand by one; SWAP exchanges the nibbles, C stays (R264 to R266). -/
def Obligations.RotateResult : Prop :=
  ∀ (dst : Dst) (s : State) (v : Byte),
    (∃ (r : Byte) (c : Bool), r.toNat + 256 * c.toNat = 2 * v.toNat + s.cc.c.toNat ∧
      Rewrites (.rlc dst) dst s v r { nzOf s.cc r with c := c }) ∧
    (∃ (r : Byte) (c : Bool), 2 * r.toNat + c.toNat = v.toNat + 256 * s.cc.c.toNat ∧
      Rewrites (.rrc dst) dst s v r { nzOf s.cc r with c := c }) ∧
    ∃ r : Byte, r.toNat = 16 * (v.toNat % 16) + v.toNat / 16 ∧ Rewrites (.swap dst) dst s v r (nzOf s.cc r)

/-- MUL: the index register and A take the high and low byte of the unsigned product; H and C are cleared; N, Z, I and the other
index register are not affected, even when the product is zero; 1 byte and 11 cycles with X, 2 and 12 with Y (R244). -/
def Obligations.MultiplyResult : Prop :=
  (∀ s : State, ∃ hi lo : Byte, 256 * hi.toNat + lo.toNat = s.x.toNat * s.a.toNat ∧
    exec (.mul .x) s = .next { s with x := hi, a := lo, cc := { s.cc with h := false, c := false } }) ∧
  (∀ s : State, ∃ hi lo : Byte, 256 * hi.toNat + lo.toNat = s.y.toNat * s.a.toNat ∧
    exec (.mul .y) s = .next { s with y := hi, a := lo, cc := { s.cc with h := false, c := false } }) ∧
  encode (.mul .x) = [0x42#8] ∧ (Instr.mul .x).cycles = 11 ∧
  encode (.mul .y) = [0x90#8, 0x42#8] ∧ (Instr.mul .y).cycles = 12

/-- BSET and BRES: the byte at the effective address with that one bit set or cleared, written back in every case; no flag and no
register changes (R67, R220, R221 with the complement of C12; log 29). -/
def Obligations.BitChangeResult : Prop :=
  ∀ (pos : BitVec 3) (b : BitForm) (s s1 s2 : State) (ea : Word) (v : Byte), bitAddr b s = .next (ea, s1) →
    readByte s1 ea = .next (v, s2) →
    (∃ r : Byte, (∀ k < 8, r.getLsbD k = (decide (k = pos.toNat) || v.getLsbD k)) ∧
      StoresByte (.bset pos b) s (s.afterBus s2) ea r) ∧
    ∃ r : Byte, (∀ k < 8, r.getLsbD k = (!decide (k = pos.toNat) && v.getLsbD k)) ∧
      StoresByte (.bres pos b) s (s.afterBus s2) ea r

/-- BTJT and BTJF: C takes the tested bit, jump or not; the jump is taken on 1, or on 0; the base is the next instruction in both
lengths (R222, R223, C13; log 29). -/
def Obligations.BitTestResult : Prop :=
  ∀ (pos : BitVec 3) (b : BitForm) (disp : Byte) (s s1 s2 : State) (ea : Word) (v : Byte),
    bitAddr b s = .next (ea, s1) → readByte s1 ea = .next (v, s2) →
    exec (.btjt pos b disp) s = .next
      { s.afterBus s2 with
        cc := { s.cc with c := v.getLsbD pos.toNat }
        pc := if v.getLsbD pos.toNat then reach s disp else s.pc } ∧
    exec (.btjf pos b disp) s = .next
      { s.afterBus s2 with
        cc := { s.cc with c := v.getLsbD pos.toNat }
        pc := if v.getLsbD pos.toNat then s.pc else reach s disp }

/-- The relative jumps, each with the condition of its rule; both forms read their displacement, taken or not (R280 to R283, R300
to R316; the read when not taken is D12, log 19). -/
def Obligations.RelativeJumpResult : Prop :=
  ∀ (rel : Rel) (s : State),
    JumpsIf (.jra rel) rel s true ∧ JumpsIf (.jrt rel) rel s true ∧ JumpsIf (.jrf rel) rel s false ∧
    JumpsIf (.jrc rel) rel s s.cc.c ∧ JumpsIf (.jrnc rel) rel s (!s.cc.c) ∧
    JumpsIf (.jrult rel) rel s s.cc.c ∧ JumpsIf (.jruge rel) rel s (!s.cc.c) ∧
    JumpsIf (.jreq rel) rel s s.cc.z ∧ JumpsIf (.jrne rel) rel s (!s.cc.z) ∧
    JumpsIf (.jrmi rel) rel s s.cc.n ∧ JumpsIf (.jrpl rel) rel s (!s.cc.n) ∧
    JumpsIf (.jrh rel) rel s s.cc.h ∧ JumpsIf (.jrnh rel) rel s (!s.cc.h) ∧
    JumpsIf (.jrm rel) rel s s.cc.i ∧ JumpsIf (.jrnm rel) rel s (!s.cc.i) ∧
    JumpsIf (.jrugt rel) rel s (!(s.cc.c || s.cc.z)) ∧ JumpsIf (.jrule rel) rel s (s.cc.c || s.cc.z) ∧
    JumpsIf (.jrih rel) rel s s.extIntLine ∧ JumpsIf (.jril rel) rel s (!s.extIntLine)

/-- JP: PC takes the effective address. CALL and CALLR: the return address is pushed, low byte first, and PC takes the target, found
before the pushes. RET: PC from the two bytes popped, the high byte first (R150, R284 to R286, R288). The pushed bytes are stated
for a turn in which no other agent writes. -/
def Obligations.JumpCallReturnResult : Prop :=
  (∀ (m : MemForm) (s s1 : State) (ea : Word), effAddr m s = .next (ea, s1) →
    exec (.jp m) s = .next { s.afterBus s1 with pc := ea } ∧
    (s.quiet → s.kindAt (s.slot 0) = some .ram → s.kindAt (s.slot 1) = some .ram →
      ∃ t, exec (.call m) s = .next t ∧ Pushed s t [lsByte s.pc, msByte s.pc] ∧
        t = { s.afterBus s1 with mem := t.mem, sp := t.sp, pc := ea })) ∧
  (∀ (rel : Rel) (s s1 : State) (disp : Byte), readRel rel s = .next (disp, s1) →
    s.quiet → s.kindAt (s.slot 0) = some .ram → s.kindAt (s.slot 1) = some .ram →
    ∃ t, exec (.callr rel) s = .next t ∧ Pushed s t [lsByte s.pc, msByte s.pc] ∧
      t = { s.afterBus s1 with mem := t.mem, sp := t.sp, pc := reach s disp }) ∧
  ∀ (s s1 s2 : State) (hi lo : Byte), readByte s (s.device.spPreset ++ (s.sp + 1)) = .next (hi, s1) →
    readByte s1 (s.device.spPreset ++ (s.sp + 2)) = .next (lo, s2) →
    ∃ w : Word, w.toNat = 256 * hi.toNat + lo.toNat ∧
      exec .ret s = .next { s.afterBus s2 with sp := s.sp + 2, pc := w }

/-- PUSH: the operand stored at SP, then SP one less mod 64. POP: SP one more mod 64, then the byte there; POP CC writes all five
flags, the other forms none (R26, R30, R31, R168, R169; D9, D21). -/
def Obligations.PushPopResult : Prop :=
  (∀ (r : StackReg) (s : State) (v : Byte), StackRegHolds s r v →
    StoresByte (.push r) s { s with sp := s.sp - 1 } (s.slot 0) v) ∧
  ∀ (s s1 : State) (v : Byte), readByte s (s.device.spPreset ++ (s.sp + 1)) = .next (v, s1) →
    exec (.pop .a) s = .next { s.afterBus s1 with sp := s.sp + 1, a := v } ∧
    exec (.pop .x) s = .next { s.afterBus s1 with sp := s.sp + 1, x := v } ∧
    exec (.pop .y) s = .next { s.afterBus s1 with sp := s.sp + 1, y := v } ∧
    exec (.pop .cc) s = .next { s.afterBus s1 with sp := s.sp + 1, cc := stackedFlags v }

/-- TRAP: the five pushes, I set after CC is stacked, PC from the trap vector; whatever I is, and no latch changes (R330, R356, R357;
the vector's byte order is D2, log 9). IRET: CC, A, X and PC from the five bytes popped (R333, R361). Both where no other agent
writes meanwhile. -/
def Obligations.TrapIretResult : Prop :=
  ∀ s : State, s.quiet → s.stackIsRam →
    (s.plainAt s.device.trapVector → s.plainAt (s.device.trapVector + 1) →
      ∃ t, exec .trap s = .next t ∧ Pushed s t s.context ∧
        t = { s with mem := t.mem, sp := t.sp, cc := { s.cc with i := true }, pc := t.wordAt s.device.trapVector }) ∧
    ∃ w : Word,
      w.toNat = 256 * (s.byteAt (s.device.spPreset ++ (s.sp + 4))).toNat +
        (s.byteAt (s.device.spPreset ++ (s.sp + 5))).toNat ∧
      exec .iret s = .next
        { s with
          cc := stackedFlags (s.byteAt (s.device.spPreset ++ (s.sp + 1)))
          a := s.byteAt (s.device.spPreset ++ (s.sp + 2))
          x := s.byteAt (s.device.spPreset ++ (s.sp + 3))
          pc := w
          sp := s.sp + 5 }

/-- NOP, RSP, SCF, RCF, SIM and RIM: the whole effect, the encoding and the cycles of each (R170, R287, R334 to R337). After SIM no
interrupt is accepted at the next boundary (R353): that it takes effect there at once is decision D25 (log 12). -/
def Obligations.FlagInstructionResult : Prop :=
  ∀ s : State,
    (exec .nop s = .next s ∧ encode .nop = [0x9D#8] ∧ Instr.nop.cycles = 2) ∧
    (exec .rsp s = .next { s with sp := 0b111111#6 } ∧ encode .rsp = [0x9C#8] ∧ Instr.rsp.cycles = 2) ∧
    (exec .scf s = .next { s with cc := { s.cc with c := true } } ∧ encode .scf = [0x99#8] ∧ Instr.scf.cycles = 2) ∧
    (exec .rcf s = .next { s with cc := { s.cc with c := false } } ∧ encode .rcf = [0x98#8] ∧ Instr.rcf.cycles = 2) ∧
    (exec .sim s = .next { s with cc := { s.cc with i := true } } ∧ encode .sim = [0x9B#8] ∧ Instr.sim.cycles = 2) ∧
    (exec .rim s = .next { s with cc := { s.cc with i := false } } ∧ encode .rim = [0x9A#8] ∧ Instr.rim.cycles = 2) ∧
    ∀ t, exec .sim s = .next t → acceptedSource t = none

/-- WFI and HALT: I cleared, the core waits or halts, nothing else changes (R331, R332, R374). -/
def Obligations.WaitHaltResult : Prop :=
  ∀ s : State,
    exec .wfi s = .next { s with cc := { s.cc with i := false }, runState := .waiting } ∧
    exec .halt s = .next { s with cc := { s.cc with i := false }, runState := .halted } ∧
    encode .wfi = [0x8F#8] ∧ Instr.wfi.cycles = 2 ∧ encode .halt = [0x8E#8] ∧ Instr.halt.cycles = 2
end

