-- ==== Sys2Proof/Laws/Memory.lean ====
section
/-! SUPPORT. What the memory operations do: a read after a write, and the canonical form. -/

namespace Sys2Proof.Machine

@[simp] theorem Memory.read_nil (a : Nat) : Memory.read [] a = unlisted := rfl

theorem Memory.read_cons (c : Host.Cell) (m : Memory) (a : Nat) :
    Memory.read (c :: m) a = if c.1 = a then c.2 else Memory.read m a := rfl

theorem Memory.read_erase (m : Memory) (a b : Nat) :
    (m.erase a).read b = if b = a then unlisted else m.read b := by
  induction m with
  | nil => simp [Memory.erase]
  | cons c m ih =>
    unfold Memory.erase at ih ⊢
    by_cases hc : c.1 = a
    · rw [List.filter_cons_of_neg (by simp [hc]), ih]
      by_cases hb : b = a
      · simp [hb]
      · simp [hb, Memory.read_cons, hc, Ne.symm hb]
    · rw [List.filter_cons_of_pos (by simp [hc])]
      by_cases hb : b = a
      · subst hb; simp [Memory.read_cons, hc, ih]
      · simp [Memory.read_cons, ih, hb]

theorem Memory.read_insert (m : Memory) (a b : Nat) (v : Byte) (h : ∀ c ∈ m, c.1 ≠ a) :
    (m.insert a v).read b = if b = a then v else m.read b := by
  induction m with
  | nil => simp [Memory.insert, Memory.read_cons, eq_comm]
  | cons c m ih =>
    obtain ⟨k, w⟩ := c
    simp only [List.mem_cons, forall_eq_or_imp] at h
    by_cases hlt : a < k
    · simp [Memory.insert, hlt, Memory.read_cons, eq_comm]
    · by_cases hb : b = a
      · subst hb; simp [Memory.insert, hlt, Memory.read_cons, ih h.2, h.1]
      · simp [Memory.insert, hlt, Memory.read_cons, ih h.2, hb]

theorem Memory.mem_erase {m : Memory} {a : Nat} {c : Host.Cell} : c ∈ m.erase a ↔ c ∈ m ∧ c.1 ≠ a := by
  simp [Memory.erase]

theorem Memory.mem_insert {m : Memory} {a : Nat} {v : Byte} {c : Host.Cell} :
    c ∈ m.insert a v ↔ c = (a, v) ∨ c ∈ m := by
  induction m with
  | nil => simp [Memory.insert]
  | cons d m ih =>
    obtain ⟨k, w⟩ := d
    by_cases hlt : a < k
    · simp [Memory.insert, hlt]
    · simp only [Memory.insert, hlt, if_false, List.mem_cons, ih]
      tauto

/-- Reading after a write: the byte written, and every other address as before. -/
theorem Memory.read_write (m : Memory) (a b : Nat) (v : Byte) :
    (m.write a v).read b = if b = a then v else m.read b := by
  unfold Memory.write
  split
  · next hv => simp [Memory.read_erase, hv]
  · rw [Memory.read_insert _ _ _ _ (fun c hc => (Memory.mem_erase.mp hc).2), Memory.read_erase]
    split <;> rfl

@[simp] theorem Memory.read_write_same (m : Memory) (a : Nat) (v : Byte) : (m.write a v).read a = v := by
  simp [Memory.read_write]

theorem Memory.read_write_other {m : Memory} {a b : Nat} {v : Byte} (h : b ≠ a) :
    (m.write a v).read b = m.read b := by
  simp [Memory.read_write, h]

theorem Memory.wf_nil : Memory.wf [] := ⟨.nil, by simp⟩

theorem Memory.wf_erase {m : Memory} {a : Nat} (h : m.wf) : (m.erase a).wf :=
  ⟨h.1.sublist List.filter_sublist, fun c hc => h.2 c (Memory.mem_erase.mp hc).1⟩

theorem Memory.pairwise_insert {m : Memory} {a : Nat} {v : Byte}
    (h : m.Pairwise (fun c d : Host.Cell => c.1 < d.1)) (ha : ∀ c ∈ m, c.1 ≠ a) :
    (m.insert a v).Pairwise (fun c d : Host.Cell => c.1 < d.1) := by
  induction m with
  | nil => simp [Memory.insert]
  | cons c m ih =>
    obtain ⟨k, w⟩ := c
    simp only [List.mem_cons, forall_eq_or_imp] at ha
    rw [List.pairwise_cons] at h
    by_cases hlt : a < k
    · simp only [Memory.insert, hlt, if_true, List.pairwise_cons, List.mem_cons, forall_eq_or_imp]
      exact ⟨⟨trivial, fun d hd => lt_trans hlt (h.1 d hd)⟩, h.1, h.2⟩
    · simp only [Memory.insert, hlt, if_false, List.pairwise_cons]
      refine ⟨fun d hd => ?_, ih h.2 ha.2⟩
      rcases Memory.mem_insert.mp hd with rfl | hd
      · have := ha.1; simp only at this ⊢; omega
      · exact h.1 d hd

/-- A write inside the address space keeps the canonical form. -/
theorem Memory.wf_write {m : Memory} {a : Nat} {v : Byte} (h : m.wf) (ha : a < 65536) : (m.write a v).wf := by
  unfold Memory.write
  split
  · exact Memory.wf_erase h
  · next hv =>
    refine ⟨Memory.pairwise_insert (Memory.wf_erase h).1 (fun c hc => (Memory.mem_erase.mp hc).2), ?_⟩
    intro c hc
    rcases Memory.mem_insert.mp hc with rfl | hc
    · exact ⟨ha, hv⟩
    · exact (Memory.wf_erase h).2 c hc

/-- A memory in canonical form lists exactly the addresses that do not read as an unlisted one. -/
theorem Memory.mem_iff_read {m : Memory} (h : m.wf) (c : Host.Cell) :
    c ∈ m ↔ m.read c.1 = c.2 ∧ c.2 ≠ unlisted := by
  induction m with
  | nil => simp only [List.not_mem_nil, Memory.read_nil, false_iff, not_and, not_not]; exact Eq.symm
  | cons d m ih =>
    have hm : Memory.wf m := ⟨(List.pairwise_cons.mp h.1).2, fun c hc => h.2 c (List.mem_cons_of_mem _ hc)⟩
    have hd := (List.pairwise_cons.mp h.1).1
    rw [Memory.read_cons, List.mem_cons]
    by_cases heq : d.1 = c.1
    · simp only [heq, if_true]
      constructor
      · rintro (rfl | hc)
        · exact ⟨rfl, (h.2 c (List.mem_cons_self ..)).2⟩
        · exact absurd heq (hd c hc).ne
      · rintro ⟨h2, -⟩
        exact .inl (Prod.ext heq.symm h2.symm)
    · simp only [heq, if_false, ← ih hm]
      constructor
      · rintro (rfl | hc)
        · exact absurd rfl heq
        · exact hc
      · exact .inr

end Sys2Proof.Machine
end

