-- ==== Sys2Proof/Laws/State.lean ====
section
/-! SUPPORT. The small lemmas of the state updates: one for each field and each update, true by definition, so that no later
proof unfolds an update. -/

namespace Sys2Proof.Machine

/-! ## A register written -/

@[simp] theorem State.reg_setReg_same (s : State) (r : Reg) (v : Byte) : (s.setReg r v).reg r = v := by
  cases r <;> rfl

theorem State.reg_setReg (s : State) (r q : Reg) (v : Byte) :
    (s.setReg r v).reg q = if q = r then v else s.reg q := by
  cases r <;> cases q <;> rfl

@[simp] theorem State.setReg_a (s : State) (v : Byte) : s.setReg .a v = { s with a := v } := rfl

@[simp] theorem State.setReg_x (s : State) (v : Byte) : s.setReg .x v = { s with x := v } := rfl

@[simp] theorem State.setReg_y (s : State) (v : Byte) : s.setReg .y v = { s with y := v } := rfl

@[simp] theorem State.reg_a (s : State) : s.reg .a = s.a := rfl

@[simp] theorem State.reg_x (s : State) : s.reg .x = s.x := rfl

@[simp] theorem State.reg_y (s : State) : s.reg .y = s.y := rfl

@[simp] theorem State.setReg_pc (s : State) (r : Reg) (v : Byte) : (s.setReg r v).pc = s.pc := by
  cases r <;> rfl

@[simp] theorem State.setReg_sp (s : State) (r : Reg) (v : Byte) : (s.setReg r v).sp = s.sp := by
  cases r <;> rfl

@[simp] theorem State.setReg_cc (s : State) (r : Reg) (v : Byte) : (s.setReg r v).cc = s.cc := by
  cases r <;> rfl

@[simp] theorem State.setReg_mem (s : State) (r : Reg) (v : Byte) : (s.setReg r v).mem = s.mem := by
  cases r <;> rfl

@[simp] theorem State.setReg_runState (s : State) (r : Reg) (v : Byte) : (s.setReg r v).runState = s.runState := by
  cases r <;> rfl

@[simp] theorem State.setReg_pending (s : State) (r : Reg) (v : Byte) : (s.setReg r v).pending = s.pending := by
  cases r <;> rfl

@[simp] theorem State.setReg_extIntLine (s : State) (r : Reg) (v : Byte) : (s.setReg r v).extIntLine = s.extIntLine := by
  cases r <;> rfl

@[simp] theorem State.setReg_device (s : State) (r : Reg) (v : Byte) : (s.setReg r v).device = s.device := by
  cases r <;> rfl

@[simp] theorem State.setReg_schedule (s : State) (r : Reg) (v : Byte) : (s.setReg r v).schedule = s.schedule := by
  cases r <;> rfl

@[simp] theorem State.setReg_gaps (s : State) (r : Reg) (v : Byte) : (s.setReg r v).gaps = s.gaps := by
  cases r <;> rfl

@[simp] theorem State.setReg_cut (s : State) (r : Reg) (v : Byte) : (s.setReg r v).cut = s.cut := by
  cases r <;> rfl

@[simp] theorem State.setReg_draws (s : State) (r : Reg) (v : Byte) : (s.setReg r v).draws = s.draws := by
  cases r <;> rfl

@[simp] theorem State.setReg_events (s : State) (r : Reg) (v : Byte) : (s.setReg r v).events = s.events := by
  cases r <;> rfl

@[simp] theorem State.setReg_cycles (s : State) (r : Reg) (v : Byte) : (s.setReg r v).cycles = s.cycles := by
  cases r <;> rfl

@[simp] theorem State.index_x (s : State) : s.index .x = s.x := rfl

@[simp] theorem State.index_y (s : State) : s.index .y = s.y := rfl

theorem State.reg_indexReg (s : State) (n : Index) : s.reg n.reg = s.index n := by cases n <;> rfl

/-! ## A stack register written -/

@[simp] theorem State.setStackReg_pc (s : State) (r : StackReg) (v : Byte) : (s.setStackReg r v).pc = s.pc := by
  cases r <;> rfl

@[simp] theorem State.setStackReg_sp (s : State) (r : StackReg) (v : Byte) : (s.setStackReg r v).sp = s.sp := by
  cases r <;> rfl

@[simp] theorem State.setStackReg_mem (s : State) (r : StackReg) (v : Byte) : (s.setStackReg r v).mem = s.mem := by
  cases r <;> rfl

@[simp] theorem State.setStackReg_runState (s : State) (r : StackReg) (v : Byte) : (s.setStackReg r v).runState = s.runState := by
  cases r <;> rfl

@[simp] theorem State.setStackReg_pending (s : State) (r : StackReg) (v : Byte) : (s.setStackReg r v).pending = s.pending := by
  cases r <;> rfl

@[simp] theorem State.setStackReg_extIntLine (s : State) (r : StackReg) (v : Byte) : (s.setStackReg r v).extIntLine = s.extIntLine := by
  cases r <;> rfl

@[simp] theorem State.setStackReg_device (s : State) (r : StackReg) (v : Byte) : (s.setStackReg r v).device = s.device := by
  cases r <;> rfl

@[simp] theorem State.setStackReg_schedule (s : State) (r : StackReg) (v : Byte) : (s.setStackReg r v).schedule = s.schedule := by
  cases r <;> rfl

@[simp] theorem State.setStackReg_gaps (s : State) (r : StackReg) (v : Byte) : (s.setStackReg r v).gaps = s.gaps := by
  cases r <;> rfl

@[simp] theorem State.setStackReg_cut (s : State) (r : StackReg) (v : Byte) : (s.setStackReg r v).cut = s.cut := by
  cases r <;> rfl

@[simp] theorem State.setStackReg_draws (s : State) (r : StackReg) (v : Byte) : (s.setStackReg r v).draws = s.draws := by
  cases r <;> rfl

@[simp] theorem State.setStackReg_events (s : State) (r : StackReg) (v : Byte) : (s.setStackReg r v).events = s.events := by
  cases r <;> rfl

@[simp] theorem State.setStackReg_cycles (s : State) (r : StackReg) (v : Byte) : (s.setStackReg r v).cycles = s.cycles := by
  cases r <;> rfl

/-! ## The condition codes -/

@[simp] theorem CC.setNZ_h (cc : CC) (v : Byte) : (cc.setNZ v).h = cc.h := rfl

@[simp] theorem CC.setNZ_i (cc : CC) (v : Byte) : (cc.setNZ v).i = cc.i := rfl

@[simp] theorem CC.setNZ_c (cc : CC) (v : Byte) : (cc.setNZ v).c = cc.c := rfl

@[simp] theorem CC.setNZ_n (cc : CC) (v : Byte) : (cc.setNZ v).n = v.msb := rfl

@[simp] theorem CC.setNZ_z (cc : CC) (v : Byte) : (cc.setNZ v).z = (v == 0x00#8) := rfl

/-- The model's `SetNZ` is the one of R36. -/
theorem CC.setNZ_eq_nzOf (cc : CC) (v : Byte) : cc.setNZ v = nzOf cc v := by
  have hz : (v == 0x00#8) = decide (v.toNat = 0) := by
    rw [Bool.eq_iff_iff]; simp [BitVec.toNat_eq]
  simp only [CC.setNZ, nzOf, hz, BitVec.msb_eq_getLsbD_last]

@[simp] theorem CC.ofByte_toByte (cc : CC) : CC.ofByte cc.toByte = cc := by
  obtain ⟨h, i, n, z, c⟩ := cc
  cases h <;> cases i <;> cases n <;> cases z <;> cases c <;> rfl

/-! ## The bus bookkeeping taken over from another state -/

@[simp] theorem State.afterBus_a (s t : State) : (s.afterBus t).a = s.a := rfl

@[simp] theorem State.afterBus_x (s t : State) : (s.afterBus t).x = s.x := rfl

@[simp] theorem State.afterBus_y (s t : State) : (s.afterBus t).y = s.y := rfl

@[simp] theorem State.afterBus_pc (s t : State) : (s.afterBus t).pc = s.pc := rfl

@[simp] theorem State.afterBus_sp (s t : State) : (s.afterBus t).sp = s.sp := rfl

@[simp] theorem State.afterBus_cc (s t : State) : (s.afterBus t).cc = s.cc := rfl

@[simp] theorem State.afterBus_mem (s t : State) : (s.afterBus t).mem = t.mem := rfl

@[simp] theorem State.afterBus_runState (s t : State) : (s.afterBus t).runState = s.runState := rfl

@[simp] theorem State.afterBus_pending (s t : State) : (s.afterBus t).pending = s.pending := rfl

@[simp] theorem State.afterBus_extIntLine (s t : State) : (s.afterBus t).extIntLine = s.extIntLine := rfl

@[simp] theorem State.afterBus_device (s t : State) : (s.afterBus t).device = s.device := rfl

@[simp] theorem State.afterBus_schedule (s t : State) : (s.afterBus t).schedule = s.schedule := rfl

@[simp] theorem State.afterBus_gaps (s t : State) : (s.afterBus t).gaps = t.gaps := rfl

@[simp] theorem State.afterBus_cut (s t : State) : (s.afterBus t).cut = s.cut := rfl

@[simp] theorem State.afterBus_draws (s t : State) : (s.afterBus t).draws = t.draws := rfl

@[simp] theorem State.afterBus_events (s t : State) : (s.afterBus t).events = t.events := rfl

@[simp] theorem State.afterBus_cycles (s t : State) : (s.afterBus t).cycles = s.cycles := rfl

@[simp] theorem State.afterBus_self (s : State) : s.afterBus s = s := rfl

@[simp] theorem State.afterBus_afterBus (s t u : State) : (s.afterBus t).afterBus u = s.afterBus u := rfl

@[simp] theorem State.afterBus_right (s t u : State) : s.afterBus (t.afterBus u) = s.afterBus u := rfl

/-! ## The memory map and the bytes read -/

/-- The region kinds depend on the device parameters alone. -/
theorem State.kindAt_congr {s t : State} (h : t.device = s.device) (a : Word) : t.kindAt a = s.kindAt a := by
  rw [State.kindAt, State.kindAt, h]

@[simp] theorem State.kindAt_afterBus (s t : State) (a : Word) : (s.afterBus t).kindAt a = s.kindAt a := rfl

theorem State.plainAt_congr {s t : State} (h : t.device = s.device) (a : Word) : t.plainAt a ↔ s.plainAt a := by
  rw [State.plainAt, State.plainAt, State.kindAt_congr h]

theorem State.plainAt_of_ram {s : State} {a : Word} (h : s.kindAt a = some .ram) : s.plainAt a := .inl h

theorem State.byteAt_congr {s t : State} (h : t.mem = s.mem) (a : Word) : t.byteAt a = s.byteAt a := by
  rw [State.byteAt, State.byteAt, h]

@[simp] theorem State.byteAt_afterBus (s t : State) (a : Word) : (s.afterBus t).byteAt a = t.byteAt a := rfl

theorem State.stackIsRam_congr {s t : State} (h : t.device = s.device) (hs : s.stackIsRam) : t.stackIsRam := fun p => by
  rw [h, State.kindAt_congr h]; exact hs p

theorem State.spAddr_eq_slot (s : State) : s.spAddr = s.slot 0 := by simp [State.spAddr, State.slot]

end Sys2Proof.Machine
end

