-- ==== Sys2Proof/Laws/Bus.lean ====
section
/-! SUPPORT. What other agents do in a turn of the core: their writes landing, a turn cut short, and what any sequence of byte
accesses can change. -/

namespace Sys2Proof.Machine

/-! ## Bytes written by other agents -/

@[simp] theorem lastWrite_nil (b : Word) : lastWrite [] b = none := rfl

/-- The last write to an address is the one that counts. -/
theorem lastWrite_cons (w : Word × Byte) (ws : List (Word × Byte)) (b : Word) :
    lastWrite (w :: ws) b = (lastWrite ws b).or (if w.1 = b then some w.2 else none) := by
  unfold lastWrite
  rw [List.reverse_cons, List.find?_append]
  cases h : ws.reverse.find? (fun w => w.1 == b) with
  | some v => simp
  | none => by_cases hw : w.1 = b <;> simp [hw]

theorem lastWrite_eq_none {ws : List (Word × Byte)} {b : Word} (h : ∀ w ∈ ws, w.1 ≠ b) : lastWrite ws b = none := by
  induction ws with
  | nil => rfl
  | cons w ws ih =>
    rw [lastWrite_cons, ih fun v hv => h v (List.mem_cons_of_mem _ hv), if_neg (h w List.mem_cons_self)]; rfl

/-- Bytes written by another agent change memory only. -/
theorem storeRam_eq (s : State) (ws : List (Word × Byte)) : storeRam s ws = { s with mem := (storeRam s ws).mem } := by
  induction ws generalizing s with
  | nil => rfl
  | cons w ws ih =>
    rw [storeRam]
    split
    · rw [ih { s with mem := s.mem.write w.1.toNat w.2 }]
    · exact ih s

/-- Bytes written by another agent, byte by byte: in RAM the last write to an address, anywhere else nothing (R6 (4)). -/
theorem storeRam_byteAt (s : State) (ws : List (Word × Byte)) (b : Word) :
    (storeRam s ws).byteAt b =
      if s.kindAt b = some .ram then (lastWrite ws b).getD (s.byteAt b) else s.byteAt b := by
  induction ws generalizing s with
  | nil => simp [storeRam]
  | cons w ws ih =>
    rw [storeRam, ih, lastWrite_cons]
    by_cases hk : s.kindAt w.1 = some .ram
    · simp only [hk, if_true]
      rw [State.kindAt_congr (s := s) (t := { s with mem := s.mem.write w.1.toNat w.2 }) rfl]
      have hb : State.byteAt { s with mem := s.mem.write w.1.toNat w.2 } b = if b = w.1 then w.2 else s.byteAt b := by
        simp only [State.byteAt, Memory.read_write, BitVec.toNat_inj]
      rw [hb]
      by_cases he : w.1 = b
      · subst he; cases lastWrite ws w.1 <;> simp [hk]
      · cases lastWrite ws b <;> simp [he, Ne.symm he]
    · simp only [hk, if_false]
      by_cases he : w.1 = b
      · subst he; simp [hk]
      · cases lastWrite ws b <;> simp [he]

theorem storeRam_wf {s : State} (ws : List (Word × Byte)) (h : s.mem.wf) : (storeRam s ws).mem.wf := by
  induction ws generalizing s with
  | nil => exact h
  | cons w ws ih =>
    rw [storeRam]
    apply ih
    split
    · exact Memory.wf_write h w.1.isLt
    · exact h

theorem storeRam_mem_congr {s t : State} (hm : t.mem = s.mem) (hd : t.device = s.device) (ws : List (Word × Byte)) :
    (storeRam t ws).mem = (storeRam s ws).mem := by
  induction ws generalizing s t with
  | nil => exact hm
  | cons w ws ih =>
    rw [storeRam, storeRam, State.kindAt_congr hd]
    split
    · exact ih (by rw [hm]) hd
    · exact ih hm hd

/-! ## A gap of the turn -/

@[simp] theorem State.settle_nil {s : State} (h : s.gaps = []) : s.settle = s := by
  unfold State.settle; rw [h]

/-- A gap changes memory, and is used up. -/
theorem State.settle_eq (s : State) : s.settle = { s with mem := s.settle.mem, gaps := s.gaps.drop 1 } := by
  cases h : s.gaps with
  | nil => simp only [State.settle_nil h, List.drop_nil]; rw [← h]
  | cons ws g =>
    have : s.settle = storeRam { s with gaps := g } ws := by unfold State.settle; rw [h]
    rw [this, storeRam_eq]; rfl

/-- An access after a gap changes `s` itself, with the gap used up. -/
theorem State.settle_with (s : State) (m : Memory) (d : Nat) (e : List BusEvent) :
    { s.settle with mem := m, draws := d, events := e } =
      { s with mem := m, gaps := s.gaps.drop 1, draws := d, events := e } := by
  rw [State.settle_eq]

/-- What a gap leaves in memory, byte by byte (R74, D11). -/
theorem State.settle_byteAt (s : State) (b : Word) : s.settle.byteAt b =
    if s.kindAt b = some .ram then (lastWrite (s.gaps.headD []) b).getD (s.byteAt b) else s.byteAt b := by
  cases h : s.gaps with
  | nil => simp [State.settle_nil h]
  | cons ws g =>
    have : s.settle = storeRam { s with gaps := g } ws := by unfold State.settle; rw [h]
    rw [this, storeRam_byteAt]; rfl

theorem State.settle_mem_congr {s t : State} (hm : t.mem = s.mem) (hg : t.gaps = s.gaps) (hd : t.device = s.device) :
    t.settle.mem = s.settle.mem := by
  unfold State.settle
  rw [hg]
  cases s.gaps with
  | nil => exact hm
  | cons ws g =>
    exact storeRam_mem_congr (s := { s with gaps := g }) (t := { t with gaps := g }) hm hd ws

theorem State.settle_wf {s : State} (h : s.mem.wf) : s.settle.mem.wf := by
  unfold State.settle
  split
  · exact h
  · exact storeRam_wf _ h

@[simp] theorem State.settle_gaps (s : State) : s.settle.gaps = s.gaps.drop 1 := by rw [State.settle_eq]

@[simp] theorem State.settle_cut (s : State) : s.settle.cut = s.cut := by rw [State.settle_eq]

@[simp] theorem State.settle_device (s : State) : s.settle.device = s.device := by rw [State.settle_eq]

@[simp] theorem State.settle_draws (s : State) : s.settle.draws = s.draws := by rw [State.settle_eq]

@[simp] theorem State.settle_events (s : State) : s.settle.events = s.events := by rw [State.settle_eq]

@[simp] theorem State.settle_pc (s : State) : s.settle.pc = s.pc := by rw [State.settle_eq]

@[simp] theorem State.settle_sp (s : State) : s.settle.sp = s.sp := by rw [State.settle_eq]

@[simp] theorem State.settle_cc (s : State) : s.settle.cc = s.cc := by rw [State.settle_eq]

@[simp] theorem State.kindAt_settle (s : State) (a : Word) : s.settle.kindAt a = s.kindAt a :=
  State.kindAt_congr (State.settle_device s) a

/-- A gap does not depend on the registers: it lands alike in a state that differs from `s` in anything but memory, the gaps and
the device. -/
theorem State.settle_of_congr {s t : State} (hm : t.mem = s.mem) (hg : t.gaps = s.gaps) (hd : t.device = s.device) :
    t.settle = { t with mem := s.settle.mem, gaps := s.settle.gaps } := by
  rw [State.settle_eq t, State.settle_mem_congr hm hg hd, State.settle_gaps, hg]

theorem Spared.settle {s : State} {b : Word} (h : Spared s b) : Spared s.settle b := by
  intro ws hw
  rw [State.settle_gaps] at hw
  exact h ws (List.mem_of_mem_drop hw)

/-- A byte no other agent writes is as before. -/
theorem Spared.byteAt_settle {s : State} {b : Word} (h : Spared s b) : s.settle.byteAt b = s.byteAt b := by
  rw [State.settle_byteAt]
  cases hg : s.gaps with
  | nil => simp
  | cons ws g =>
    rw [List.headD_cons, lastWrite_eq_none (h ws (hg ▸ List.mem_cons_self))]
    simp

theorem Spared.of_nil {s : State} (h : s.gaps = []) (b : Word) : Spared s b := by simp [Spared, h]

/-! ## A quiet turn, and one cut short -/

theorem State.quiet.settle {s : State} (h : s.quiet) : s.settle = s := State.settle_nil h.1

theorem State.quiet.frozen {s : State} (h : s.quiet) : s.frozen = false := by simp [State.frozen, h.2]

theorem State.quiet.congr {s t : State} (h : s.quiet) (hg : t.gaps = s.gaps) (hc : t.cut = s.cut) : t.quiet :=
  ⟨hg.trans h.1, hc.trans h.2⟩

theorem State.frozen_of_uncut {s : State} (h : s.cut = false) : s.frozen = false := by simp [State.frozen, h]

theorem State.frozen_iff (s : State) : s.frozen = true ↔ s.cut = true ∧ s.gaps = [] := by
  simp [State.frozen, List.isEmpty_iff]

/-! ## What any sequence of byte accesses can change -/

/-- The part of the state byte accesses can change, and what stops them. -/
structure Bus where
  mem : Memory
  gaps : Gaps
  cut : Bool
  draws : Nat
  events : List BusEvent

/-- The bus of a state. -/
def State.bus (s : State) : Bus :=
  { mem := s.mem, gaps := s.gaps, cut := s.cut, draws := s.draws, events := s.events }

/-- From `p` to `q` there are byte accesses and the writes of other agents between them: gaps are used up from the front, memory
keeps its canonical form, and nothing happens once a reset has cut the turn short. -/
structure Bus.Accesses (p q : Bus) : Prop where
  gaps : ∃ n, q.gaps = p.gaps.drop n
  cut : q.cut = p.cut
  memWf : p.mem.wf → q.mem.wf
  frozen : p.cut = true → p.gaps = [] → q = p

/-- The accesses from `p` to `q` are reads: memory changes only where another agent writes. -/
structure Bus.Reads (p q : Bus) : Prop extends Bus.Accesses p q where
  spared : ∀ b : Word, (∀ ws ∈ p.gaps, ∀ w ∈ ws, w.1 ≠ b) → q.mem.read b.toNat = p.mem.read b.toNat
  alone : p.gaps = [] → q.mem = p.mem

theorem Bus.Accesses.refl (p : Bus) : Bus.Accesses p p := ⟨⟨0, rfl⟩, rfl, id, fun _ _ => rfl⟩

theorem Bus.Reads.refl (p : Bus) : Bus.Reads p p := { Bus.Accesses.refl p with spared := fun _ _ => rfl, alone := fun _ => rfl }

theorem Bus.Accesses.trans {p q r : Bus} (h : Bus.Accesses p q) (k : Bus.Accesses q r) : Bus.Accesses p r := by
  obtain ⟨n, hn⟩ := h.gaps
  obtain ⟨m, hm⟩ := k.gaps
  refine ⟨⟨n + m, by rw [hm, hn, List.drop_drop]⟩, k.cut.trans h.cut, k.memWf ∘ h.memWf, fun hc hg => ?_⟩
  have he := h.frozen hc hg
  subst he
  exact k.frozen hc hg

theorem Bus.Reads.trans {p q r : Bus} (h : Bus.Reads p q) (k : Bus.Reads q r) : Bus.Reads p r := by
  obtain ⟨n, hn⟩ := h.gaps
  refine { h.toAccesses.trans k.toAccesses with spared := fun b hb => ?_, alone := fun hg => ?_ }
  · rw [k.spared b fun ws hw => hb ws (List.mem_of_mem_drop (hn ▸ hw)), h.spared b hb]
  · rw [k.alone (by rw [hn, hg, List.drop_nil]), h.alone hg]

/-- A gap alone. -/
theorem State.settle_reads (s : State) (h : s.frozen = false) : Bus.Reads s.bus s.settle.bus where
  gaps := ⟨1, State.settle_gaps s⟩
  cut := State.settle_cut s
  memWf := State.settle_wf
  frozen hc hg := by simp [State.frozen, State.bus] at h hc hg; exact absurd hg (h hc)
  spared _ hb := Spared.byteAt_settle hb
  alone hg := by show s.settle.mem = s.mem; rw [State.settle_nil hg]

/-- Reads in a quiet turn leave memory and quiet. -/
theorem Bus.Accesses.quiet {s t : State} (h : Bus.Accesses s.bus t.bus) (hs : s.quiet) : t.quiet := by
  obtain ⟨n, hn⟩ := h.gaps
  exact ⟨by simpa [State.bus, hs.1] using hn, h.cut.trans hs.2⟩

end Sys2Proof.Machine
end

