-- ==== Sys2Proof/Laws/Decode.lean ====
section
/-! SUPPORT. The two bytes of a 16-bit value, and the parts of the decoder on the bytes of an encoding. -/

namespace Sys2Proof

@[simp] theorem wordOf_msByte_lsByte (w : Word) : wordOf (msByte w) (lsByte w) = w := by
  unfold wordOf msByte lsByte
  ext i hi
  simp only [BitVec.getElem_append, BitVec.getElem_extractLsb']
  split
  · simp [BitVec.getLsbD_eq_getElem, hi]
  · rw [show 8 + (i - 8) = i by omega, BitVec.getLsbD_eq_getElem]

@[simp] theorem msByte_wordOf (ms ls : Byte) : msByte (wordOf ms ls) = ms := by
  unfold wordOf msByte
  ext i hi
  have h := @BitVec.getLsbD_append 8 8 (8 + i) ms ls
  simp only [BitVec.getElem_extractLsb']
  rw [h, if_neg (by omega), Nat.add_sub_cancel_left, BitVec.getLsbD_eq_getElem]

@[simp] theorem lsByte_wordOf (ms ls : Byte) : lsByte (wordOf ms ls) = ls := by
  unfold wordOf lsByte
  ext i hi
  have h := @BitVec.getLsbD_append 8 8 (0 + i) ms ls
  simp only [BitVec.getElem_extractLsb']
  rw [h, if_pos (by omega), Nat.zero_add, BitVec.getLsbD_eq_getElem]

/-- Splitting off the pre-byte of an encoding. -/
theorem splitPre_bytes (p : Pre) (op : Byte) (rest : List Byte) (h : p = .none → Pre.ofByte op = none) :
    splitPre (p.bytes ++ op :: rest) = .ok (p, op, rest) := by
  cases p
  · simp [Pre.bytes, splitPre, h rfl]
  all_goals rfl

/-- What a split names is what was there, and an op-code without a pre-byte is no pre-byte. -/
theorem splitPre_eq_ok {bs rest : List Byte} {p : Pre} {op : Byte} (h : splitPre bs = .ok (p, op, rest)) :
    bs = p.bytes ++ op :: rest ∧ (p = .none → Pre.ofByte op = none) := by
  unfold splitPre at h
  split at h
  · simp at h
  · next b0 rest0 =>
    split at h
    · next hb => simp only [Except.ok.injEq, Prod.mk.injEq] at h; obtain ⟨rfl, rfl, rfl⟩ := h; exact ⟨rfl, fun _ => hb⟩
    · simp at h
    · next p' op' rest' hb =>
      simp only [Except.ok.injEq, Prod.mk.injEq] at h
      obtain ⟨rfl, rfl, rfl⟩ := h
      unfold Pre.ofByte at hb
      split at hb
      · cases hb; simp_all [Pre.bytes]
      · split at hb
        · cases hb; simp_all [Pre.bytes]
        · split at hb <;> simp at hb
          cases hb; simp_all [Pre.bytes]

/-- `opcodeMap_eq_some`, as one evaluation over every pair. -/
def rowIsSound (p : Pre) (op : Byte) : Bool :=
  match opcodeMap p op with
  | none => true
  | some t => decide (t.head = (p, op)) && t.wf && decide (t.canonical = t) && decide (t.fill 0#8 0#8 = t) &&
    decide (t.operandCount ≤ 2) && (p != .none || (Pre.ofByte op).isNone)

theorem rowIsSound_all (p : Pre) : ∀ op, rowIsSound p op = true := by
  cases p <;> decide

/-- Everything a row of the opcode map says: its template has the pair as pre-byte and op-code, is well formed and canonical, has
operand bytes 0 and at most two of them, and a row without a pre-byte is no pre-byte. -/
theorem opcodeMap_eq_some {p : Pre} {op : Byte} {t : Instr} (h : opcodeMap p op = some t) :
    t.head = (p, op) ∧ t.wf = true ∧ t.canonical = t ∧ t.fill 0#8 0#8 = t ∧ t.operandCount ≤ 2 ∧
      (p = .none → Pre.ofByte op = none) := by
  have hr := rowIsSound_all p op
  rw [rowIsSound, h] at hr
  simp only [Bool.and_eq_true, decide_eq_true_eq, Bool.or_eq_true, bne_iff_ne, Option.isNone_iff_eq_none] at hr
  obtain ⟨⟨⟨⟨⟨h1, h2⟩, h3⟩, h4⟩, h5⟩, h6⟩ := hr
  exact ⟨h1, h2, h3, h4, h5, fun hp => h6.resolve_left (fun hn => hn hp)⟩

/-- The decoder on a pair the map has. -/
theorem decode_of_row {p : Pre} {op : Byte} {t : Instr} (h : opcodeMap p op = some t) (bs : List Byte) :
    decode (p.bytes ++ op :: bs) = takeOperands t bs := by
  unfold decode
  rw [splitPre_bytes p op bs (opcodeMap_eq_some h).2.2.2.2.2]
  simp only [h]

end Sys2Proof
end

