-- ==== Sys2Proof/Laws/Ops.lean ====
section
/-! SUPPORT. For each shared operation, once, everything it can do. A proof cites these and does not unfold the operation. -/

namespace Sys2Proof.Machine

/-! ## Going on with a result -/

section
variable {α β : Type}

@[simp] theorem andThen_next (v : α) (k : α → Res β) : andThen (.next v) k = k v := rfl

@[simp] theorem andThen_fault (f : Fault) (k : α → Res β) : andThen (.fault f : Res α) k = .fault f := rfl

@[simp] theorem andThen_refused (e : Refusal) (k : α → Res β) : andThen (.refused e : Res α) k = .refused e := rfl

theorem andThen_eq_next {r : Res α} {k : α → Res β} {w : β} :
    andThen r k = .next w ↔ ∃ v, r = .next v ∧ k v = .next w := by
  cases r <;> simp

theorem andThen_eq_fault {r : Res α} {k : α → Res β} {f : Fault} :
    andThen r k = .fault f ↔ r = .fault f ∨ ∃ v, r = .next v ∧ k v = .fault f := by
  cases r <;> simp

/-- A result that is no fault, followed by what is no fault, is no fault. -/
theorem andThen_ne_fault {r : Res α} {k : α → Res β} {f : Fault} (hr : r ≠ .fault f) (hk : ∀ v, k v ≠ .fault f) :
    andThen r k ≠ .fault f := by
  cases r <;> simp_all

theorem andThen_assoc {γ : Type} (r : Res α) (k : α → Res β) (l : β → Res γ) :
    andThen (andThen r k) l = andThen r fun v => andThen (k v) l := by
  cases r <;> rfl

end

/-! ## One byte read or written -/

theorem readMapped_plain {s : State} {a : Word} (h : s.plainAt a) : readMapped s a = .next (s.byteAt a, s) := by
  unfold readMapped State.byteAt
  rcases h with h | h | h <;> simp [h]

theorem readMapped_device {s : State} {a : Word} (h : s.kindAt a = some .device) :
    readMapped s a = .next (Config.deviceByte s.draws,
      { s with draws := s.draws + 1, events := .read a (Config.deviceByte s.draws) :: s.events }) := by
  simp [readMapped, h]

theorem readMapped_cases {s t : State} {a : Word} {v : Byte} (h : readMapped s a = .next (v, t)) :
    (s.plainAt a ∧ v = s.byteAt a ∧ t = s) ∨
    (s.kindAt a = some .device ∧ v = Config.deviceByte s.draws ∧
      t = { s with draws := s.draws + 1, events := .read a (Config.deviceByte s.draws) :: s.events }) := by
  unfold readMapped at h
  unfold State.plainAt State.byteAt
  split at h <;> simp only [Host.Outcome.next.injEq, Prod.mk.injEq, reduceCtorEq] at h <;> obtain ⟨rfl, rfl⟩ := h <;>
    simp [*]

/-- Once the turn is cut short nothing is read. -/
theorem readByte_frozen {s : State} (a : Word) (h : s.frozen = true) : readByte s a = .next (0x00#8, s) := by
  simp [readByte, h]

theorem readByte_open {s : State} (a : Word) (h : s.frozen = false) : readByte s a = readMapped s.settle a := by
  simp [readByte, h]

/-- What a read answers: the gap before it lands, then the kind of the region decides. -/
theorem readByte_cases {s t : State} {a : Word} {v : Byte} (h : readByte s a = .next (v, t)) :
    (s.frozen = true ∧ t = s) ∨
    (s.frozen = false ∧ s.plainAt a ∧ v = s.settle.byteAt a ∧ t = s.settle) ∨
    (s.frozen = false ∧ s.kindAt a = some .device ∧ v = Config.deviceByte s.draws ∧
      t = { s.settle with draws := s.draws + 1, events := .read a (Config.deviceByte s.draws) :: s.events }) := by
  cases hf : s.frozen with
  | true => rw [readByte_frozen a hf] at h; cases h; exact .inl ⟨rfl, rfl⟩
  | false =>
    rw [readByte_open a hf] at h
    rcases readMapped_cases h with ⟨hp, rfl, rfl⟩ | ⟨hd, rfl, rfl⟩
    · exact .inr (.inl ⟨rfl, (State.plainAt_congr (State.settle_device s) a).mp hp, rfl, rfl⟩)
    · simp only [State.kindAt_settle, State.settle_draws, State.settle_events] at hd ⊢
      exact .inr (.inr ⟨trivial, hd, trivial, trivial⟩)

/-- A read of RAM, ROM or EEPROM that no other agent writes in this turn: the byte there, and the gap before it lands. -/
theorem readByte_spared {s : State} {a : Word} (hf : s.frozen = false) (h : s.plainAt a) (hs : Spared s a) :
    readByte s a = .next (s.byteAt a, s.settle) := by
  rw [readByte_open a hf, readMapped_plain ((State.plainAt_congr (State.settle_device s) a).mpr h), hs.byteAt_settle]

/-- A read of RAM, ROM or EEPROM in a quiet turn: the byte there, and nothing changes. -/
theorem readByte_plain {s : State} {a : Word} (hq : s.quiet) (h : s.plainAt a) : readByte s a = .next (s.byteAt a, s) := by
  rw [readByte_spared hq.frozen h (.of_nil hq.1 a), hq.settle]

theorem readByte_device {s : State} {a : Word} (hf : s.frozen = false) (h : s.kindAt a = some .device) :
    readByte s a = .next (Config.deviceByte s.draws,
      { s.settle with draws := s.draws + 1, events := .read a (Config.deviceByte s.draws) :: s.events }) := by
  rw [readByte_open a hf, readMapped_device (by simpa using h)]
  simp

theorem readByte_none {s : State} {a : Word} (hf : s.frozen = false) (h : s.kindAt a = none) :
    readByte s a = .refused (.accessRefused .read a) := by
  simp [readByte, readMapped, hf, h]

/-- A read changes what byte accesses change, and memory only where another agent writes. -/
theorem readByte_frame {s t : State} {a : Word} {v : Byte} (h : readByte s a = .next (v, t)) :
    ∃ m g d e, t = { s with mem := m, gaps := g, draws := d, events := e } ∧ s.bus.Reads t.bus := by
  rcases readByte_cases h with ⟨-, rfl⟩ | ⟨hf, -, -, rfl⟩ | ⟨hf, -, -, rfl⟩
  · exact ⟨_, _, _, _, rfl, .refl _⟩
  · exact ⟨_, _, _, _, State.settle_eq s, State.settle_reads s hf⟩
  · have hr := State.settle_reads s hf
    refine ⟨_, _, _, _, State.settle_with s s.settle.mem (s.draws + 1) _, ⟨hr.gaps, hr.cut, hr.memWf, ?_⟩, hr.spared, hr.alone⟩
    intro hc hg
    exact absurd ((State.frozen_iff s).mpr ⟨hc, hg⟩) (by simp [hf])

/-- What byte accesses alone lead to, as the claims say it. -/
theorem State.eq_afterBus {s t : State} (h : ∃ m g d e, t = { s with mem := m, gaps := g, draws := d, events := e }) :
    t = s.afterBus t := by
  obtain ⟨m, g, d, e, rfl⟩ := h; rfl

theorem readByte_ne_fault (s : State) (a : Word) (f : Fault) : readByte s a ≠ .fault f := by
  unfold readByte readMapped
  split
  · simp
  · split <;> simp

/-- A read that is served reads an address of a region. -/
theorem readByte_kindAt {s t : State} {a : Word} {v : Byte} (hf : s.frozen = false) (h : readByte s a = .next (v, t)) :
    s.kindAt a ≠ none := by
  intro hn; simp [readByte_none hf hn] at h

theorem readMapped_regs {s t : State} (a : Word) (hm : t.mem = s.mem) (hd : t.device = s.device) (hn : t.draws = s.draws)
    (he : t.events = s.events) :
    readMapped t a = andThen (readMapped s a) fun (v, u) => .next (v, { t with draws := u.draws, events := u.events }) := by
  unfold readMapped
  rw [State.kindAt_congr hd, hm, hn, he]
  split <;> simp only [andThen_next, andThen_refused] <;> rw [← hn, ← he, ← hm]

/-- A read does not depend on the registers, and leaves them. -/
theorem readByte_regs {s t : State} (a : Word) (hb : t.bus = s.bus) (hd : t.device = s.device) :
    readByte t a = andThen (readByte s a) fun (v, u) => .next (v, t.afterBus u) := by
  simp only [State.bus, Bus.mk.injEq] at hb
  obtain ⟨hm, hg, hc, hn, he⟩ := hb
  have hf : t.frozen = s.frozen := by rw [State.frozen, State.frozen, hc, hg]
  cases hs : s.frozen with
  | true =>
    rw [readByte_frozen a (hf.trans hs), readByte_frozen a hs, andThen_next]
    simp only [State.afterBus, ← hm, ← hg, ← hn, ← he]
  | false =>
    have ht := State.settle_of_congr hm hg hd
    rw [readByte_open a (hf.trans hs), readByte_open a hs,
      readMapped_regs (s := s.settle) a (State.settle_mem_congr hm hg hd) (by simp [hd]) (by simp [hn]) (by simp [he])]
    cases hr : readMapped s.settle a with
    | next p =>
      obtain ⟨v, u⟩ := p
      rcases readMapped_cases hr with ⟨-, -, rfl⟩ | ⟨-, -, rfl⟩ <;> rw [ht] <;> rfl
    | fault f => rfl
    | refused e => rfl

theorem readByte_congr {s t u : State} {a : Word} {v : Byte} (hb : t.bus = s.bus) (hd : t.device = s.device)
    (h : readByte s a = .next (v, u)) : readByte t a = .next (v, t.afterBus u) := by
  rw [readByte_regs a hb hd, h, andThen_next]

/-- Once the turn is cut short nothing is written. -/
theorem writeByte_frozen {s : State} (a : Word) (v : Byte) (h : s.frozen = true) : writeByte s a v = .next s := by
  simp [writeByte, h]

theorem writeByte_ram {s : State} {a : Word} (v : Byte) (hf : s.frozen = false) (h : s.kindAt a = some .ram) :
    writeByte s a v = .next { s.settle with mem := s.settle.mem.write a.toNat v } := by
  simp [writeByte, writeMapped, hf, h]

theorem writeByte_device {s : State} {a : Word} (v : Byte) (hf : s.frozen = false) (h : s.kindAt a = some .device) :
    writeByte s a v = .next { s.settle with events := .write a v :: s.settle.events } := by
  simp [writeByte, writeMapped, hf, h]

theorem writeByte_other {s : State} {a : Word} (v : Byte) (hf : s.frozen = false) (h : s.kindAt a ≠ some .ram)
    (h' : s.kindAt a ≠ some .device) : writeByte s a v = .refused (.accessRefused .write a) := by
  simp only [writeByte, hf, writeMapped, State.kindAt_settle]
  cases hk : s.kindAt a with
  | none => simp
  | some k => cases k <;> simp_all

/-- What a write does: the gap before it lands, then the kind of the region decides. -/
theorem writeByte_cases {s t : State} {a : Word} {v : Byte} (h : writeByte s a v = .next t) :
    (s.frozen = true ∧ t = s) ∨
    (s.frozen = false ∧ s.kindAt a = some .ram ∧ t = { s.settle with mem := s.settle.mem.write a.toNat v }) ∨
    (s.frozen = false ∧ s.kindAt a = some .device ∧ t = { s.settle with events := .write a v :: s.settle.events }) := by
  cases hf : s.frozen with
  | true => rw [writeByte_frozen a v hf] at h; cases h; exact .inl ⟨rfl, rfl⟩
  | false =>
    by_cases hr : s.kindAt a = some .ram
    · rw [writeByte_ram v hf hr] at h; cases h; exact .inr (.inl ⟨rfl, hr, rfl⟩)
    · by_cases hd : s.kindAt a = some .device
      · rw [writeByte_device v hf hd] at h; cases h; exact .inr (.inr ⟨rfl, hd, rfl⟩)
      · rw [writeByte_other v hf hr hd] at h; cases h

/-- A write changes what byte accesses change. -/
theorem writeByte_frame {s t : State} {a : Word} {v : Byte} (h : writeByte s a v = .next t) :
    ∃ m g d e, t = { s with mem := m, gaps := g, draws := d, events := e } ∧ s.bus.Accesses t.bus := by
  rcases writeByte_cases h with ⟨-, rfl⟩ | ⟨hf, -, rfl⟩ | ⟨hf, -, rfl⟩
  · exact ⟨_, _, _, _, rfl, .refl _⟩
  · have hr := State.settle_reads s hf
    refine ⟨_, _, _, _, State.settle_with s _ s.settle.draws s.settle.events, hr.gaps, hr.cut,
      fun hw => Memory.wf_write (State.settle_wf hw) a.isLt, fun hc hg => ?_⟩
    exact absurd ((State.frozen_iff s).mpr ⟨hc, hg⟩) (by simp [hf])
  · have hr := State.settle_reads s hf
    refine ⟨_, _, _, _, State.settle_with s s.settle.mem s.settle.draws _, hr.gaps, hr.cut,
      State.settle_wf, fun hc hg => ?_⟩
    exact absurd ((State.frozen_iff s).mpr ⟨hc, hg⟩) (by simp [hf])

/-- A write does not depend on the registers, and leaves them. -/
theorem writeByte_regs {s t : State} (a : Word) (v : Byte) (hb : t.bus = s.bus) (hd : t.device = s.device) :
    writeByte t a v = andThen (writeByte s a v) fun u => .next (t.afterBus u) := by
  simp only [State.bus, Bus.mk.injEq] at hb
  obtain ⟨hm, hg, hc, hn, he⟩ := hb
  have hf : t.frozen = s.frozen := by rw [State.frozen, State.frozen, hc, hg]
  have hk : t.kindAt a = s.kindAt a := State.kindAt_congr hd a
  cases hs : s.frozen with
  | true =>
    rw [writeByte_frozen a v (hf.trans hs), writeByte_frozen a v hs, andThen_next]
    simp only [State.afterBus, ← hm, ← hg, ← hn, ← he]
  | false =>
    have ht := State.settle_of_congr hm hg hd
    by_cases hr : s.kindAt a = some .ram
    · rw [writeByte_ram v (hf.trans hs) (hk.trans hr), writeByte_ram v hs hr, ht]
      simp [State.afterBus, hn, he]
    · by_cases hv : s.kindAt a = some .device
      · rw [writeByte_device v (hf.trans hs) (hk.trans hv), writeByte_device v hs hv, ht]
        simp [State.afterBus, hn, he]
      · rw [writeByte_other v (hf.trans hs) (hk ▸ hr) (hk ▸ hv), writeByte_other v hs hr hv]; rfl

theorem writeByte_ne_fault (s : State) (a : Word) (v : Byte) (f : Fault) : writeByte s a v ≠ .fault f := by
  unfold writeByte writeMapped
  split
  · simp
  · split <;> simp

/-- A write to RAM stores one byte. -/
theorem storedAt_write {s t : State} {a : Word} {v : Byte} (h : t.mem = s.mem.write a.toNat v) : StoredAt s t a v := by
  intro b
  rw [State.byteAt, h, Memory.read_write]
  by_cases hb : b = a
  · simp [hb]
  · rw [if_neg hb, if_neg (fun he => hb (BitVec.toNat_inj.mp he))]; rfl

/-- An instruction that ends in a write stores the byte, as the claims say it. -/
theorem storesByte_of_write {i : Instr} {s u : State} {ea : Word} {v : Byte} (cc : CC) (hd : u.device = s.device)
    (h : exec i s = andThen (writeByte u ea v) fun w => .next { w with cc := cc }) :
    StoresByte i s { u with cc := cc } ea v := by
  have hs : State.settle { u with cc := cc } = { u.settle with cc := cc } :=
    (State.settle_of_congr (s := u) (t := { u with cc := cc }) rfl rfl rfl).trans (by rw [State.settle_eq u])
  refine ⟨fun hf => ?_, fun hf => ⟨fun hk => ?_, fun hk => ?_, fun hk hk' => ?_⟩⟩
  · rw [h, writeByte_frozen _ _ (s := u) hf]; rfl
  · rw [h, writeByte_ram _ (s := u) hf ((State.kindAt_congr hd ea).trans hk), hs]
    exact ⟨_, rfl, storedAt_write rfl, rfl⟩
  · rw [h, writeByte_device _ (s := u) hf ((State.kindAt_congr hd ea).trans hk), hs]; rfl
  · rw [← State.kindAt_congr hd] at hk hk'
    rw [h, writeByte_other _ (s := u) hf hk hk']; rfl

/-! ## Words and fetched bytes -/

theorem readWord_plain {s : State} {a : Word} (hq : s.quiet) (h : s.plainAt a) (h' : s.plainAt (a + 1)) :
    readWord s a = .next (s.wordAt a, s) := by
  simp only [readWord, readByte_plain hq h, readByte_plain hq h', andThen_next, State.wordAt]

theorem readWord_frame {s t : State} {a w : Word} (h : readWord s a = .next (w, t)) :
    ∃ m g d e, t = { s with mem := m, gaps := g, draws := d, events := e } ∧ s.bus.Reads t.bus := by
  simp only [readWord, andThen_eq_next] at h
  obtain ⟨⟨v, s1⟩, h1, ⟨u, s2⟩, h2, h3⟩ := h
  obtain ⟨m, g, d, e, rfl, hr⟩ := readByte_frame h1
  obtain ⟨m', g', d', e', rfl, hr'⟩ := readByte_frame h2
  cases h3
  exact ⟨_, _, _, _, rfl, hr.trans hr'⟩

theorem readWord_ne_fault (s : State) (a : Word) (f : Fault) : readWord s a ≠ .fault f :=
  andThen_ne_fault (readByte_ne_fault _ _ _) fun _ => andThen_ne_fault (readByte_ne_fault _ _ _) fun _ => by simp

theorem fetchByte_plain {s : State} (hq : s.quiet) (h : s.plainAt s.pc) :
    fetchByte s = .next (s.byteAt s.pc, { s with pc := s.pc + 1 }) := by
  simp only [fetchByte, readByte_plain hq h, andThen_next]

theorem fetchByte_spared {s : State} (hf : s.frozen = false) (h : s.plainAt s.pc) (hs : Spared s s.pc) :
    fetchByte s = .next (s.byteAt s.pc, { s.settle with pc := s.pc + 1 }) := by
  simp only [fetchByte, readByte_spared hf h hs, andThen_next, State.settle_pc]

/-- A fetch moves PC on by one; else it changes what byte accesses change. -/
theorem fetchByte_frame {s t : State} {b : Byte} (h : fetchByte s = .next (b, t)) :
    ∃ m g d e, t = { s with mem := m, gaps := g, draws := d, events := e, pc := s.pc + 1 } ∧ s.bus.Reads t.bus := by
  simp only [fetchByte, andThen_eq_next] at h
  obtain ⟨⟨v, s1⟩, h1, h2⟩ := h
  obtain ⟨m, g, d, e, rfl, hr⟩ := readByte_frame h1
  cases h2
  exact ⟨_, _, _, _, rfl, hr⟩

theorem fetchByte_ne_fault (s : State) (f : Fault) : fetchByte s ≠ .fault f :=
  andThen_ne_fault (readByte_ne_fault _ _ _) fun _ => by simp

/-! ## The stack -/

theorem pushByte_ram {s : State} (v : Byte) (hq : s.quiet) (h : s.kindAt s.spAddr = some .ram) :
    pushByte s v = .next { s with mem := s.mem.write s.spAddr.toNat v, sp := s.sp - 1 } := by
  simp only [pushByte, writeByte_ram v hq.frozen h, andThen_next, hq.settle]

/-- What a push does: the store at SP, and SP one less. -/
theorem pushByte_cases {s t : State} {v : Byte} (h : pushByte s v = .next t) :
    ∃ u, writeByte s s.spAddr v = .next u ∧ t = { u with sp := s.sp - 1 } := by
  simp only [pushByte, andThen_eq_next] at h
  obtain ⟨u, h1, h2⟩ := h
  refine ⟨u, h1, ?_⟩
  obtain ⟨m, g, d, e, rfl, -⟩ := writeByte_frame h1
  cases h2
  rfl

/-- A push changes SP and what byte accesses change. -/
theorem pushByte_frame {s t : State} {v : Byte} (h : pushByte s v = .next t) :
    ∃ m g d e, t = { s with mem := m, gaps := g, draws := d, events := e, sp := s.sp - 1 } ∧ s.bus.Accesses t.bus := by
  obtain ⟨u, h1, rfl⟩ := pushByte_cases h
  obtain ⟨m, g, d, e, rfl, hr⟩ := writeByte_frame h1
  exact ⟨m, g, d, e, rfl, hr⟩

theorem pushByte_ne_fault (s : State) (v : Byte) (f : Fault) : pushByte s v ≠ .fault f :=
  andThen_ne_fault (writeByte_ne_fault _ _ _ _) fun _ => by simp

theorem popByte_plain {s : State} (hq : s.quiet) (h : s.plainAt { s with sp := s.sp + 1 }.spAddr) :
    popByte s = .next (s.byteAt { s with sp := s.sp + 1 }.spAddr, { s with sp := s.sp + 1 }) :=
  readByte_plain (s := { s with sp := s.sp + 1 }) hq h

/-- A pop changes SP and what reads change. -/
theorem popByte_frame {s t : State} {v : Byte} (h : popByte s = .next (v, t)) :
    ∃ m g d e, t = { s with mem := m, gaps := g, draws := d, events := e, sp := s.sp + 1 } ∧ s.bus.Reads t.bus := by
  obtain ⟨m, g, d, e, rfl, hr⟩ := readByte_frame h
  exact ⟨m, g, d, e, rfl, hr⟩

theorem popByte_ne_fault (s : State) (f : Fault) : popByte s ≠ .fault f := readByte_ne_fault _ _ _

theorem pushWord_frame {s t : State} {w : Word} (h : pushWord s w = .next t) :
    ∃ m g d e, t = { s with mem := m, gaps := g, draws := d, events := e, sp := s.sp - 2 } ∧ s.bus.Accesses t.bus := by
  simp only [pushWord, andThen_eq_next] at h
  obtain ⟨u, h1, h2⟩ := h
  obtain ⟨m, g, d, e, rfl, hr⟩ := pushByte_frame h1
  obtain ⟨m', g', d', e', rfl, hr'⟩ := pushByte_frame h2
  exact ⟨m', g', d', e', by simp [BitVec.sub_sub], hr.trans hr'⟩

theorem pushWord_ne_fault (s : State) (w : Word) (f : Fault) : pushWord s w ≠ .fault f :=
  andThen_ne_fault (pushByte_ne_fault _ _ _) fun _ => pushByte_ne_fault _ _ _

theorem popWord_frame {s t : State} {w : Word} (h : popWord s = .next (w, t)) :
    ∃ m g d e, t = { s with mem := m, gaps := g, draws := d, events := e, sp := s.sp + 2 } ∧ s.bus.Reads t.bus := by
  simp only [popWord, andThen_eq_next] at h
  obtain ⟨⟨v, s1⟩, h1, ⟨u, s2⟩, h2, h3⟩ := h
  obtain ⟨m, g, d, e, rfl, hr⟩ := popByte_frame h1
  obtain ⟨m', g', d', e', rfl, hr'⟩ := popByte_frame h2
  cases h3
  exact ⟨m', g', d', e', by simp [BitVec.add_assoc], hr.trans hr'⟩

theorem popWord_ne_fault (s : State) (f : Fault) : popWord s ≠ .fault f :=
  andThen_ne_fault (popByte_ne_fault _ _) fun _ => andThen_ne_fault (popByte_ne_fault _ _) fun _ => by simp

/-! ## Exceptions -/

theorem pushContext_frame {s t : State} (h : pushContext s = .next t) :
    ∃ m g d e, t = { s with mem := m, gaps := g, draws := d, events := e, sp := s.sp - 5 } ∧ s.bus.Accesses t.bus := by
  simp only [pushContext, andThen_eq_next] at h
  obtain ⟨s1, h1, s2, h2, s3, h3, h4⟩ := h
  obtain ⟨m1, g1, d1, e1, rfl, r1⟩ := pushWord_frame h1
  obtain ⟨m2, g2, d2, e2, rfl, r2⟩ := pushByte_frame h2
  obtain ⟨m3, g3, d3, e3, rfl, r3⟩ := pushByte_frame h3
  obtain ⟨m4, g4, d4, e4, rfl, r4⟩ := pushByte_frame h4
  exact ⟨m4, g4, d4, e4, by simp [BitVec.sub_sub], ((r1.trans r2).trans r3).trans r4⟩

theorem pushContext_ne_fault (s : State) (f : Fault) : pushContext s ≠ .fault f :=
  andThen_ne_fault (pushWord_ne_fault _ _ _) fun _ => andThen_ne_fault (pushByte_ne_fault _ _ _) fun _ =>
    andThen_ne_fault (pushByte_ne_fault _ _ _) fun _ => pushByte_ne_fault _ _ _

/-- Taking an exception changes SP, I, PC and what byte accesses change. -/
theorem enterException_frame {s t : State} {v : Word} (h : enterException s v = .next t) :
    ∃ m g d e w,
      t = { s with
          mem := m, gaps := g, draws := d, events := e, sp := s.sp - 5, cc := { s.cc with i := true }, pc := w } ∧
      s.bus.Accesses t.bus := by
  simp only [enterException, andThen_eq_next] at h
  obtain ⟨s1, h1, ⟨w, s2⟩, h2, h3⟩ := h
  obtain ⟨m, g, d, e, rfl, hr⟩ := pushContext_frame h1
  obtain ⟨m', g', d', e', rfl, hr'⟩ := readWord_frame h2
  cases h3
  exact ⟨m', g', d', e', w, rfl, hr.trans hr'.toAccesses⟩

theorem enterException_ne_fault (s : State) (v : Word) (f : Fault) : enterException s v ≠ .fault f :=
  andThen_ne_fault (pushContext_ne_fault _ _) fun _ => andThen_ne_fault (readWord_ne_fault _ _ _) fun _ => by simp

/-- Returning from an exception changes CC, A, X, PC, SP and what reads change. -/
theorem returnFromException_frame {s t : State} (h : returnFromException s = .next t) :
    ∃ cc a x w m g d e,
      t = { s with
          cc := cc, a := a, x := x, pc := w, sp := s.sp + 5, mem := m, gaps := g, draws := d, events := e } ∧
      s.bus.Reads t.bus := by
  simp only [returnFromException, andThen_eq_next] at h
  obtain ⟨⟨v1, s1⟩, h1, ⟨v2, s2⟩, h2, ⟨v3, s3⟩, h3, ⟨w, s4⟩, h4, h5⟩ := h
  obtain ⟨m1, g1, d1, e1, rfl, r1⟩ := popByte_frame h1
  obtain ⟨m2, g2, d2, e2, rfl, r2⟩ := popByte_frame h2
  obtain ⟨m3, g3, d3, e3, rfl, r3⟩ := popByte_frame h3
  obtain ⟨m4, g4, d4, e4, rfl, r4⟩ := popWord_frame h4
  cases h5
  exact ⟨CC.ofByte v1, v2, v3, w, m4, g4, d4, e4, by simp [BitVec.add_assoc], ((r1.trans r2).trans r3).trans r4⟩

theorem returnFromException_ne_fault (s : State) (f : Fault) : returnFromException s ≠ .fault f :=
  andThen_ne_fault (popByte_ne_fault _ _) fun _ => andThen_ne_fault (popByte_ne_fault _ _) fun _ =>
    andThen_ne_fault (popByte_ne_fault _ _) fun _ => andThen_ne_fault (popWord_ne_fault _ _) fun _ => by simp

/-! ## Reset -/

/-- The registers, the latches and the run state a reset leaves (R391, R392), but for PC. -/
def State.resetRegs (s : State) (d : ResetDraw) : State :=
  { s with
    a := d.a, x := d.x, y := d.y, sp := 0b111111#6
    cc := { h := d.h, i := true, n := d.n, z := d.z, c := d.c }
    pending := s.pending.map fun _ => false
    runState := .running }

/-- The drawn RAM bytes after the registers are set: they land as they would in `s`. -/
theorem storeRam_resetRegs (s : State) (d : ResetDraw) :
    storeRam (s.resetRegs d) d.ram = { s.resetRegs d with mem := (storeRam s d.ram).mem } := by
  rw [storeRam_eq, storeRam_mem_congr (s := s) (t := s.resetRegs d) rfl rfl]

theorem resetSequence_eq (s : State) (d : ResetDraw) : resetSequence s d =
    andThen (readWord { s.resetRegs d with mem := (storeRam s d.ram).mem } s.device.resetVector) fun (target, s) =>
      .next { s with pc := target } := by
  rw [← storeRam_resetRegs]; rfl

/-- What a reset leaves: its own registers, PC, and what byte accesses change from the drawn RAM on. -/
theorem resetSequence_frame {s t : State} {d : ResetDraw} (h : resetSequence s d = .next t) :
    ∃ m g n e w,
      t = { s.resetRegs d with mem := m, gaps := g, draws := n, events := e, pc := w } ∧
      Bus.Reads { s.bus with mem := (storeRam s d.ram).mem } t.bus := by
  rw [resetSequence_eq, andThen_eq_next] at h
  obtain ⟨⟨w, s1⟩, h1, h2⟩ := h
  obtain ⟨m, g, n, e, rfl, hr⟩ := readWord_frame h1
  cases h2
  exact ⟨m, g, n, e, w, rfl, hr⟩

/-- A reset that nothing disturbs: the vector is read after the drawn RAM. -/
theorem resetSequence_quiet {s : State} (d : ResetDraw) (hq : s.quiet) (h : s.plainAt s.device.resetVector)
    (h' : s.plainAt (s.device.resetVector + 1)) :
    resetSequence s d = .next
      { s.resetRegs d with mem := (storeRam s d.ram).mem, pc := (storeRam s d.ram).wordAt s.device.resetVector } := by
  rw [resetSequence_eq, readWord_plain (s := { s.resetRegs d with mem := (storeRam s d.ram).mem }) hq h h']
  rfl

theorem resetSequence_ne_fault (s : State) (d : ResetDraw) (f : Fault) : resetSequence s d ≠ .fault f :=
  andThen_ne_fault (readWord_ne_fault _ _ _) fun _ => by simp

end Sys2Proof.Machine
end

