-- ==== Sys2Proof/Laws/Operands.lean ====
section
/-! SUPPORT. For each operand form, once, everything that reading, changing or writing it can do. -/

namespace Sys2Proof.Machine

/-! ## Forming an address and reading an operand: only what byte accesses change -/

theorem effAddr_frame {m : MemForm} {s t : State} {ea : Word} (h : effAddr m s = .next (ea, t)) :
    ∃ m g d e, t = { s with mem := m, gaps := g, draws := d, events := e } ∧ s.bus.Reads t.bus := by
  cases m <;> simp only [effAddr, andThen_eq_next] at h
  case indL => exact readWord_frame h
  case indS => obtain ⟨⟨v, s1⟩, h1, h2⟩ := h; cases h2; exact readByte_frame h1
  case indxS => obtain ⟨⟨v, s1⟩, h1, h2⟩ := h; cases h2; exact readByte_frame h1
  case indxL => obtain ⟨⟨v, s1⟩, h1, h2⟩ := h; cases h2; exact readWord_frame h1
  all_goals cases h; exact ⟨_, _, _, _, rfl, .refl _⟩

theorem effAddr_ne_fault (m : MemForm) (s : State) (f : Fault) : effAddr m s ≠ .fault f := by
  cases m <;> simp only [effAddr]
  case indL => exact readWord_ne_fault _ _ _
  case indS => exact andThen_ne_fault (readByte_ne_fault _ _ _) fun _ => by simp
  case indxS => exact andThen_ne_fault (readByte_ne_fault _ _ _) fun _ => by simp
  case indxL => exact andThen_ne_fault (readWord_ne_fault _ _ _) fun _ => by simp
  all_goals simp

theorem readMem_frame {m : MemForm} {s t : State} {v : Byte} (h : readMem m s = .next (v, t)) :
    ∃ m g d e, t = { s with mem := m, gaps := g, draws := d, events := e } ∧ s.bus.Reads t.bus := by
  simp only [readMem, andThen_eq_next] at h
  obtain ⟨⟨ea, s1⟩, h1, h2⟩ := h
  obtain ⟨m, g, d, e, rfl, hr⟩ := effAddr_frame h1
  obtain ⟨m', g', d', e', rfl, hr'⟩ := readByte_frame h2
  exact ⟨_, _, _, _, rfl, hr.trans hr'⟩

theorem readMem_ne_fault (m : MemForm) (s : State) (f : Fault) : readMem m s ≠ .fault f :=
  andThen_ne_fault (effAddr_ne_fault _ _ _) fun _ => readByte_ne_fault _ _ _

@[simp] theorem readSrc_imm (v : Byte) (s : State) : readSrc (.imm v) s = .next (v, s) := rfl

theorem readSrc_frame {src : Src} {s t : State} {v : Byte} (h : readSrc src s = .next (v, t)) :
    ∃ m g d e, t = { s with mem := m, gaps := g, draws := d, events := e } ∧ s.bus.Reads t.bus := by
  cases src with
  | imm => cases h; exact ⟨_, _, _, _, rfl, .refl _⟩
  | mem m => exact readMem_frame h

theorem readSrc_ne_fault (src : Src) (s : State) (f : Fault) : readSrc src s ≠ .fault f := by
  cases src with
  | imm => simp
  | mem m => exact readMem_ne_fault _ _ _

theorem readDst_frame {dst : Dst} {s t : State} {v : Byte} (h : readDst dst s = .next (v, t)) :
    ∃ m g d e, t = { s with mem := m, gaps := g, draws := d, events := e } ∧ s.bus.Reads t.bus := by
  cases dst with
  | reg => cases h; exact ⟨_, _, _, _, rfl, .refl _⟩
  | mem m => exact readMem_frame h

theorem readDst_ne_fault (dst : Dst) (s : State) (f : Fault) : readDst dst s ≠ .fault f := by
  cases dst with
  | reg => simp [readDst]
  | mem m => exact readMem_ne_fault _ _ _

theorem readRel_frame {r : Rel} {s t : State} {v : Byte} (h : readRel r s = .next (v, t)) :
    ∃ m g d e, t = { s with mem := m, gaps := g, draws := d, events := e } ∧ s.bus.Reads t.bus := by
  cases r with
  | direct => cases h; exact ⟨_, _, _, _, rfl, .refl _⟩
  | indirect p => exact readByte_frame h

theorem readRel_ne_fault (r : Rel) (s : State) (f : Fault) : readRel r s ≠ .fault f := by
  cases r with
  | direct => simp [readRel]
  | indirect p => exact readByte_ne_fault _ _ _

theorem bitAddr_frame {b : BitForm} {s t : State} {ea : Word} (h : bitAddr b s = .next (ea, t)) :
    ∃ m g d e, t = { s with mem := m, gaps := g, draws := d, events := e } ∧ s.bus.Reads t.bus := by
  cases b with
  | direct => cases h; exact ⟨_, _, _, _, rfl, .refl _⟩
  | indirect p =>
    simp only [bitAddr, andThen_eq_next] at h
    obtain ⟨⟨v, s1⟩, h1, h2⟩ := h
    cases h2
    exact readByte_frame h1

theorem bitAddr_ne_fault (b : BitForm) (s : State) (f : Fault) : bitAddr b s ≠ .fault f := by
  cases b with
  | direct => simp [bitAddr]
  | indirect p => exact andThen_ne_fault (readByte_ne_fault _ _ _) fun _ => by simp

/-! ## Operations of A, and comparisons -/

theorem modifyAcc_of_read {src : Src} {s t : State} {m : Byte} (f : Byte → Byte → CC → Byte × CC)
    (h : readSrc src s = .next (m, t)) :
    modifyAcc src s f = .next { s.afterBus t with a := (f s.a m s.cc).1, cc := (f s.a m s.cc).2 } := by
  obtain ⟨k, g, d, e, rfl, -⟩ := readSrc_frame h
  simp only [modifyAcc, h, andThen_next, State.afterBus]

theorem modifyAcc_frame {src : Src} {s t : State} {f : Byte → Byte → CC → Byte × CC} (h : modifyAcc src s f = .next t) :
    ∃ v m g d e,
      t = { s with a := (f s.a v s.cc).1, cc := (f s.a v s.cc).2, mem := m, gaps := g, draws := d, events := e } ∧
      s.bus.Reads t.bus := by
  simp only [modifyAcc, andThen_eq_next] at h
  obtain ⟨⟨v, s1⟩, h1, h2⟩ := h
  obtain ⟨m, g, d, e, rfl, hr⟩ := readSrc_frame h1
  cases h2
  exact ⟨v, m, g, d, e, rfl, hr⟩

theorem modifyAcc_ne_fault (src : Src) (s : State) (f : Byte → Byte → CC → Byte × CC) (e : Fault) :
    modifyAcc src s f ≠ .fault e :=
  andThen_ne_fault (readSrc_ne_fault _ _ _) fun _ => by simp

theorem compareReg_of_read {r : Reg} {src : Src} {s t : State} {m : Byte} (f : Byte → Byte → CC → Byte × CC)
    (h : readSrc src s = .next (m, t)) :
    compareReg r src s f = .next { s.afterBus t with cc := (f (s.reg r) m s.cc).2 } := by
  obtain ⟨k, g, d, e, rfl, -⟩ := readSrc_frame h
  cases r <;> simp only [compareReg, h, andThen_next, State.afterBus, State.reg]

theorem compareReg_frame {r : Reg} {src : Src} {s t : State} {f : Byte → Byte → CC → Byte × CC}
    (h : compareReg r src s f = .next t) :
    ∃ v m g d e, t = { s with cc := (f (s.reg r) v s.cc).2, mem := m, gaps := g, draws := d, events := e } ∧
      s.bus.Reads t.bus := by
  simp only [compareReg, andThen_eq_next] at h
  obtain ⟨⟨v, s1⟩, h1, h2⟩ := h
  obtain ⟨m, g, d, e, rfl, hr⟩ := readSrc_frame h1
  cases h2
  cases r <;> exact ⟨v, m, g, d, e, rfl, hr⟩

theorem compareReg_ne_fault (r : Reg) (src : Src) (s : State) (f : Byte → Byte → CC → Byte × CC) (e : Fault) :
    compareReg r src s f ≠ .fault e :=
  andThen_ne_fault (readSrc_ne_fault _ _ _) fun _ => by simp

/-! ## Operands changed or overwritten -/

theorem modifyDst_reg (r : Reg) (s : State) (f : Byte → CC → Byte × CC) :
    modifyDst (.reg r) s f = .next { s.setReg r (f (s.reg r) s.cc).1 with cc := (f (s.reg r) s.cc).2 } := rfl

/-- A memory operand changed: what the write at its effective address answers, with the new condition codes. -/
theorem modifyDst_mem {m : MemForm} {s t u : State} {ea : Word} {v : Byte} (f : Byte → CC → Byte × CC)
    (h : effAddr m s = .next (ea, t)) (h' : readByte t ea = .next (v, u)) :
    modifyDst (.mem m) s f =
      andThen (writeByte u ea (f v s.cc).1) fun w => .next { w with cc := (f v s.cc).2 } := by
  obtain ⟨k, g, d, e, rfl, -⟩ := effAddr_frame h
  obtain ⟨k', g', d', e', rfl, -⟩ := readByte_frame h'
  simp only [modifyDst, h, h', andThen_next]

theorem modifyDst_frame {dst : Dst} {s t : State} {f : Byte → CC → Byte × CC} (h : modifyDst dst s f = .next t) :
    (∃ r, dst = .reg r ∧ t = { s.setReg r (f (s.reg r) s.cc).1 with cc := (f (s.reg r) s.cc).2 }) ∨
    ∃ m v k g d e, dst = .mem m ∧
      t = { s with mem := k, gaps := g, cc := (f v s.cc).2, draws := d, events := e } ∧ s.bus.Accesses t.bus := by
  cases dst with
  | reg r => cases h; exact .inl ⟨r, rfl, rfl⟩
  | mem m =>
    simp only [modifyDst, andThen_eq_next] at h
    obtain ⟨⟨ea, s1⟩, h1, ⟨v, s2⟩, h2, s3, h3, h4⟩ := h
    obtain ⟨k, g, d, e, rfl, hr⟩ := effAddr_frame h1
    obtain ⟨k', g', d', e', rfl, hr'⟩ := readByte_frame h2
    obtain ⟨k'', g'', d'', e'', rfl, hw⟩ := writeByte_frame h3
    cases h4
    exact .inr ⟨m, v, k'', g'', d'', e'', rfl, rfl, (hr.trans hr').toAccesses.trans hw⟩

theorem modifyDst_ne_fault (dst : Dst) (s : State) (f : Byte → CC → Byte × CC) (e : Fault) :
    modifyDst dst s f ≠ .fault e := by
  cases dst with
  | reg r => simp [modifyDst]
  | mem m =>
    exact andThen_ne_fault (effAddr_ne_fault _ _ _) fun _ => andThen_ne_fault (readByte_ne_fault _ _ _) fun _ =>
      andThen_ne_fault (writeByte_ne_fault _ _ _ _) fun _ => by simp

theorem overwriteDst_frame {dst : Dst} {s t : State} {v : Byte} (h : overwriteDst dst s v = .next t) :
    (∃ r, dst = .reg r ∧ t = s.setReg r v) ∨
    ∃ m k g d e, dst = .mem m ∧ t = { s with mem := k, gaps := g, draws := d, events := e } ∧ s.bus.Accesses t.bus := by
  cases dst with
  | reg r => cases h; exact .inl ⟨r, rfl, rfl⟩
  | mem m =>
    simp only [overwriteDst, andThen_eq_next] at h
    obtain ⟨⟨ea, s1⟩, h1, ⟨u, s2⟩, h2, h3⟩ := h
    obtain ⟨k, g, d, e, rfl, hr⟩ := effAddr_frame h1
    obtain ⟨k', g', d', e', rfl, hr'⟩ : ∃ k' g' d' e', s2 = { s with mem := k', gaps := g', draws := d', events := e' } ∧
        Bus.Reads { s.bus with mem := k, gaps := g, draws := d, events := e } s2.bus := by
      split at h2
      · exact readByte_frame h2
      · cases h2; exact ⟨_, _, _, _, rfl, .refl _⟩
    obtain ⟨k'', g'', d'', e'', rfl, hw⟩ := writeByte_frame h3
    exact .inr ⟨m, k'', g'', d'', e'', rfl, rfl, (hr.trans hr').toAccesses.trans hw⟩

theorem overwriteDst_ne_fault (dst : Dst) (s : State) (v : Byte) (e : Fault) : overwriteDst dst s v ≠ .fault e := by
  cases dst with
  | reg r => simp [overwriteDst]
  | mem m =>
    refine andThen_ne_fault (effAddr_ne_fault _ _ _) fun _ => andThen_ne_fault ?_ fun _ => writeByte_ne_fault _ _ _ _
    split
    · exact readByte_ne_fault _ _ _
    · simp

/-! ## Bit operands -/

/-- A bit operand changed: what the write at its effective address answers. -/
theorem modifyBit_of_read {b : BitForm} {s t u : State} {ea : Word} {v : Byte} (f : Byte → Byte)
    (h : bitAddr b s = .next (ea, t)) (h' : readByte t ea = .next (v, u)) :
    modifyBit b s f = writeByte u ea (f v) := by
  simp only [modifyBit, h, h', andThen_next]

theorem modifyBit_frame {b : BitForm} {s t : State} {f : Byte → Byte} (h : modifyBit b s f = .next t) :
    ∃ m g d e, t = { s with mem := m, gaps := g, draws := d, events := e } ∧ s.bus.Accesses t.bus := by
  simp only [modifyBit, andThen_eq_next] at h
  obtain ⟨⟨ea, s1⟩, h1, ⟨v, s2⟩, h2, h3⟩ := h
  obtain ⟨m, g, d, e, rfl, hr⟩ := bitAddr_frame h1
  obtain ⟨m', g', d', e', rfl, hr'⟩ := readByte_frame h2
  obtain ⟨m'', g'', d'', e'', rfl, hw⟩ := writeByte_frame h3
  exact ⟨m'', g'', d'', e'', rfl, (hr.trans hr').toAccesses.trans hw⟩

theorem modifyBit_ne_fault (b : BitForm) (s : State) (f : Byte → Byte) (e : Fault) : modifyBit b s f ≠ .fault e :=
  andThen_ne_fault (bitAddr_ne_fault _ _ _) fun _ => andThen_ne_fault (readByte_ne_fault _ _ _) fun _ =>
    writeByte_ne_fault _ _ _ _

theorem testBit_of_read {b : BitForm} {s t u : State} {ea : Word} {v : Byte} (pos : BitVec 3) (disp : Byte) (want : Bool)
    (h : bitAddr b s = .next (ea, t)) (h' : readByte t ea = .next (v, u)) :
    testBit b pos disp want s = .next
      { s.afterBus u with
        cc := { s.cc with c := v.getLsbD pos.toNat }
        pc := if v.getLsbD pos.toNat = want then relTarget s disp else s.pc } := by
  obtain ⟨m, g, d, e, rfl, -⟩ := bitAddr_frame h
  obtain ⟨m', g', d', e', rfl, -⟩ := readByte_frame h'
  simp only [testBit, h, h', andThen_next, State.afterBus, relTarget]

theorem testBit_frame {b : BitForm} {s t : State} {pos : BitVec 3} {disp : Byte} {want : Bool}
    (h : testBit b pos disp want s = .next t) :
    ∃ c w m g d e, t = { s with cc := { s.cc with c := c }, pc := w, mem := m, gaps := g, draws := d, events := e } ∧
      s.bus.Reads t.bus := by
  simp only [testBit, andThen_eq_next] at h
  obtain ⟨⟨ea, s1⟩, h1, ⟨v, s2⟩, h2, h3⟩ := h
  obtain ⟨m, g, d, e, rfl, hr⟩ := bitAddr_frame h1
  obtain ⟨m', g', d', e', rfl, hr'⟩ := readByte_frame h2
  cases h3
  exact ⟨_, _, m', g', d', e', rfl, hr.trans hr'⟩

theorem testBit_ne_fault (b : BitForm) (pos : BitVec 3) (disp : Byte) (want : Bool) (s : State) (e : Fault) :
    testBit b pos disp want s ≠ .fault e :=
  andThen_ne_fault (bitAddr_ne_fault _ _ _) fun _ => andThen_ne_fault (readByte_ne_fault _ _ _) fun _ => by simp

/-! ## Relative jumps -/

/-- The target of a relative jump is the one the claims name. -/
theorem relTarget_eq_reach (s : State) (disp : Byte) : relTarget s disp = reach s disp := by
  rw [relTarget, reach, sext, BitVec.signExtend, BitVec.ofInt_add, BitVec.ofInt_natCast, BitVec.ofNat_toNat,
    BitVec.setWidth_eq]

theorem branchIf_of_read {r : Rel} {s t : State} {disp : Byte} (cond : Bool) (h : readRel r s = .next (disp, t)) :
    branchIf cond r s = .next { s.afterBus t with pc := if cond = true then relTarget s disp else s.pc } := by
  obtain ⟨m, g, d, e, rfl, -⟩ := readRel_frame h
  cases cond <;> simp [branchIf, h, State.afterBus, relTarget]

theorem branchIf_frame {r : Rel} {s t : State} {cond : Bool} (h : branchIf cond r s = .next t) :
    ∃ w m g d e, t = { s with pc := w, mem := m, gaps := g, draws := d, events := e } ∧ s.bus.Reads t.bus := by
  simp only [branchIf, andThen_eq_next] at h
  obtain ⟨⟨disp, s1⟩, h1, h2⟩ := h
  obtain ⟨m, g, d, e, rfl, hr⟩ := readRel_frame h1
  cases cond <;> cases h2 <;> exact ⟨_, m, g, d, e, rfl, hr⟩

theorem branchIf_ne_fault (cond : Bool) (r : Rel) (s : State) (e : Fault) : branchIf cond r s ≠ .fault e :=
  andThen_ne_fault (readRel_ne_fault _ _ _) fun _ => by simp

end Sys2Proof.Machine
end

