-- ==== Sys2Proof/Laws/PerInstr.lean ====
section
/-! SUPPORT. Lemmas about every instruction, one for each constructor. -/

namespace Sys2Proof.Laws

theorem memForm_operandBytes_length (m : MemForm) : m.operandBytes.length = m.operandCount := by
  cases m <;> rfl

theorem src_operandBytes_length (s : Src) : s.operandBytes.length = s.operandCount := by
  cases s
  · rfl
  · exact memForm_operandBytes_length _

theorem dst_operandBytes_length (d : Dst) : d.operandBytes.length = d.operandCount := by
  cases d
  · rfl
  · exact memForm_operandBytes_length _

/-- The operand bytes of an instruction are as many as its form has. -/
theorem operandBytes_length (i : Instr) : i.operandBytes.length = i.operandCount := by
  cases i
  all_goals
    first
    | rfl
    | exact src_operandBytes_length _
    | exact dst_operandBytes_length _
    | exact memForm_operandBytes_length _

/-- An encoding has as many bytes as `lgth` says. -/
theorem encode_length (i : Instr) : (encode i).length = i.length := by
  simp [encode, Instr.length, operandBytes_length]
  omega

/-- A pre-byte takes at most one byte. -/
theorem pre_length (p : Pre) : p.bytes.length ≤ 1 := by cases p <;> decide

theorem memForm_operandCount_le (m : MemForm) : m.operandCount ≤ 2 := by cases m <;> simp [MemForm.operandCount]

theorem src_operandCount_le (s : Src) : s.operandCount ≤ 2 := by
  cases s
  · simp [Src.operandCount]
  · exact memForm_operandCount_le _

theorem dst_operandCount_le (d : Dst) : d.operandCount ≤ 2 := by
  cases d
  · simp [Dst.operandCount]
  · exact memForm_operandCount_le _

theorem operandCount_le (i : Instr) : i.operandCount ≤ 2 := by
  cases i
  all_goals
    first
    | exact src_operandCount_le _
    | exact dst_operandCount_le _
    | exact memForm_operandCount_le _
    | simp [Instr.operandCount]

namespace EncodeLength

/-- The encoding of an instruction has the number of bytes its `lgth` says, 1 to 4 (R90, R111). -/
def Statement (i : Instr) : Prop := (encode i).length = i.length ∧ 1 ≤ i.length ∧ i.length ≤ 4

theorem statement (i : Instr) : Statement i := by
  have h1 := pre_length i.head.1
  have h2 := operandCount_le i
  refine ⟨encode_length i, ?_, ?_⟩ <;> unfold Instr.length <;> omega

theorem adc (src : Src) : Statement (.adc src) := statement _
theorem add (src : Src) : Statement (.add src) := statement _
theorem sub (src : Src) : Statement (.sub src) := statement _
theorem sbc (src : Src) : Statement (.sbc src) := statement _
theorem mul (ndx : Index) : Statement (.mul ndx) := statement _
theorem and (src : Src) : Statement (.and src) := statement _
theorem or (src : Src) : Statement (.or src) := statement _
theorem xor (src : Src) : Statement (.xor src) := statement _
theorem cpl (dst : Dst) : Statement (.cpl dst) := statement _
theorem neg (dst : Dst) : Statement (.neg dst) := statement _
theorem inc (dst : Dst) : Statement (.inc dst) := statement _
theorem dec (dst : Dst) : Statement (.dec dst) := statement _
theorem cp (r : Reg) (src : Src) : Statement (.cp r src) := statement _
theorem tnz (dst : Dst) : Statement (.tnz dst) := statement _
theorem bcp (src : Src) : Statement (.bcp src) := statement _
theorem ld (r : Reg) (src : Src) : Statement (.ld r src) := statement _
theorem ldStore (m : MemForm) (r : Reg) : Statement (.ldStore m r) := statement _
theorem ldRegReg (dst : Reg) (src : Reg) : Statement (.ldRegReg dst src) := statement _
theorem ldSReg (r : Reg) : Statement (.ldSReg r) := statement _
theorem ldRegS (r : Reg) : Statement (.ldRegS r) := statement _
theorem clr (dst : Dst) : Statement (.clr dst) := statement _
theorem push (r : StackReg) : Statement (.push r) := statement _
theorem pop (r : StackReg) : Statement (.pop r) := statement _
theorem rsp : Statement (.rsp) := statement _
theorem sll (dst : Dst) : Statement (.sll dst) := statement _
theorem sla (dst : Dst) : Statement (.sla dst) := statement _
theorem srl (dst : Dst) : Statement (.srl dst) := statement _
theorem sra (dst : Dst) : Statement (.sra dst) := statement _
theorem rlc (dst : Dst) : Statement (.rlc dst) := statement _
theorem rrc (dst : Dst) : Statement (.rrc dst) := statement _
theorem swap (dst : Dst) : Statement (.swap dst) := statement _
theorem bset (pos : BitVec 3) (b : BitForm) : Statement (.bset pos b) := statement _
theorem bres (pos : BitVec 3) (b : BitForm) : Statement (.bres pos b) := statement _
theorem btjt (pos : BitVec 3) (b : BitForm) (disp : Byte) : Statement (.btjt pos b disp) := statement _
theorem btjf (pos : BitVec 3) (b : BitForm) (disp : Byte) : Statement (.btjf pos b disp) := statement _
theorem jra (t : Rel) : Statement (.jra t) := statement _
theorem jrt (t : Rel) : Statement (.jrt t) := statement _
theorem jrf (t : Rel) : Statement (.jrf t) := statement _
theorem jp (m : MemForm) : Statement (.jp m) := statement _
theorem call (m : MemForm) : Statement (.call m) := statement _
theorem callr (t : Rel) : Statement (.callr t) := statement _
theorem nop : Statement (.nop) := statement _
theorem ret : Statement (.ret) := statement _
theorem jrc (t : Rel) : Statement (.jrc t) := statement _
theorem jrnc (t : Rel) : Statement (.jrnc t) := statement _
theorem jrult (t : Rel) : Statement (.jrult t) := statement _
theorem jruge (t : Rel) : Statement (.jruge t) := statement _
theorem jreq (t : Rel) : Statement (.jreq t) := statement _
theorem jrne (t : Rel) : Statement (.jrne t) := statement _
theorem jrmi (t : Rel) : Statement (.jrmi t) := statement _
theorem jrpl (t : Rel) : Statement (.jrpl t) := statement _
theorem jrh (t : Rel) : Statement (.jrh t) := statement _
theorem jrnh (t : Rel) : Statement (.jrnh t) := statement _
theorem jrm (t : Rel) : Statement (.jrm t) := statement _
theorem jrnm (t : Rel) : Statement (.jrnm t) := statement _
theorem jrugt (t : Rel) : Statement (.jrugt t) := statement _
theorem jrule (t : Rel) : Statement (.jrule t) := statement _
theorem jrih (t : Rel) : Statement (.jrih t) := statement _
theorem jril (t : Rel) : Statement (.jril t) := statement _
theorem trap : Statement (.trap) := statement _
theorem wfi : Statement (.wfi) := statement _
theorem halt : Statement (.halt) := statement _
theorem iret : Statement (.iret) := statement _
theorem sim : Statement (.sim) := statement _
theorem rim : Statement (.rim) := statement _
theorem scf : Statement (.scf) := statement _
theorem rcf : Statement (.rcf) := statement _

end EncodeLength

end Sys2Proof.Laws
end

