-- ==== Sys2Proof/Laws/Stack.lean ====
section
/-! SUPPORT. Many bytes pushed, and many popped. -/

namespace Sys2Proof.Machine

/-- The number a stack address is: the forced bits above the live ones. -/
theorem stackAddr_toNat (p : BitVec 10) (q : BitVec 6) : (p ++ q : Word).toNat = 64 * p.toNat + q.toNat := by
  have := BitVec.toNat_append p q
  show (p ++ q).toNat = _
  rw [this, Nat.shiftLeft_eq, Nat.mul_comm, ← Nat.two_pow_add_eq_or_of_lt q.isLt]

/-- Sixty-four consecutive slots are different addresses. -/
theorem slot_inj {s : State} {j k : Nat} (hj : j < 64) (hk : k < 64) (h : s.slot j = s.slot k) : j = k := by
  unfold State.slot at h
  have := congrArg BitVec.toNat h
  rw [stackAddr_toNat, stackAddr_toNat] at this
  simp only [BitVec.toNat_sub, BitVec.toNat_ofNat] at this
  have := s.sp.isLt
  omega

/-- In a quiet turn bytes pushed to RAM: what is left, byte by byte. -/
theorem pushAll_ram (vs : List Byte) : ∀ (s : State), s.quiet → (∀ k < vs.length, s.kindAt (s.slot k) = some .ram) →
    ∃ t, pushAll s vs = .next t ∧ t = { s with mem := t.mem, sp := s.sp - BitVec.ofNat 6 vs.length } ∧
      (vs.length ≤ 64 → ∀ k < vs.length, t.byteAt (s.slot k) = vs.getD k 0#8) ∧
      (∀ b, (∀ k < vs.length, b ≠ s.slot k) → t.byteAt b = s.byteAt b) := by
  induction vs with
  | nil => intro s _ _; exact ⟨s, rfl, by simp, by simp, fun _ _ => rfl⟩
  | cons v vs ih =>
    intro s hq hs
    have h0 := hs 0 (by simp)
    rw [← State.spAddr_eq_slot] at h0
    have hp := pushByte_ram v hq h0
    generalize hu : ({ s with mem := s.mem.write s.spAddr.toNat v, sp := s.sp - 1 } : State) = u at hp
    have husp : u.sp = s.sp - 1 := by rw [← hu]
    have hud : u.device = s.device := by rw [← hu]
    have huq : u.quiet := by rw [← hu]; exact hq
    have hslot : ∀ k, u.slot k = s.slot (k+1) := by
      intro k
      unfold State.slot
      rw [husp, hud, BitVec.sub_sub]
      congr 2
      apply BitVec.eq_of_toNat_eq; simp; omega
    obtain ⟨t, h1, h2, h3, h4⟩ := ih u huq (by intro k hk; rw [State.kindAt_congr hud, hslot]; exact hs (k+1) (by simpa using hk))
    have hst : StoredAt s u s.spAddr v := storedAt_write (by rw [← hu])
    refine ⟨t, by rw [pushAll, hp]; exact h1, ?_, ?_, ?_⟩
    · rw [h2]; rw [← hu]; simp only [List.length_cons]; congr 1
      rw [BitVec.sub_sub]; congr 1
      apply BitVec.eq_of_toNat_eq; simp; omega
    · intro hl k hk
      simp only [List.length_cons] at hl hk
      cases k with
      | zero =>
        rw [h4]
        · rw [hst]; simp [State.spAddr_eq_slot]
        · intro k hk he
          rw [hslot] at he
          have := slot_inj (by omega) (by omega) he
          omega
      | succ k =>
        rw [← hslot, h3 (by omega) k (by omega)]; simp
    · intro b hb
      simp only [List.length_cons] at hb
      rw [h4 b (by intro k hk; rw [hslot]; exact hb (k+1) (by omega)), hst, if_neg]
      rw [State.spAddr_eq_slot]; exact hb 0 (by omega)

/-- Pushing a word is pushing its two bytes. -/
theorem pushWord_pushAll (s : State) (w : Word) : pushWord s w = pushAll s [lsByte w, msByte w] := by
  simp only [pushWord, pushAll]
  cases pushByte s (lsByte w) <;> simp
  cases pushByte _ (msByte w) <;> rfl

/-- Stacking a context is pushing its five bytes. -/
theorem pushContext_pushAll (s : State) : pushContext s = pushAll s s.context := by
  simp only [pushContext, State.context, pushAll, pushWord, andThen_assoc]
  cases h1 : pushByte s (lsByte s.pc) with
  | fault => rfl
  | refused => rfl
  | next s1 =>
    obtain ⟨m, g, d, e, rfl, -⟩ := pushByte_frame h1
    simp only [andThen_next]
    cases h2 : pushByte _ (msByte s.pc) with
    | fault => rfl
    | refused => rfl
    | next s2 =>
    obtain ⟨m, g, d, e, rfl, -⟩ := pushByte_frame h2
    simp only [andThen_next]
    cases h3 : pushByte _ s.x with
    | fault => rfl
    | refused => rfl
    | next s3 =>
    obtain ⟨m, g, d, e, rfl, -⟩ := pushByte_frame h3
    simp only [andThen_next]
    cases h4 : pushByte _ s.a with
    | fault => rfl
    | refused => rfl
    | next s4 =>
    obtain ⟨m, g, d, e, rfl, -⟩ := pushByte_frame h4
    simp only [andThen_next]
    cases h5 : pushByte _ s.cc.toByte <;> rfl

/-- In a quiet turn up to 64 bytes pushed to RAM are `Pushed`, and nothing but memory and SP changes. -/
theorem pushed_of (s : State) (vs : List Byte) (hq : s.quiet) (hl : vs.length ≤ 64)
    (hs : ∀ k < vs.length, s.kindAt (s.slot k) = some .ram) :
    ∃ t, pushAll s vs = .next t ∧ t = { s with mem := t.mem, sp := t.sp } ∧ Pushed s t vs := by
  obtain ⟨t, h1, h2, h3, h4⟩ := pushAll_ram vs s hq hs
  have hsp : t.sp = s.sp - BitVec.ofNat 6 vs.length := by rw [h2]
  refine ⟨t, h1, ?_, h3 hl, h4, hsp⟩
  rw [hsp]; exact h2

/-- In a quiet turn bytes popped from RAM: those above SP, in order, mod 64. -/
theorem popAll_ram (n : Nat) : ∀ s : State, s.quiet → s.stackIsRam → popAll s n =
    .next ((List.range n).map fun k => s.byteAt (s.device.spPreset ++ (s.sp + BitVec.ofNat 6 (k + 1))),
      { s with sp := s.sp + BitVec.ofNat 6 n }) := by
  induction n with
  | zero => intro s _ _; simp [popAll]
  | succ n ih =>
    intro s hq hs
    have hp := popByte_plain (s := s) hq (State.plainAt_of_ram (hs _))
    rw [popAll, hp, andThen_next]
    simp only
    rw [ih { s with sp := s.sp + 1 } hq hs, andThen_next]
    rw [List.range_succ_eq_map]
    simp only [List.map_cons, List.map_map]
    have e : ∀ k, s.sp + 1 + BitVec.ofNat 6 k = s.sp + BitVec.ofNat 6 (k + 1) := by
      intro k
      rw [BitVec.add_assoc]; congr 1
      apply BitVec.eq_of_toNat_eq; simp; omega
    simp only [e]
    rfl

end Sys2Proof.Machine
end

