-- ==== Sys2Proof/Laws/Turn.lean ====
section
/-! SUPPORT. Which interrupt is accepted, what a turn is, and what a fetch answers and changes. -/

namespace Sys2Proof.Machine

/-! ## The interrupt accepted -/

theorem candidate_eq_some_iff {s : State} {k : Nat} {src : IrqSource} : candidate s k = some (k, src) ↔ Takeable s k src := by
  unfold candidate Takeable State.isPending
  cases hk : s.device.sources[k]? with
  | none => simp
  | some src' =>
    simp only [Option.some.injEq, Option.ite_none_right_eq_some, Prod.mk.injEq, true_and, Bool.and_eq_true, Bool.or_eq_true,
      bne_iff_ne]
    constructor
    · rintro ⟨⟨hp, hw⟩, rfl⟩
      refine ⟨rfl, ?_, fun hh => hw.resolve_left fun h => h hh⟩
      cases h : s.pending[k]? <;> simp_all
    · rintro ⟨rfl, hp, hw⟩
      exact ⟨⟨by simp [hp], (em (s.runState = .halted)).elim (fun h => .inr (hw h)) .inl⟩, rfl⟩

/-- A candidate is the source it was asked of. -/
theorem candidate_fst {s : State} {k j : Nat} {src : IrqSource} (h : candidate s k = some (j, src)) : j = k := by
  unfold candidate at h
  split at h
  · split at h <;> simp at h; exact h.1.symm
  · simp at h

theorem candidate_eq_none_iff {s : State} {k : Nat} : candidate s k = none ↔ ∀ src, ¬ Takeable s k src := by
  constructor
  · intro h src ht; rw [candidate_eq_some_iff.mpr ht] at h; cases h
  · intro h
    cases hc : candidate s k with
    | none => rfl
    | some p =>
      obtain ⟨j, src⟩ := p
      have := candidate_fst hc; subst this
      exact absurd (candidate_eq_some_iff.mp hc) (h src)

theorem acceptedSource_of_undisturbed {s : State} (h : Undisturbed s) : acceptedSource s = none := by
  unfold acceptedSource
  rcases h with h | h
  · simp [h]
  · split
    · rfl
    · rw [List.findSome?_eq_none_iff]; intro k _; exact candidate_eq_none_iff.mpr (h k)

theorem acceptedSource_of_selected {s : State} {k : Nat} {src : IrqSource} (hi : s.cc.i = false) (h : Selected s k src) :
    acceptedSource s = some (k, src) := by
  unfold acceptedSource
  obtain ⟨ht, b, a, hp, hb⟩ := h
  have : b.findSome? (candidate s) = none := by
    rw [List.findSome?_eq_none_iff]; intro j hj; exact candidate_eq_none_iff.mpr (hb j hj)
  rw [if_neg (by simp [hi]), hp, List.findSome?_append, List.findSome?_cons, candidate_eq_some_iff.mpr ht]
  simp [this]

/-- Where every source is ranked and some can be taken, one is selected. -/
theorem exists_selected {s : State} (hr : RanksAll s.device) (h : ∃ k src, Takeable s k src) : ∃ k src, Selected s k src := by
  obtain ⟨k, src, ht⟩ := h
  have hk : k ∈ s.device.priority := hr k (List.getElem?_eq_some_iff.mp ht.1).1
  have : (s.device.priority.findSome? (candidate s)).isSome := by
    rw [List.findSome?_isSome_iff]
    exact ⟨k, hk, by rw [candidate_eq_some_iff.mpr ht]; rfl⟩
  obtain ⟨⟨j, sr⟩, hj⟩ := Option.isSome_iff_exists.mp this
  rw [List.findSome?_eq_some_iff] at hj
  obtain ⟨b, a, l, h1, h2, h3⟩ := hj
  have := candidate_fst h2; subst this
  exact ⟨_, sr, candidate_eq_some_iff.mp h2, b, l, h1, fun x hx => candidate_eq_none_iff.mp (h3 x hx)⟩

/-! ## Turns -/

/-- A turn of the environment is its one input. -/
theorem step_of_env {s : State} {e : Input} {rest : List Turn} (h : s.schedule = .env e :: rest) :
    step s = deliver e { s with schedule := rest } := by
  unfold step nextTurn; simp [h]

theorem step_of_core {s : State} {g : Gaps} {r : List Reset} {rest : List Turn} (h : s.schedule = .core g r :: rest) :
    step s = takeTurn g r { s with schedule := rest } := by
  unfold step nextTurn; simp [h]

/-- A turn without a reset is the core's turn, and nothing of it is left. -/
theorem takeTurn_no_reset (g : Gaps) (s : State) :
    takeTurn g [] s = andThen (coreTurn { s with gaps := g, cut := false }) fun u => .next { u with gaps := [], cut := false } := by
  have h : possibleResets s [] = [] := by unfold possibleResets; split <;> rfl
  unfold takeTurn
  rw [h]
  rfl

/-- The core's turn, in which only other agents' writes happen. -/
theorem step_of_sharedTurn {s t : State} {g : Gaps} (h : SharedTurn s g t) :
    step s = andThen (coreTurn t) fun u => .next { u with gaps := [], cut := false } := by
  rcases h with ⟨h, rfl, rfl⟩ | ⟨rest, h, rfl⟩
  · have : step s = takeTurn [] [] s := by unfold step nextTurn; rw [h]
    rw [this, takeTurn_no_reset]
  · rw [step_of_core h, takeTurn_no_reset]

theorem SharedTurn.cut {s t : State} {g : Gaps} (h : SharedTurn s g t) : t.cut = false := by
  rcases h with ⟨-, -, rfl⟩ | ⟨rest, -, rfl⟩ <;> rfl

theorem SharedTurn.gaps {s t : State} {g : Gaps} (h : SharedTurn s g t) : t.gaps = g := by
  rcases h with ⟨-, -, rfl⟩ | ⟨rest, -, rfl⟩ <;> rfl

theorem CoreTurn.quiet {s t : State} (h : CoreTurn s t) : t.quiet := ⟨SharedTurn.gaps h, SharedTurn.cut h⟩

/-- The accesses of `t`'s turn over, nothing of the turn is left to clear. -/
theorem State.quiet.tidy {s : State} (h : s.quiet) : { s with gaps := [], cut := false } = s := by
  obtain ⟨hg, hc⟩ := h
  rw [← hg, ← hc]

/-- A reset with nothing to keep it from happening cuts the turn short, and takes effect. -/
theorem takeTurn_reset {g : Gaps} {r : Reset} {s : State} (h : r.origin = .watchdog → oscillatorStopped s = false) :
    takeTurn g [r] s = andThen (coreTurn { s with gaps := g, cut := true }) fun t =>
      andThen (resetSequence { t with gaps := r.gaps, cut := false, cycles := s.cycles + wakeCycles s } r.draw) fun u =>
        .next { u with gaps := [], cut := false } := by
  have hp : possibleResets s [r] = [r] := by
    unfold possibleResets
    split
    · next ho =>
      have : (r.origin == .watchdog) = false := by
        rw [beq_eq_false_iff_ne]; intro hr; rw [h hr] at ho; cases ho
      simp [List.dropWhile, this]
    · rfl
  unfold takeTurn
  rw [hp]
  simp only [resetAll, andThen_assoc, andThen_next, List.isEmpty_cons, List.isEmpty_nil, Bool.not_false, Bool.not_true]

/-- A watchdog reset while the oscillator is stopped does not happen. -/
theorem takeTurn_barred {g : Gaps} {r : Reset} {s : State} (h : r.origin = .watchdog) (ho : oscillatorStopped s = true) :
    takeTurn g [r] s = takeTurn g [] s := by
  have hp : possibleResets s [r] = possibleResets s [] := by
    simp [possibleResets, ho, List.dropWhile, h]
  unfold takeTurn
  rw [hp]

/-! ## Fetching -/

@[simp] theorem State.settled_pc (t : State) (n : Nat) : (t.settled n).pc = t.pc := by
  induction n generalizing t with
  | zero => rfl
  | succ n ih => rw [State.settled, ih, State.settle_pc]

/-- A gap that lands after PC has moved on lands as it would have before. -/
theorem State.settle_setPc (t : State) (p : Word) : State.settle { t with pc := p } = { t.settle with pc := p } := by
  rw [State.settle_of_congr (s := t) (t := { t with pc := p }) rfl rfl rfl, State.settle_eq t]

theorem State.settled_setPc (t : State) (p : Word) (n : Nat) :
    State.settled { t with pc := p } n = { t.settled n with pc := p } := by
  induction n generalizing t with
  | zero => rfl
  | succ n ih => rw [State.settled, State.settle_setPc, ih]; rfl

theorem State.settled_quiet {t : State} (h : t.gaps = []) (n : Nat) : t.settled n = t := by
  induction n with
  | zero => rfl
  | succ n ih => rw [State.settled, State.settle_nil h, ih]

/-- The `n` bytes at PC can be fetched as they stand: plain storage no other agent writes in this turn. -/
def Fetchable (t : State) (n : Nat) : Prop :=
  t.cut = false ∧ t.plainRange t.pc n ∧ ∀ k < n, Spared t (t.pc + BitVec.ofNat 16 k)

theorem add_ofNat_succ (a : Word) (n : Nat) : a + BitVec.ofNat 16 (n + 1) = a + 1 + BitVec.ofNat 16 n := by
  rw [BitVec.add_assoc]; congr 1
  apply BitVec.eq_of_toNat_eq; simp; omega

/-- One byte fetched, and what follows it is as it was. -/
theorem Fetchable.succ {t : State} {n : Nat} (h : Fetchable t (n + 1)) :
    ∃ u, fetchByte t = .next (t.byteAt t.pc, u) ∧ u.pc = t.pc + 1 ∧ Fetchable u n ∧
      u.bytesAt u.pc n = t.bytesAt (t.pc + 1) n ∧
      ∀ m q, { u.settled m with pc := q } = { t.settled (m + 1) with pc := q } := by
  obtain ⟨hc, hp, hs⟩ := h
  have h0 : t.pc + BitVec.ofNat 16 0 = t.pc := by simp
  have hs' : ∀ k < n, Spared t (t.pc + 1 + BitVec.ofNat 16 k) := fun k hk => by
    rw [← add_ofNat_succ]; exact hs (k + 1) (by omega)
  refine ⟨{ t.settle with pc := t.pc + 1 },
    fetchByte_spared (State.frozen_of_uncut hc) (h0 ▸ hp 0 (by omega)) (h0 ▸ hs 0 (by omega)), rfl, ⟨?_, ?_, ?_⟩, ?_, ?_⟩
  · exact (State.settle_cut t).trans hc
  · intro k hk
    have := hp (k + 1) (by omega)
    rw [add_ofNat_succ] at this
    exact (State.plainAt_congr (s := t) (t := { t.settle with pc := t.pc + 1 }) (State.settle_device t) _).mpr this
  · intro k hk
    exact (hs' k hk).settle
  · have key : ∀ (m : Nat) (a : Word), (∀ k < m, Spared t (a + BitVec.ofNat 16 k)) →
        State.bytesAt { t.settle with pc := t.pc + 1 } a m = t.bytesAt a m := by
      intro m
      induction m with
      | zero => intro a _; rfl
      | succ m ih =>
        intro a ha
        have ha0 : Spared t a := by simpa using ha 0 (by omega)
        simp only [State.bytesAt]
        rw [ih (a + 1) fun k hk => by rw [← add_ofNat_succ]; exact ha (k + 1) (by omega)]
        congr 1
        exact ha0.byteAt_settle
    exact key n (t.pc + 1) hs'
  · intro m q
    rw [State.settled_setPc]; rfl

theorem fetchOperands_of_take {t : State} {n : Nat} {p : Pre} {op : Byte} {i u : Instr} (hm : opcodeMap p op = some u)
    (hf : Fetchable t n) (hd : takeOperands u (t.bytesAt t.pc n) = .ok (i, [])) :
    fetchOperands p op t = .next (i, { t.settled n with pc := t.pc + BitVec.ofNat 16 n }) := by
  unfold fetchOperands; rw [hm]; simp only
  have hle := Sys2Proof.Laws.operandCount_le u
  unfold takeOperands at hd
  generalize u.operandCount = c at hle hd
  rcases n with _ | n
  · simp only [State.bytesAt] at hd
    interval_cases c <;> simp at hd
    simp [hd, State.settled]
  · obtain ⟨t1, f1, p1, hf1, b1, e1⟩ := hf.succ
    rw [State.bytesAt, ← b1] at hd
    rcases n with _ | n
    · simp only [State.bytesAt] at hd
      interval_cases c <;> simp at hd
      simp only [f1, andThen_next, hd]
      rw [← e1, State.settled, add_ofNat_succ, ← p1]
      simp
    · obtain ⟨t2, f2, p2, hf2, b2, e2⟩ := hf1.succ
      rw [State.bytesAt, ← b2] at hd
      rcases n with _ | n
      · simp only [State.bytesAt] at hd
        interval_cases c <;> simp at hd
        simp only [f1, andThen_next, f2, hd]
        rw [← e1, ← e2, State.settled, add_ofNat_succ, add_ofNat_succ, ← p1, ← p2]
        simp
      · interval_cases c <;> simp [State.bytesAt] at hd

/-- THE FETCH of an instruction whose bytes stand at PC: the instruction they decode to, PC past them, and a gap landed before
each of them (R91, R77). -/
theorem fetchInstr_of_decode {t : State} {n : Nat} {i : Instr} (hf : Fetchable t n)
    (hd : decode (t.bytesAt t.pc n) = .ok (i, [])) :
    fetchInstr t = .next (i, { t.settled n with pc := t.pc + BitVec.ofNat 16 n }) := by
  rcases n with _ | n
  · simp [State.bytesAt, decode, splitPre] at hd
  obtain ⟨t1, f1, p1, hf1, b1, e1⟩ := hf.succ
  rw [State.bytesAt, ← b1] at hd
  unfold decode splitPre at hd
  unfold fetchInstr
  rw [f1, add_ofNat_succ, ← e1, ← p1]
  simp only [andThen_next]
  cases hb : Pre.ofByte (t.byteAt t.pc) with
  | none =>
    simp only [hb] at hd ⊢
    cases hm : opcodeMap .none (t.byteAt t.pc) with
    | none => simp [hm] at hd
    | some u =>
      simp only [hm] at hd
      exact fetchOperands_of_take hm hf1 hd
  | some p =>
    rcases n with _ | n
    · simp [hb, State.bytesAt] at hd
    obtain ⟨t2, f2, p2, hf2, b2, e2⟩ := hf1.succ
    rw [State.bytesAt, ← b2] at hd
    simp only [hb] at hd ⊢
    rw [f2, add_ofNat_succ, ← e2, ← p2]
    simp only [andThen_next]
    cases hm : opcodeMap p (t1.byteAt t1.pc) with
    | none => simp [hm] at hd
    | some u =>
      simp only [hm] at hd
      exact fetchOperands_of_take hm hf2 hd

/-- The rest of a fetch moves PC and changes what reads change. -/
theorem fetchOperands_frame {p : Pre} {op : Byte} {s t : State} {i : Instr} (h : fetchOperands p op s = .next (i, t)) :
    ∃ m g d e w, t = { s with mem := m, gaps := g, draws := d, events := e, pc := w } ∧ s.bus.Reads t.bus := by
  unfold fetchOperands at h
  split at h
  · split at h
    · cases h; exact ⟨_, _, _, _, _, rfl, .refl _⟩
    · cases h
  · split at h
    · cases h; exact ⟨_, _, _, _, _, rfl, .refl _⟩
    · obtain ⟨⟨b, u⟩, h1, h2⟩ := andThen_eq_next.mp h
      obtain ⟨m, g, d, e, rfl, hr⟩ := fetchByte_frame h1
      cases h2; exact ⟨_, _, _, _, _, rfl, hr⟩
    · obtain ⟨⟨b, u⟩, h1, h⟩ := andThen_eq_next.mp h
      obtain ⟨⟨b', u'⟩, h2, h3⟩ := andThen_eq_next.mp h
      obtain ⟨m, g, d, e, rfl, hr⟩ := fetchByte_frame h1
      obtain ⟨m', g', d', e', rfl, hr'⟩ := fetchByte_frame h2
      cases h3; exact ⟨_, _, _, _, _, rfl, hr.trans hr'⟩

/-- A fetch moves PC and changes what reads change. -/
theorem fetchInstr_frame {s t : State} {i : Instr} (h : fetchInstr s = .next (i, t)) :
    ∃ m g d e w, t = { s with mem := m, gaps := g, draws := d, events := e, pc := w } ∧ s.bus.Reads t.bus := by
  unfold fetchInstr at h
  obtain ⟨⟨b, u⟩, h1, h⟩ := andThen_eq_next.mp h
  obtain ⟨m, g, d, e, rfl, hr⟩ := fetchByte_frame h1
  simp only at h
  split at h
  · obtain ⟨⟨b', u'⟩, h2, h3⟩ := andThen_eq_next.mp h
    obtain ⟨m', g', d', e', rfl, hr'⟩ := fetchByte_frame h2
    obtain ⟨m'', g'', d'', e'', w, rfl, hr''⟩ := fetchOperands_frame h3
    exact ⟨_, _, _, _, _, rfl, (hr.trans hr').trans hr''⟩
  · obtain ⟨m', g', d', e', w, rfl, hr'⟩ := fetchOperands_frame h
    exact ⟨_, _, _, _, _, rfl, hr.trans hr'⟩

theorem fetchOperands_fault {p : Pre} {op : Byte} {s : State} {f : Fault} (h : fetchOperands p op s = .fault f) :
    opcodeMap p op = none ∧ f = .illegalOpcode (preByte? p) op := by
  unfold fetchOperands at h
  cases hm : opcodeMap p op with
  | none =>
    simp only [hm] at h
    split at h
    · cases h
    · cases h; exact ⟨rfl, rfl⟩
  | some t =>
    exfalso
    simp only [hm] at h
    revert h
    split
    · simp
    · exact andThen_ne_fault (fetchByte_ne_fault _ _) fun _ => by simp
    · exact andThen_ne_fault (fetchByte_ne_fault _ _) fun _ => andThen_ne_fault (fetchByte_ne_fault _ _) fun _ => by simp

/-- A fetch faults for an undefined pair alone. -/
theorem fetchInstr_fault {s : State} {f : Fault} (h : fetchInstr s = .fault f) :
    ∃ p op, opcodeMap p op = none ∧ f = .illegalOpcode (preByte? p) op := by
  unfold fetchInstr at h
  rcases andThen_eq_fault.mp h with h | ⟨⟨b, u⟩, -, h⟩
  · exact absurd h (fetchByte_ne_fault _ _)
  · simp only at h
    split at h
    · rcases andThen_eq_fault.mp h with h | ⟨⟨b, u⟩, -, h⟩
      · exact absurd h (fetchByte_ne_fault _ _)
      · exact ⟨_, _, fetchOperands_fault h⟩
    · exact ⟨_, _, fetchOperands_fault h⟩

end Sys2Proof.Machine
end

