-- ==== Sys2Proof/Machine/Assembler.lean ====
section
/-! DEFINITION. The assembly text of the manual's listings (`30_encoding.md` R118 to R123): how an instruction is written, the
bytes a directive lays down, and which form the assembler picks. No step of the machine uses it. -/

namespace Sys2Proof

/-- One hexadecimal digit. -/
def hexDigit (n : Nat) : String := (Nat.digitChar (n % 16)).toUpper.toString

/-- `$hh`, a byte in hexadecimal (R119). -/
def Byte.text (b : Byte) : String := "$" ++ hexDigit (b.toNat / 16) ++ hexDigit b.toNat

/-- `$hhhh`, a word in hexadecimal (R119). -/
def Word.text (w : Word) : String :=
  "$" ++ hexDigit (w.toNat / 4096) ++ hexDigit (w.toNat / 256) ++ hexDigit (w.toNat / 16) ++ hexDigit w.toNat

def Index.text : Index → String
  | .x => "X"
  | .y => "Y"

def Reg.text : Reg → String
  | .a => "A"
  | .x => "X"
  | .y => "Y"

def StackReg.text : StackReg → String
  | .a => "A"
  | .x => "X"
  | .y => "Y"
  | .cc => "CC"

/-- The operand text of each addressing mode (R120). -/
def MemForm.text : MemForm → String
  | .short aa => Byte.text aa
  | .long addr => Word.text addr
  | .idx0 r => "(" ++ r.text ++ ")"
  | .idx1 r off => "(" ++ Byte.text off ++ "," ++ r.text ++ ")"
  | .idx2 r off => "(" ++ Word.text off ++ "," ++ r.text ++ ")"
  | .indS ptr => "[" ++ Byte.text ptr ++ "]"
  | .indL ptr => "[" ++ Byte.text ptr ++ ".w]"
  | .indxS r ptr => "([" ++ Byte.text ptr ++ "]," ++ r.text ++ ")"
  | .indxL r ptr => "([" ++ Byte.text ptr ++ ".w]," ++ r.text ++ ")"

def Src.text : Src → String
  | .imm v => "#" ++ Byte.text v
  | .mem m => m.text

def Dst.text : Dst → String
  | .reg r => r.text
  | .mem m => m.text

/-- The target of a relative jump of `length` bytes at address `at_` (R120: "a label"; R142, R143). -/
def Rel.text (at_ : Word) (length : Nat) : Rel → String
  | .direct disp => Word.text (at_ + BitVec.ofNat 16 length + disp.signExtend 16)
  | .indirect ptr => "[" ++ Byte.text ptr ++ "]"

/-- Byte and bit of a bit instruction (R120: `addr,#pos` or `[addr],#pos`). -/
def BitForm.text (pos : BitVec 3) : BitForm → String
  | .direct addr => Byte.text addr ++ ",#" ++ hexDigit pos.toNat
  | .indirect ptr => "[" ++ Byte.text ptr ++ "],#" ++ hexDigit pos.toNat

/-- The source text of an instruction at address `at_`: mnemonic, then the operands in the order destination, source (R118,
R120). -/
def Instr.text (at_ : Word) (i : Instr) : String :=
  match i with
  | .adc s => "adc A," ++ s.text
  | .add s => "add A," ++ s.text
  | .sub s => "sub A," ++ s.text
  | .sbc s => "sbc A," ++ s.text
  | .mul r => "mul " ++ r.text ++ ",A"
  | .and s => "and A," ++ s.text
  | .or s => "or A," ++ s.text
  | .xor s => "xor A," ++ s.text
  | .cpl d => "cpl " ++ d.text
  | .neg d => "neg " ++ d.text
  | .inc d => "inc " ++ d.text
  | .dec d => "dec " ++ d.text
  | .cp r s => "cp " ++ r.text ++ "," ++ s.text
  | .tnz d => "tnz " ++ d.text
  | .bcp s => "bcp A," ++ s.text
  | .ld r s => "ld " ++ r.text ++ "," ++ s.text
  | .ldStore m r => "ld " ++ m.text ++ "," ++ r.text
  | .ldRegReg d s => "ld " ++ d.text ++ "," ++ s.text
  | .ldSReg r => "ld S," ++ r.text
  | .ldRegS r => "ld " ++ r.text ++ ",S"
  | .clr d => "clr " ++ d.text
  | .push r => "push " ++ r.text
  | .pop r => "pop " ++ r.text
  | .rsp => "rsp"
  | .sll d => "sll " ++ d.text
  | .sla d => "sla " ++ d.text
  | .srl d => "srl " ++ d.text
  | .sra d => "sra " ++ d.text
  | .rlc d => "rlc " ++ d.text
  | .rrc d => "rrc " ++ d.text
  | .swap d => "swap " ++ d.text
  | .bset n b => "bset " ++ b.text n
  | .bres n b => "bres " ++ b.text n
  | .btjt n b r => "btjt " ++ b.text n ++ "," ++ Rel.text at_ i.length (.direct r)
  | .btjf n b r => "btjf " ++ b.text n ++ "," ++ Rel.text at_ i.length (.direct r)
  | .jra t => "jra " ++ t.text at_ i.length
  | .jrt t => "jrt " ++ t.text at_ i.length
  | .jrf t => "jrf " ++ t.text at_ i.length
  | .jp m => "jp " ++ m.text
  | .call m => "call " ++ m.text
  | .callr t => "callr " ++ t.text at_ i.length
  | .nop => "nop"
  | .ret => "ret"
  | .jrc t => "jrc " ++ t.text at_ i.length
  | .jrnc t => "jrnc " ++ t.text at_ i.length
  | .jrult t => "jrult " ++ t.text at_ i.length
  | .jruge t => "jruge " ++ t.text at_ i.length
  | .jreq t => "jreq " ++ t.text at_ i.length
  | .jrne t => "jrne " ++ t.text at_ i.length
  | .jrmi t => "jrmi " ++ t.text at_ i.length
  | .jrpl t => "jrpl " ++ t.text at_ i.length
  | .jrh t => "jrh " ++ t.text at_ i.length
  | .jrnh t => "jrnh " ++ t.text at_ i.length
  | .jrm t => "jrm " ++ t.text at_ i.length
  | .jrnm t => "jrnm " ++ t.text at_ i.length
  | .jrugt t => "jrugt " ++ t.text at_ i.length
  | .jrule t => "jrule " ++ t.text at_ i.length
  | .jrih t => "jrih " ++ t.text at_ i.length
  | .jril t => "jril " ++ t.text at_ i.length
  | .trap => "trap"
  | .wfi => "wfi"
  | .halt => "halt"
  | .iret => "iret"
  | .sim => "sim"
  | .rim => "rim"
  | .scf => "scf"
  | .rcf => "rcf"

/-- `dc.b`: the bytes as they are (R121). -/
def dcB (vs : List Byte) : List Byte := vs

/-- `dc.w`: each word MS byte first (R121). -/
def dcW : List Word → List Byte
  | [] => []
  | w :: ws => msByte w :: lsByte w :: dcW ws

/-- `dc.l`: a 32-bit value MS byte first (R121). -/
def dcL (v : BitVec 32) : List Byte :=
  [v.extractLsb' 24 8, v.extractLsb' 16 8, v.extractLsb' 8 8, v.extractLsb' 0 8]

/-- The direct form the assembler picks for an address: short where it is in page zero (R122). -/
def MemForm.ofAddress (w : Word) : MemForm := if w.toNat < 256 then .short (lsByte w) else .long w

/-- The indexed form the assembler picks for an offset: short where it is in $00..$FF (R122). -/
def MemForm.ofOffset (r : Index) (w : Word) : MemForm := if w.toNat < 256 then .idx1 r (lsByte w) else .idx2 r w

/-- The displacement byte that reaches `target` from the next instruction at `next`, where one does (R142: -128 to +127). -/
def displacement (next target : Word) : Option Byte :=
  let d := (target - next).toInt
  if -128 ≤ d ∧ d ≤ 127 then some (BitVec.ofInt 8 d) else none

end Sys2Proof
end

