-- ==== Sys2Proof/Tests/Slice0.lean ====
section
/-! SUPPORT. The model's own tests. Expected bytes and results are the spec's: the encodings of `30_encoding.md` and of the
instruction pages, and the worked examples of `95_test_vectors.md` (V numbers) and of the instruction rules (R numbers). Last come
the witnesses: for each statement with hypotheses, a state and operands that meet them. -/

namespace Sys2Proof.Tests

open Sys2Proof.Machine

/-! ## Well-formedness: an ill-formed term for each check -/

theorem test_wf_ld_index : (Instr.ld .x (.mem (.idx1 .y 0x10#8))).wf = false := by decide
theorem test_wf_cp_index : (Instr.cp .y (.mem (.indxS .x 0x10#8))).wf = false := by decide
theorem test_wf_store_index : (Instr.ldStore (.idx0 .y) .x).wf = false := by decide
theorem test_wf_transfer_to_itself : (Instr.ldRegReg .a .a).wf = false := by decide
theorem test_wf_rmw_long : (Instr.inc (.mem (.long 0x1000#16))).wf = false := by decide
theorem test_wf_rmw_long_indexed : (Instr.clr (.mem (.idx2 .x 0x1000#16))).wf = false := by decide
theorem test_wf_rmw_long_indirect : (Instr.neg (.mem (.indL 0x10#8))).wf = false := by decide
theorem test_wf_rmw_long_indirect_indexed : (Instr.tnz (.mem (.indxL .x 0x10#8))).wf = false := by decide

/-! ## Decoding: one word of each constructor, written out from its encoding -/

/-- The decoder reads exactly `i` from `bs`. -/
def reads (bs : List Byte) (i : Instr) : Bool := decide (decode bs = .ok (i, []))

theorem test_decode_arithmetic :
    reads [0xA9#8, 0x15#8] (.adc (.imm 0x15#8)) ∧ reads [0x92#8, 0xCB#8, 0x40#8] (.add (.mem (.indL 0x40#8))) ∧
    reads [0x90#8, 0xD0#8, 0x12#8, 0x34#8] (.sub (.mem (.idx2 .y 0x1234#16))) ∧
    reads [0xF2#8] (.sbc (.mem (.idx0 .x))) ∧ reads [0x42#8] (.mul .x) ∧ reads [0x90#8, 0x42#8] (.mul .y) := by decide

theorem test_decode_logical :
    reads [0xA4#8, 0x35#8] (.and (.imm 0x35#8)) ∧ reads [0xBA#8, 0x80#8] (.or (.mem (.short 0x80#8))) ∧
    reads [0x92#8, 0xE8#8, 0x40#8] (.xor (.mem (.indxS .x 0x40#8))) ∧ reads [0x33#8, 0x10#8] (.cpl (.mem (.short 0x10#8))) ∧
    reads [0x70#8] (.neg (.mem (.idx0 .x))) := by decide

theorem test_decode_increment_compare :
    reads [0x3C#8, 0x10#8] (.inc (.mem (.short 0x10#8))) ∧ reads [0x90#8, 0x6A#8, 0xFF#8] (.dec (.mem (.idx1 .y 0xFF#8))) ∧
    reads [0xA1#8, 0x12#8] (.cp .a (.imm 0x12#8)) ∧ reads [0xA3#8, 0x55#8] (.cp .x (.imm 0x55#8)) ∧
    reads [0x91#8, 0xB3#8, 0x40#8] (.cp .y (.mem (.indS 0x40#8))) ∧ reads [0x4D#8] (.tnz (.reg .a)) ∧
    reads [0xA5#8, 0xA5#8] (.bcp (.imm 0xA5#8)) := by decide

theorem test_decode_load :
    reads [0xC6#8, 0x06#8, 0xE5#8] (.ld .a (.mem (.long 0x06E5#16))) ∧ reads [0x90#8, 0xAE#8, 0x08#8] (.ld .y (.imm 0x08#8)) ∧
    reads [0x91#8, 0xD6#8, 0x40#8] (.ld .a (.mem (.indxL .y 0x40#8))) ∧ reads [0xB7#8, 0x20#8] (.ldStore (.short 0x20#8) .a) ∧
    reads [0x90#8, 0xEF#8, 0x10#8] (.ldStore (.idx1 .y 0x10#8) .y) ∧ reads [0x93#8] (.ldRegReg .x .y) ∧
    reads [0x90#8, 0x93#8] (.ldRegReg .y .x) ∧ reads [0x95#8] (.ldSReg .a) ∧ reads [0x90#8, 0x96#8] (.ldRegS .y) := by decide

theorem test_decode_clear_stack :
    reads [0x5F#8] (.clr (.reg .x)) ∧ reads [0x8A#8] (.push .cc) ∧ reads [0x90#8, 0x89#8] (.push .y) ∧ reads [0x84#8] (.pop .a) ∧
    reads [0x90#8, 0x85#8] (.pop .y) ∧ reads [0x9C#8] .rsp := by decide

theorem test_decode_shift :
    reads [0x48#8] (.sll (.reg .a)) ∧ reads [0x54#8] (.srl (.reg .x)) ∧ reads [0x77#8] (.sra (.mem (.idx0 .x))) ∧
    reads [0x91#8, 0x69#8, 0x40#8] (.rlc (.mem (.indxS .y 0x40#8))) ∧ reads [0x90#8, 0x56#8] (.rrc (.reg .y)) ∧
    reads [0x92#8, 0x3E#8, 0x42#8] (.swap (.mem (.indS 0x42#8))) := by decide

theorem test_decode_bit :
    reads [0x1E#8, 0x10#8] (.bset 7#3 (.direct 0x10#8)) ∧ reads [0x1D#8, 0x10#8] (.bres 6#3 (.direct 0x10#8)) ∧
    reads [0x92#8, 0x14#8, 0x40#8] (.bset 2#3 (.indirect 0x40#8)) ∧
    reads [0x0E#8, 0x10#8, 0x05#8] (.btjt 7#3 (.direct 0x10#8) 0x05#8) ∧
    reads [0x92#8, 0x07#8, 0x40#8, 0xFC#8] (.btjf 3#3 (.indirect 0x40#8) 0xFC#8) := by decide

theorem test_decode_jump :
    reads [0x20#8, 0xFE#8] (.jra (.direct 0xFE#8)) ∧ reads [0x21#8, 0x10#8] (.jrf (.direct 0x10#8)) ∧
    reads [0xCC#8, 0x12#8, 0x34#8] (.jp (.long 0x1234#16)) ∧ reads [0x92#8, 0xCD#8, 0x40#8] (.call (.indL 0x40#8)) ∧
    reads [0x92#8, 0xAD#8, 0x40#8] (.callr (.indirect 0x40#8)) ∧ reads [0x9D#8] .nop ∧ reads [0x81#8] .ret := by decide

theorem test_decode_branch :
    reads [0x22#8, 0x10#8] (.jrugt (.direct 0x10#8)) ∧ reads [0x23#8, 0x10#8] (.jrule (.direct 0x10#8)) ∧
    reads [0x24#8, 0x10#8] (.jrnc (.direct 0x10#8)) ∧ reads [0x25#8, 0x10#8] (.jrc (.direct 0x10#8)) ∧
    reads [0x26#8, 0xFD#8] (.jrne (.direct 0xFD#8)) ∧ reads [0x92#8, 0x27#8, 0x89#8] (.jreq (.indirect 0x89#8)) ∧
    reads [0x28#8, 0x10#8] (.jrnh (.direct 0x10#8)) ∧ reads [0x29#8, 0x10#8] (.jrh (.direct 0x10#8)) ∧
    reads [0x2A#8, 0xF6#8] (.jrpl (.direct 0xF6#8)) ∧ reads [0x2B#8, 0x10#8] (.jrmi (.direct 0x10#8)) ∧
    reads [0x2C#8, 0x10#8] (.jrnm (.direct 0x10#8)) ∧ reads [0x2D#8, 0x10#8] (.jrm (.direct 0x10#8)) ∧
    reads [0x2E#8, 0xFE#8] (.jril (.direct 0xFE#8)) ∧ reads [0x2F#8, 0x10#8] (.jrih (.direct 0x10#8)) := by decide

theorem test_decode_system :
    reads [0x83#8] .trap ∧ reads [0x8F#8] .wfi ∧ reads [0x8E#8] .halt ∧ reads [0x80#8] .iret ∧ reads [0x9B#8] .sim ∧
    reads [0x9A#8] .rim ∧ reads [0x99#8] .scf ∧ reads [0x98#8] .rcf := by decide

/-- The second mnemonics have the words of their twins (R112), which is what the decoder answers. -/
theorem test_decode_second_mnemonics :
    encode (.sla (.mem (.idx0 .x))) = [0x78#8] ∧ encode (.jrt (.direct 0xFE#8)) = [0x20#8, 0xFE#8] ∧
    encode (.jruge (.direct 0x10#8)) = [0x24#8, 0x10#8] ∧ encode (.jrult (.direct 0x10#8)) = [0x25#8, 0x10#8] ∧
    reads [0x78#8] (.sll (.mem (.idx0 .x))) := by decide

/-- V30.4 to V30.8: pairs that are no instruction. -/
theorem test_decode_undefined :
    decode [0x87#8] = .error (.illegalOpcode .none 0x87#8) ∧ decode [0x90#8, 0x9D#8] = .error (.illegalOpcode .pdy 0x9D#8) ∧
    decode [0x90#8, 0x90#8] = .error (.illegalOpcode .pdy 0x90#8) ∧ decode [0x91#8, 0xA6#8, 0x00#8] = .error (.illegalOpcode .piy 0xA6#8) ∧
    decode [0x92#8, 0xF6#8] = .error (.illegalOpcode .pix 0xF6#8) ∧ decode [0xC6#8, 0x06#8] = .error .truncated := by decide

/-- How many op-codes are defined after a pre-byte. -/
def definedCount (p : Pre) : Nat := ((List.range 256).filter fun op => (opcodeMap p (BitVec.ofNat 8 op)).isSome).length

set_option maxRecDepth 4096 in
/-- R103 to R107: 100, 50 and 137 op-codes after the pre-bytes; 27 undefined ones and the three pre-bytes without one. -/
theorem test_defined_counts :
    definedCount .none = 226 ∧ definedCount .pdy = 100 ∧ definedCount .piy = 50 ∧ definedCount .pix = 137 := by decide

/-- The table's numbering: two match bytes are one big-endian number (R113), other bytes count on from the first. -/
theorem test_decodeTableWord :
    decodeTableWord 16 0x90EF = some (.ldStore (.idx1 .y 0x00#8) .y) ∧ decodeTableWord 8 0xC6 = some (.ld .a (.mem (.long 0x0000#16))) ∧
    decodeTableWord 16 0x55A6 = some (.ld .a (.imm 0x55#8)) ∧ decodeTableWord 8 0x87 = none := by decide

/-- R118 to R122: the listing text of an instruction, a directive, the short form picked. -/
theorem test_assembler :
    Instr.text 0x052D#16 (.ld .a (.mem (.indS 0x4B#8))) = "ld A,[$4B]" ∧ Instr.text 0x04C0#16 (.jra (.direct 0xFE#8)) = "jra $04C0" ∧
    dcL 0x11223344#32 = [0x11#8, 0x22#8, 0x33#8, 0x44#8] ∧ MemForm.ofAddress 0x0055#16 = .short 0x55#8 ∧
    displacement 0x04A9#16 0x04C0#16 = some 0x17#8 := by decide

/-! ## Cycle counts (R406) and lengths (R111) -/

theorem test_cycles :
    (Instr.ld .a (.mem (.indxL .y 0x40#8))).cycles = 7 ∧ (Instr.ldStore (.idx1 .y 0x10#8) .y).cycles = 6 ∧
    (Instr.dec (.mem (.idx1 .y 0xFF#8))).cycles = 7 ∧ (Instr.call (.indL 0x40#8)).cycles = 8 ∧
    (Instr.btjt 0#3 (.indirect 0x40#8) 0xFC#8).cycles = 7 ∧ (Instr.pop .y).cycles = 5 := by decide

theorem test_lengths :
    (Instr.btjt 0#3 (.indirect 0x40#8) 0xFC#8).length = 4 ∧ (Instr.ld .a (.mem (.indL 0x40#8))).length = 3 ∧
    (Instr.jp (.long 0x1234#16)).length = 3 ∧ Instr.nop.length = 1 := by decide

/-! ## Instructions: one step on a small state -/

/-- The condition codes with the value CC has as a byte. -/
abbrev flags (v : Byte) : CC := CC.ofByte v

/-- The state of the test vectors: PC at the instruction after a one-byte one at $1000, SP at $017F, CC $E0, all RAM. -/
def start : State := { State.reset with pc := 0x1001#16, cc := flags 0xE0#8 }

/-- `i` at `s` answers a next state, and `p` holds of it. -/
def gives (i : Instr) (s : State) (p : State → Bool) : Bool :=
  match exec i s with
  | .next t => p t
  | .fault _ | .refused _ => false

/-- R240: `A9 0F` with A = 00, C = 1. -/
theorem test_adc : gives (.adc (.imm 0x0F#8)) { start with cc := flags 0xE1#8 } fun t => t.a == 0x10#8 && t.cc == flags 0xF0#8 := by
  decide

/-- R241: `AB 80` with A = 80; `AB 94` with A = B5, C = 1. -/
theorem test_add : gives (.add (.imm 0x80#8)) { start with a := 0x80#8 } fun t => t.a == 0x00#8 && t.cc == flags 0xE3#8 := by decide
theorem test_add_carry_ignored :
    gives (.add (.imm 0x94#8)) { start with a := 0xB5#8, cc := flags 0xE1#8 } fun t => t.a == 0x49#8 && t.cc == flags 0xE1#8 := by
  decide

/-- R242: `A0 0A` with A = 05, H = 1. -/
theorem test_sub :
    gives (.sub (.imm 0x0A#8)) { start with a := 0x05#8, cc := flags 0xF0#8 } fun t => t.a == 0xFB#8 && t.cc == flags 0xF5#8 := by decide

/-- R243: `A2 00` with A = 00, C = 1. -/
theorem test_sbc : gives (.sbc (.imm 0x00#8)) { start with cc := flags 0xE1#8 } fun t => t.a == 0xFF#8 && t.cc == flags 0xE5#8 := by
  decide

/-- R244: `42` with X = A = FF and all flags but I set; `90 42` with Y = A = 10. -/
theorem test_mul :
    gives (.mul .x) { start with a := 0xFF#8, x := 0xFF#8, cc := flags 0xF7#8 } fun t =>
      t.x == 0xFE#8 && t.a == 0x01#8 && t.cc == flags 0xE6#8 := by decide
theorem test_mul_y : gives (.mul .y) { start with a := 0x10#8, y := 0x10#8, x := 0x77#8 } fun t =>
    t.y == 0x01#8 && t.a == 0x00#8 && t.x == 0x77#8 := by decide

/-- R200: `B4 10` with A = 0F, ($10) = F0. -/
theorem test_and : gives (.and (.mem (.short 0x10#8))) { start with a := 0x0F#8, mem := [(0x10, 0xF0#8)] } fun t =>
    t.a == 0x00#8 && t.cc == flags 0xE2#8 := by decide

/-- R201: `AA 35` with A = 80. -/
theorem test_or : gives (.or (.imm 0x35#8)) { start with a := 0x80#8 } fun t => t.a == 0xB5#8 && t.cc == flags 0xE4#8 := by decide

/-- R202: `A8 FF` with A = 55. -/
theorem test_xor : gives (.xor (.imm 0xFF#8)) { start with a := 0x55#8 } fun t => t.a == 0xAA#8 && t.cc == flags 0xE4#8 := by decide

/-- R203: `33 10` with ($10) = FF. -/
theorem test_cpl : gives (.cpl (.mem (.short 0x10#8))) { start with mem := [(0x10, 0xFF#8)] } fun t =>
    t.byteAt 0x0010#16 == 0x00#8 && t.cc == flags 0xE3#8 := by decide

/-- R204: `70` with X = 20, ($20) = 7F; `40` with A = 00, C = 1. -/
theorem test_neg : gives (.neg (.mem (.idx0 .x))) { start with x := 0x20#8, mem := [(0x20, 0x7F#8)] } fun t =>
    t.byteAt 0x0020#16 == 0x81#8 && t.cc == flags 0xE5#8 := by decide
theorem test_neg_zero : gives (.neg (.reg .a)) { start with cc := flags 0xE1#8 } fun t => t.a == 0x00#8 && t.cc == flags 0xE2#8 := by
  decide

/-- R180: `3C 10` with ($10) = 7F. -/
theorem test_inc : gives (.inc (.mem (.short 0x10#8))) { start with mem := [(0x10, 0x7F#8)] } fun t =>
    t.byteAt 0x0010#16 == 0x80#8 && t.cc == flags 0xE4#8 := by decide

/-- R181: `90 6A FF` with Y = FF, ($01FE) = 01: no 8-bit wrap. -/
theorem test_dec : gives (.dec (.mem (.idx1 .y 0xFF#8))) { start with y := 0xFF#8, mem := [(0x1FE, 0x01#8)] } fun t =>
    t.byteAt 0x01FE#16 == 0x00#8 && t.cc == flags 0xE2#8 := by decide

/-- R182: `A1 20` with A = 10; R183: `90 A3 01` with Y = 0. -/
theorem test_cp : gives (.cp .a (.imm 0x20#8)) { start with a := 0x10#8 } fun t => t.a == 0x10#8 && t.cc == flags 0xE5#8 := by decide
theorem test_cp_y : gives (.cp .y (.imm 0x01#8)) start fun t => t.y == 0x00#8 && t.cc == flags 0xE5#8 := by decide

/-- R184: `3D 10` with ($10) = 80, C = 1. -/
theorem test_tnz : gives (.tnz (.mem (.short 0x10#8))) { start with cc := flags 0xE1#8, mem := [(0x10, 0x80#8)] } fun t =>
    t.cc == flags 0xE5#8 := by decide

/-- R185: `A5 80` with A = A5. -/
theorem test_bcp : gives (.bcp (.imm 0x80#8)) { start with a := 0xA5#8 } fun t => t.a == 0xA5#8 && t.cc == flags 0xE4#8 := by decide

/-- R160: `91 D6 40` with Y = 2, ($40) = 12 34, ($1236) = 01 (V41.17); V41.14: a word pointer at FF. -/
theorem test_ld :
    gives (.ld .a (.mem (.indxL .y 0x40#8))) { start with y := 0x02#8, mem := [(0x40, 0x12#8), (0x41, 0x34#8), (0x1236, 0x01#8)] }
      fun t => t.a == 0x01#8 := by decide
theorem test_ld_pointer_at_ff :
    gives (.ld .a (.mem (.indL 0xFF#8))) { start with mem := [(0xFF, 0x12#8), (0x100, 0x34#8), (0x1234, 0x56#8)] }
      fun t => t.a == 0x56#8 := by decide

/-- R162: `D7 FF FF` with A = 81, X = 2 wraps to $0001; R163: `90 EF 10` with Y = 5. -/
theorem test_ldStore : gives (.ldStore (.idx2 .x 0xFFFF#16) .a) { start with a := 0x81#8, x := 0x02#8 } fun t =>
    t.byteAt 0x0001#16 == 0x81#8 && t.cc == flags 0xE4#8 := by decide
theorem test_ldStore_y : gives (.ldStore (.idx1 .y 0x10#8) .y) { start with y := 0x05#8 } fun t => t.byteAt 0x0015#16 == 0x05#8 := by
  decide

/-- R164: `93` with X = 1, Y = 80, Z = 1: no flag changes (D3). -/
theorem test_ldRegReg : gives (.ldRegReg .x .y) { start with x := 0x01#8, y := 0x80#8, cc := flags 0xE2#8 } fun t =>
    t.x == 0x80#8 && t.cc == flags 0xE2#8 := by decide

/-- R165: `94` with X = 85. -/
theorem test_ldSReg : gives (.ldSReg .x) { start with x := 0x85#8 } fun t => t.spAddr == 0x0145#16 := by decide

/-- R166: `90 96` with SP = $0145. -/
theorem test_ldRegS : gives (.ldRegS .y) { start with sp := 0x05#6 } fun t => t.y == 0x45#8 := by decide

/-- R167: `3F 10` with ($10) = 77, N = C = 1. -/
theorem test_clr : gives (.clr (.mem (.short 0x10#8))) { start with cc := flags 0xE5#8, mem := [(0x10, 0x77#8)] } fun t =>
    t.byteAt 0x0010#16 == 0x00#8 && t.cc == flags 0xE3#8 := by decide

/-- R168: `88` with SP = $0140 wraps; `8A` with H = I = C = 1 pushes F9. -/
theorem test_push : gives (.push .a) { start with a := 0x42#8, sp := 0x00#6 } fun t =>
    t.byteAt 0x0140#16 == 0x42#8 && t.spAddr == 0x017F#16 := by decide
theorem test_push_cc : gives (.push .cc) { start with cc := { h := true, i := true, n := false, z := false, c := true } } fun t =>
    t.byteAt 0x017F#16 == 0xF9#8 := by decide

/-- R169: `90 85` with SP = $017F, ($0140) = 66; `86` with ($017F) = 03. -/
theorem test_pop : gives (.pop .y) { start with mem := [(0x140, 0x66#8)] } fun t => t.y == 0x66#8 && t.spAddr == 0x0140#16 := by decide
theorem test_pop_cc : gives (.pop .cc) { start with sp := 0x3E#6, cc := flags 0xF8#8, mem := [(0x17F, 0x03#8)] } fun t =>
    t.cc == { h := false, i := false, n := false, z := true, c := true } := by decide

/-- R170: `9C` with SP = $0152. -/
theorem test_rsp : gives .rsp { start with sp := 0x12#6 } fun t => t.spAddr == 0x017F#16 := by decide

/-- R260, R261: `48` with A = 81. -/
theorem test_sll : gives (.sll (.reg .a)) { start with a := 0x81#8 } fun t => t.a == 0x02#8 && t.cc == flags 0xE1#8 := by decide
theorem test_sla : gives (.sla (.reg .a)) { start with a := 0x81#8 } fun t => t.a == 0x02#8 && t.cc == flags 0xE1#8 := by decide

/-- R262: `44` with A = 81, N = 1. -/
theorem test_srl : gives (.srl (.reg .a)) { start with a := 0x81#8, cc := flags 0xE4#8 } fun t =>
    t.a == 0x40#8 && t.cc == flags 0xE1#8 := by decide

/-- R263: `47` with A = 81. -/
theorem test_sra : gives (.sra (.reg .a)) { start with a := 0x81#8 } fun t => t.a == 0xC0#8 && t.cc == flags 0xE5#8 := by decide

/-- R264: `49` with A = 80, C = 1. -/
theorem test_rlc : gives (.rlc (.reg .a)) { start with a := 0x80#8, cc := flags 0xE1#8 } fun t =>
    t.a == 0x01#8 && t.cc == flags 0xE1#8 := by decide

/-- R265: `76` with X = 30, ($30) = 02, C = 1. -/
theorem test_rrc : gives (.rrc (.mem (.idx0 .x))) { start with x := 0x30#8, cc := flags 0xE1#8, mem := [(0x30, 0x02#8)] } fun t =>
    t.byteAt 0x0030#16 == 0x81#8 && t.cc == flags 0xE4#8 := by decide

/-- R266: `4E` with A = A5. -/
theorem test_swap : gives (.swap (.reg .a)) { start with a := 0xA5#8 } fun t => t.a == 0x5A#8 && t.cc == flags 0xE0#8 := by decide

/-- R220: `92 14 40` with ($40) = 20, ($20) = 01. -/
theorem test_bset : gives (.bset 2#3 (.indirect 0x40#8)) { start with mem := [(0x20, 0x01#8), (0x40, 0x20#8)] } fun t =>
    t.byteAt 0x0020#16 == 0x05#8 := by decide

/-- R221: `1D 10` with ($10) = FF. -/
theorem test_bres : gives (.bres 6#3 (.direct 0x10#8)) { start with mem := [(0x10, 0xFF#8)] } fun t =>
    t.byteAt 0x0010#16 == 0xBF#8 := by decide

/-- R222: `92 00 40 FC` at $1000 with ($40) = 20, ($20) = 01. -/
theorem test_btjt : gives (.btjt 0#3 (.indirect 0x40#8) 0xFC#8)
    { start with pc := 0x1004#16, mem := [(0x20, 0x01#8), (0x40, 0x20#8)] } fun t => t.pc == 0x1000#16 && t.cc == flags 0xE1#8 := by
  decide

/-- R223: `07 10 FD` at $1000 with ($10) = 08: not taken, C = 1. -/
theorem test_btjf : gives (.btjf 3#3 (.direct 0x10#8) 0xFD#8) { start with pc := 0x1003#16, mem := [(0x10, 0x08#8)] } fun t =>
    t.pc == 0x1003#16 && t.cc == flags 0xE1#8 := by decide

/-- R281: `20 7F` at $FFF0 wraps; R282 the same mnemonic twice; R283: `21 10` at $1000. -/
theorem test_jra : gives (.jra (.direct 0x7F#8)) { start with pc := 0xFFF2#16 } fun t => t.pc == 0x0071#16 := by decide
theorem test_jrt : gives (.jrt (.direct 0xFE#8)) { start with pc := 0x04C2#16 } fun t => t.pc == 0x04C0#16 := by decide
theorem test_jrf : gives (.jrf (.direct 0x10#8)) { start with pc := 0x1002#16 } fun t => t.pc == 0x1002#16 := by decide

/-- R284: `92 DC 40` with ($40) = FF FE, X = 4. -/
theorem test_jp : gives (.jp (.indxL .x 0x40#8)) { start with x := 0x04#8, mem := [(0x40, 0xFF#8), (0x41, 0xFE#8)] } fun t =>
    t.pc == 0x0002#16 := by decide

/-- R285: `92 CD 40` at $1000 with ($40) = 30 00, SP = $0140. -/
theorem test_call : gives (.call (.indL 0x40#8)) { start with pc := 0x1003#16, sp := 0x00#6, mem := [(0x40, 0x30#8)] } fun t =>
    t.pc == 0x3000#16 && t.byteAt 0x0140#16 == 0x03#8 && t.byteAt 0x017F#16 == 0x10#8 && t.spAddr == 0x017E#16 := by decide

/-- R286: `AD 10` at $1000. -/
theorem test_callr : gives (.callr (.direct 0x10#8)) { start with pc := 0x1002#16 } fun t =>
    t.pc == 0x1012#16 && t.byteAt 0x017F#16 == 0x02#8 && t.byteAt 0x017E#16 == 0x10#8 := by decide

/-- R287. -/
theorem test_nop : gives .nop { start with cc := flags 0xFF#8 } fun t => t.pc == 0x1001#16 && t.cc == flags 0xFF#8 := by decide

/-- R288: `81` with SP = $017F, ($0140) = AB CD. -/
theorem test_ret : gives .ret { start with mem := [(0x140, 0xAB#8), (0x141, 0xCD#8)] } fun t =>
    t.pc == 0xABCD#16 && t.spAddr == 0x0141#16 := by decide

/-- A branch with displacement $10 at $1000 goes to $1012 with the first byte in CC, and to $1002 with the second. -/
def branches (i : Rel → Instr) (taken : Byte) (other : Byte) : Bool :=
  gives (i (.direct 0x10#8)) { start with pc := 0x1002#16, cc := flags taken } (fun t => t.pc == 0x1012#16) &&
    gives (i (.direct 0x10#8)) { start with pc := 0x1002#16, cc := flags other } fun t => t.pc == 0x1002#16

/-- R301 to R304. -/
theorem test_jrc : branches .jrc 0xE1#8 0xFE#8 := by decide
theorem test_jrnc : branches .jrnc 0xFE#8 0xE1#8 := by decide
theorem test_jrult : branches .jrult 0xE1#8 0xFE#8 := by decide
theorem test_jruge : branches .jruge 0xFE#8 0xE1#8 := by decide
/-- R305 to R308. -/
theorem test_jreq : branches .jreq 0xE2#8 0xFD#8 := by decide
theorem test_jrne : branches .jrne 0xFD#8 0xE2#8 := by decide
theorem test_jrmi : branches .jrmi 0xE4#8 0xFB#8 := by decide
theorem test_jrpl : branches .jrpl 0xFB#8 0xE4#8 := by decide
/-- R309 to R312. -/
theorem test_jrh : branches .jrh 0xF0#8 0xEF#8 := by decide
theorem test_jrnh : branches .jrnh 0xEF#8 0xF0#8 := by decide
theorem test_jrm : branches .jrm 0xE8#8 0xF7#8 := by decide
theorem test_jrnm : branches .jrnm 0xF7#8 0xE8#8 := by decide
/-- R313: taken with (C,Z) = (0,0) alone; R314: taken with the other three. -/
theorem test_jrugt : branches .jrugt 0xFC#8 0xE2#8 ∧ branches .jrugt 0xFC#8 0xE1#8 := by decide
theorem test_jrule : branches .jrule 0xE2#8 0xFC#8 ∧ branches .jrule 0xE1#8 0xFC#8 := by decide

/-- R315, R316: `2F 10` and `2E FE` at $1000. -/
theorem test_jrih : gives (.jrih (.direct 0x10#8)) { start with pc := 0x1002#16, extIntLine := true } fun t => t.pc == 0x1012#16 := by
  decide
theorem test_jril : gives (.jril (.direct 0xFE#8)) { start with pc := 0x1002#16, extIntLine := true } fun t => t.pc == 0x1002#16 := by
  decide

/-- R330: `83` at $2000 with A = 11, X = 22, CC = F5, the trap vector 30 00. -/
theorem test_trap :
    gives .trap { start with pc := 0x2001#16, a := 0x11#8, x := 0x22#8, cc := flags 0xF5#8, mem := [(0xFFFC, 0x30#8)] } fun t =>
      t.pc == 0x3000#16 && t.cc == flags 0xFD#8 && t.spAddr == 0x017A#16 &&
        t.bytesAt 0x017B#16 5 == [0xF5#8, 0x11#8, 0x22#8, 0x20#8, 0x01#8] := by decide

/-- R331, R332. -/
theorem test_wfi : gives .wfi { start with cc := flags 0xE8#8 } fun t => t.runState == .waiting && t.cc == flags 0xE0#8 := by decide
theorem test_halt : gives .halt { start with cc := flags 0xE8#8 } fun t => t.runState == .halted && t.cc == flags 0xE0#8 := by decide

/-- R333: `80` with SP = $017A and F5 11 22 20 01 above it. -/
theorem test_iret :
    gives .iret { start with sp := 0x3A#6, mem := [(0x17B, 0xF5#8), (0x17C, 0x11#8), (0x17D, 0x22#8), (0x17E, 0x20#8), (0x17F, 0x01#8)] }
      fun t => t.pc == 0x2001#16 && t.a == 0x11#8 && t.x == 0x22#8 && t.cc == flags 0xF5#8 && t.spAddr == 0x017F#16 := by decide

/-- R334 to R337. -/
theorem test_sim : gives .sim start fun t => t.cc == flags 0xE8#8 := by decide
theorem test_rim : gives .rim { start with cc := flags 0xFF#8 } fun t => t.cc == flags 0xF7#8 := by decide
theorem test_scf : gives .scf start fun t => t.cc == flags 0xE1#8 := by decide
theorem test_rcf : gives .rcf { start with cc := flags 0xFF#8 } fun t => t.cc == flags 0xFE#8 := by decide

/-! ## Reset and steps -/

theorem test_reset_memory : State.reset.mem.wf := by decide
theorem test_reset_pc : State.reset.pc = State.reset.wordAt State.reset.device.resetVector := by decide

/-- `step` at `s` answers a next state, and `p` holds of it. -/
def steps (s : State) (p : State → Bool) : Bool :=
  match step s with
  | .next t => p t
  | .fault _ | .refused _ => false

/-- The instruction `withFetchWord` places is the one the next step runs: `AE FF` and `90 93` from reset. -/
theorem test_withFetchWord :
    steps (State.reset.withFetchWord 16 0xFFAE) (fun t => t.x == 0xFF#8 && t.pc == 0x0002#16 && t.cycles == 2) ∧
    steps (State.reset.withFetchWord 16 0x9093) (fun t => t.pc == 0x0002#16 && t.cycles == 3) := by decide

/-- Program P2: source 0 ends WAIT; its entry stacks 08 10 00 00 E2 at $017F down and goes to $2000. -/
theorem test_interrupt_entry :
    steps { start with pc := 0x1008#16, cc := flags 0xE2#8, runState := .waiting, pending := [true, false, false, false],
                       mem := [(0xFFFA, 0x20#8)] }
      fun t => t.pc == 0x2000#16 && t.cc == flags 0xEA#8 && t.spAddr == 0x017A#16 && t.runState == .running &&
        t.pending == [false, false, false, false] && t.bytesAt 0x017B#16 5 == [0xE2#8, 0x00#8, 0x00#8, 0x10#8, 0x08#8] := by decide

/-! ## Other agents inside an instruction

The expected results follow from R67 and R74 (the value of the most recent write by any agent), D11 (their accesses fall between
two byte accesses of the core) and R359 (a reset takes effect at once). -/

/-- R402's lost update: `3C 10` reads $0010 as 42 in its third access; a write of AA that lands after that is overwritten by 43,
one that lands before it is read and incremented. -/
theorem test_write_between_accesses :
    gives (.inc (.mem (.short 0x10#8))) { start with mem := [(0x10, 0x42#8)], gaps := [[], [(0x0010#16, 0xAA#8)]] }
      (fun t => t.byteAt 0x0010#16 == 0x43#8) ∧
    gives (.inc (.mem (.short 0x10#8))) { start with mem := [(0x10, 0x42#8)], gaps := [[(0x0010#16, 0xAA#8)]] }
      (fun t => t.byteAt 0x0010#16 == 0xAB#8) := by decide

/-- A word pointer changed between the reads of its two bytes: `92 C6 40` reads 12 and then the new 78. -/
theorem test_pointer_changed_between_bytes :
    gives (.ld .a (.mem (.indL 0x40#8)))
      { start with mem := [(0x40, 0x12#8), (0x41, 0x34#8), (0x1278, 0x99#8)], gaps := [[], [(0x0040#16, 0x56#8), (0x0041#16, 0x78#8)]] }
      fun t => t.a == 0x99#8 := by decide

/-! ## Witnesses: the hypotheses of each statement, met together

`next_of` turns a computed result into the equation a hypothesis asks for. -/

/-- The result is the next value `v`. -/
def isNext {α : Type} [DecidableEq α] (r : Res α) (v : α) : Bool :=
  match r with
  | .next w => decide (w = v)
  | .fault _ | .refused _ => false

theorem next_of {α : Type} [DecidableEq α] {r : Res α} {v : α} (h : isNext r v = true) : r = .next v := by
  unfold isNext at h
  split at h
  · simp only [decide_eq_true_eq] at h; rw [h]
  all_goals cases h

/-- A map with a region of every kind and a hole: RAM to $017F, a device to $01FF, EEPROM to $02FF, ROM from $8000. -/
def mixedMap : List Region :=
  [ { first := 0x0000#16, last := 0x017F#16, kind := .ram }
  , { first := 0x0180#16, last := 0x01FF#16, kind := .device }
  , { first := 0x0200#16, last := 0x02FF#16, kind := .eeprom }
  , { first := 0x8000#16, last := 0xFFFF#16, kind := .rom } ]

/-- A device with that map, a `by_software` source 1, and its ROM: a handler address $9000 in each vector, and at $8000 the
instruction `ld A,#$55`, then the undefined op-code $31. -/
def mixed : State :=
  { State.reset with
    pc := 0x8000#16
    x := 0x10#8
    device :=
      { Config.device with
        memoryMap := mixedMap
        clrReadsDest := true
        sources :=
          [ { vector := 0xFFFA#16, ack := .onEntry, wakesHalt := true }
          , { vector := 0xFFF8#16, ack := .bySoftware, wakesHalt := false } ]
        priority := [1, 0] }
    mem :=
      [ (0x10, 0x42#8), (0xFF, 0x80#8), (0x100, 0x02#8), (0x8000, 0xA6#8), (0x8001, 0x55#8), (0x8002, 0x31#8), (0xFFF8, 0x90#8)
      , (0xFFFA, 0x90#8), (0xFFFC, 0x90#8), (0xFFFE, 0x90#8) ]
    pending := [false, false] }

theorem mixed_stackIsRam : mixed.stackIsRam := by unfold State.stackIsRam; decide

theorem start_allRam : start.allRam := by
  intro a
  simp [State.kindAt, start, State.reset, Config.device, BitVec.le_def]
  omega

theorem mixed_plain (a : Word) (h : mixed.kindAt a = some .rom) : mixed.plainAt a := .inr (.inl h)

/-- DecodeOfEncode, CycleCounts, EncodeOfDecode, LengthByPreByteAndOpcode: a long offset at its greatest value, and a row. -/
theorem witness_encoding :
    (Instr.ld .a (.mem (.idx2 .y 0xFFFF#16))).wf = true ∧
    decode [0x90#8, 0xD6#8, 0xFF#8, 0xFF#8] = .ok (.ld .a (.mem (.idx2 .y 0xFFFF#16)), []) ∧ opcodeMap .pix 0xAD#8 ≠ none := by decide

/-- StepRunsDecodedInstruction and LowPowerWaits take a state by either way a core's turn comes. -/
theorem witness_CoreTurn : CoreTurn mixed mixed ∧ CoreTurn { mixed with schedule := [.core [] []] } mixed :=
  ⟨.inl ⟨rfl, rfl, rfl⟩, .inr ⟨[], rfl, rfl⟩⟩

/-- What another agent writes in the witnesses: a byte before the first access, two before the second. -/
def dma : Gaps := [[(0x0010#16, 0xAA#8)], [(0x0010#16, 0xBB#8), (0x0011#16, 0xCC#8)]]

/-- StepRunsDecodedInstruction: I set, and I clear with no request; alone, and with another agent writing elsewhere. -/
theorem witness_StepRunsDecodedInstruction :
    SharedTurn mixed [] mixed ∧ SharedTurn { mixed with schedule := [.core dma []] } dma { mixed with gaps := dma } ∧
    (∀ k < 2, Spared { mixed with gaps := dma } (mixed.pc + BitVec.ofNat 16 k)) ∧
    Undisturbed mixed ∧ Undisturbed { mixed with cc := flags 0xE0#8 } ∧ mixed.runState = .running ∧
    mixed.plainRange mixed.pc 2 ∧ decode (mixed.bytesAt mixed.pc 2) = .ok (.ld .a (.imm 0x55#8), []) := by
  refine ⟨witness_CoreTurn.1, .inr ⟨[], rfl, rfl⟩, ?_, .inl rfl, .inr ?_, rfl, ?_, by decide⟩
  · intro k hk ws hws w hw
    have h : w.1 = 0x0010#16 ∨ w.1 = 0x0011#16 := by
      simp only [dma, List.mem_cons, List.not_mem_nil, or_false] at hws
      rcases hws with rfl | rfl <;> simp at hw <;> rcases hw with rfl | rfl <;> simp
    have : k = 0 ∨ k = 1 := by omega
    rcases this with rfl | rfl <;> rcases h with h | h <;> rw [h] <;> decide
  · rintro (_ | _ | k) src ⟨_, h, _⟩ <;> simp [mixed, State.reset] at h
  · intro k hk
    have : k = 0 ∨ k = 1 := by omega
    rcases this with rfl | rfl <;> exact mixed_plain _ (by decide)

/-- IllegalOpcodeFaults and OnlyIllegalOpcodesFault. -/
theorem witness_IllegalOpcodeFaults :
    ∃ s : State, CoreTurn s s ∧ Undisturbed s ∧ s.runState = .running ∧ s.plainRange s.pc 1 ∧
      decode (s.bytesAt s.pc 1) = .error (.illegalOpcode .none 0x31#8) ∧ step s = .fault (.illegalOpcode none 0x31#8) := by
  refine ⟨{ mixed with pc := 0x8002#16 }, .inl ⟨rfl, rfl, rfl⟩, .inl rfl, rfl, ?_, by decide, by rfl⟩
  intro k hk
  have : k = 0 := by omega
  subst this
  exact .inr (.inl (by decide))

/-- CycleCounts: a $90 form with the form it is built on, a $92 form with the form of its op-code, and a $91 form with the $92
form of its op-code. -/
theorem witness_CycleCounts :
    encode (.ld .a (.mem (.idx1 .y 0x40#8))) = 0x90#8 :: encode (.ld .a (.mem (.idx1 .x 0x40#8))) ∧
    encode (.ld .a (.mem (.indS 0x40#8))) = 0x92#8 :: 0xB6#8 :: [0x40#8] ∧
    encode (.ld .a (.mem (.short 0x40#8))) = 0xB6#8 :: [0x40#8] ∧
    encode (.ld .a (.mem (.indxL .y 0x40#8))) = 0x91#8 :: 0xD6#8 :: [0x40#8] ∧
    encode (.ld .a (.mem (.indxL .x 0x40#8))) = 0x92#8 :: 0xD6#8 :: [0x40#8] := by decide

/-- ExecCompletesOnRam. -/
theorem witness_ExecCompletesOnRam : start.allRam := start_allRam

/-- With source 0 requesting and I clear, in the given run state. -/
def requested (r : RunState) : State := { mixed with cc := flags 0xE0#8, runState := r, pending := [true, false] }

theorem requested_Selected (r : RunState) : Selected (requested r) 0 { vector := 0xFFFA#16, ack := .onEntry, wakesHalt := true } := by
  refine ⟨⟨rfl, rfl, fun _ => rfl⟩, [1], [], rfl, ?_⟩
  intro j hj src h
  have : j = 1 := by simpa using hj
  subst this
  obtain ⟨_, h, _⟩ := h
  simp [requested] at h

theorem requested_plain (r : RunState) (a : Word) (h : mixed.kindAt a = some .rom) : (requested r).plainAt a := .inr (.inl h)

/-- InterruptEntry, InterruptThenIret: running, waiting and halted. -/
theorem witness_InterruptEntry (r : RunState) :
    CoreTurn (requested r) (requested r) ∧ (requested r).cc.i = false ∧
    Selected (requested r) 0 { vector := 0xFFFA#16, ack := .onEntry, wakesHalt := true } ∧ (requested r).stackIsRam ∧
    (requested r).plainAt 0xFFFA#16 ∧ (requested r).plainAt (0xFFFA#16 + 1) :=
  ⟨.inl ⟨rfl, rfl, rfl⟩, rfl, requested_Selected r, mixed_stackIsRam, requested_plain r _ (by decide),
    requested_plain r _ (by decide)⟩

/-- InterruptThenIret: the entry completes. -/
theorem witness_InterruptThenIret : steps (requested .halted) (fun u => u.pc == 0x9000#16 && u.cycles == 4096) := by decide

/-- PendingRequestIsTaken: in every run state. -/
theorem witness_PendingRequestIsTaken (r : RunState) :
    CoreTurn (requested r) (requested r) ∧ (requested r).cc.i = false ∧ RanksAll (requested r).device ∧
    (∃ k src, Takeable (requested r) k src) ∧ (requested r).stackIsRam ∧
    ∀ (k : Nat) (src : IrqSource), (requested r).device.sources[k]? = some src →
      (requested r).plainAt src.vector ∧ (requested r).plainAt (src.vector + 1) := by
  refine ⟨.inl ⟨rfl, rfl, rfl⟩, rfl, ?_, ⟨0, _, (requested_Selected r).1⟩, mixed_stackIsRam, ?_⟩
  · intro k hk
    have : k = 0 ∨ k = 1 := by simp [requested, mixed] at hk; omega
    rcases this with rfl | rfl
    · exact List.mem_cons_of_mem _ List.mem_cons_self
    · exact List.mem_cons_self
  · rintro (_ | _ | k) src h
    · cases h; exact ⟨requested_plain r _ (by decide), requested_plain r _ (by decide)⟩
    · cases h; exact ⟨requested_plain r _ (by decide), requested_plain r _ (by decide)⟩
    · simp [requested, mixed] at h

/-- LowPowerWaits: in WAIT with no request; in HALT with a request of a source that cannot wake it. -/
theorem witness_LowPowerWaits :
    (∃ s : State, CoreTurn s s ∧ Inv s ∧ Undisturbed s ∧ s.runState = .waiting) ∧
    ∃ s : State, CoreTurn s s ∧ Inv s ∧ Undisturbed s ∧ s.runState = .halted ∧ s.pending = [false, true] := by
  refine ⟨⟨{ mixed with cc := flags 0xE0#8, runState := .waiting }, .inl ⟨rfl, rfl, rfl⟩,
      ⟨by decide, ⟨rfl, rfl⟩, rfl, fun _ => rfl⟩, .inr ?_, rfl⟩,
    ⟨{ mixed with cc := flags 0xE0#8, runState := .halted, pending := [false, true] }, .inl ⟨rfl, rfl, rfl⟩,
      ⟨by decide, ⟨rfl, rfl⟩, rfl, fun _ => rfl⟩, .inr ?_, rfl, rfl⟩⟩
  · rintro (_ | _ | k) src ⟨_, h, _⟩ <;> simp [mixed, State.reset] at h
  · rintro (_ | _ | k) src ⟨h1, h, h2⟩
    · simp at h
    · cases h1; cases h2 rfl
    · simp at h

/-- RequestIsLatched: running; in HALT a source of the wake set; a latch that is set already. -/
theorem witness_RequestIsLatched :
    ∃ s : State, s.schedule = .env (.request 0) :: [] ∧ s.runState = .halted ∧
      (∃ src, s.device.sources[0]? = some src ∧ src.wakesHalt = true) ∧ s.pending[0]? = some true :=
  ⟨{ requested .halted with schedule := [.env (.request 0)] }, rfl, rfl, ⟨_, rfl, rfl⟩, rfl⟩

/-- EnvironmentInputs: each input, a bus write at the last byte of the RAM and just above it, and writes between two accesses, at
an address written twice (the last one counts), at one in no gap, and in ROM. -/
theorem witness_EnvironmentInputs :
    (∃ s : State, s.schedule = .env (.line false) :: []) ∧
    (∃ s : State, s.schedule = .env (.withdraw 1) :: [] ∧ s.runState ≠ .halted) ∧
    (∃ s : State, s.schedule = .env (.busWrite 0x017F#16 0xAA#8) :: [] ∧ s.runState ≠ .halted ∧ s.kindAt 0x017F#16 = some .ram) ∧
    (∃ s : State, s.schedule = .env (.busWrite 0x0180#16 0xAA#8) :: [] ∧ s.runState ≠ .halted ∧ s.kindAt 0x0180#16 ≠ some .ram) ∧
    mixed.gaps = [] ∧
    ∃ (s : State) (ws : List (Word × Byte)) (g : Gaps), s.gaps = ws :: g ∧ lastWrite ws 0x0010#16 = some 0xBB#8 ∧ s.settle.byteAt 0x0010#16 = 0xBB#8 ∧
      lastWrite ws 0x0011#16 = none ∧ s.kindAt 0x8000#16 ≠ some .ram ∧ s.settle.byteAt 0x8000#16 = 0xA6#8 :=
  ⟨⟨{ mixed with schedule := [.env (.line false)] }, rfl⟩,
    ⟨{ mixed with schedule := [.env (.withdraw 1)] }, rfl, by decide⟩,
    ⟨{ mixed with schedule := [.env (.busWrite 0x017F#16 0xAA#8)] }, rfl, by decide, by decide⟩,
    ⟨{ mixed with schedule := [.env (.busWrite 0x0180#16 0xAA#8)] }, rfl, by decide, by decide⟩, rfl,
    { mixed with gaps := [[(0x0010#16, 0xAA#8), (0x0010#16, 0xBB#8), (0x8000#16, 0xCC#8)]] },
    [(0x0010#16, 0xAA#8), (0x0010#16, 0xBB#8), (0x8000#16, 0xCC#8)], [], rfl, by decide, by decide, by decide, by decide, by decide⟩

/-- What a reset draws in the witnesses. -/
def draw : ResetDraw where
  a := 0xA5#8
  x := 0x5A#8
  y := 0x77#8
  h := true
  n := false
  z := true
  c := true
  ram := [(0x0080#16, 0xDD#8), (0x0080#16, 0xEE#8), (0x8000#16, 0xEE#8)]

/-- A halted core with one turn to come. -/
def haltedWith (t : Turn) : State := { mixed with cc := flags 0xE0#8, runState := .halted, schedule := [t] }

/-- HaltStopsPeripherals: each of the three inputs, and a watchdog reset. -/
theorem witness_HaltStopsPeripherals :
    (haltedWith (.env (.request 1))).runState = .halted ∧
    (∀ src, mixed.device.sources[1]? = some src → src.wakesHalt = false) ∧
    (∀ e, (haltedWith (.env e)).schedule = [.env e]) ∧
    (haltedWith (.core [] [⟨.watchdog, draw, []⟩])).schedule = [.core [] [⟨.watchdog, draw, []⟩]] ∧
    Undisturbed (haltedWith (.core [] [⟨.watchdog, draw, []⟩])) := by
  refine ⟨rfl, ?_, fun _ => rfl, rfl, .inr ?_⟩
  · intro src h
    cases h; rfl
  · rintro (_ | _ | k) src ⟨_, h, _⟩ <;> simp [haltedWith, mixed, State.reset] at h

/-- `inc $10` at the end of ROM, on a running core, with the turn `t` to come. -/
def incWith (t : Turn) : State :=
  { mixed with
    pc := 0x9000#16
    mem := [(0x10, 0x42#8), (0x9000, 0x3C#8), (0x9001, 0x10#8), (0xFFFE, 0x90#8)]
    schedule := [t] }

/-- ResetTakesEffect: an external reset of a halted core, and a watchdog reset that cuts `inc $10` short after its read, with
another agent writing on the way. A RAM byte drawn twice takes the last value drawn; a drawn ROM byte changes nothing. -/
theorem witness_ResetTakesEffect :
    mixed.plainAt mixed.device.resetVector ∧ mixed.plainAt (mixed.device.resetVector + 1) ∧
    (∃ u0, coreTurn { haltedWith (.core [] [⟨.external, draw, []⟩]) with schedule := [], gaps := [], cut := true } = .next u0) ∧
    steps (haltedWith (.core [] [⟨.external, draw, []⟩])) (fun t => t.pc == 0x9000#16 && t.a == 0xA5#8 && t.cycles == 4096 &&
      t.byteAt 0x0080#16 == 0xEE#8 && t.byteAt 0x8000#16 == 0xA6#8) ∧
    (incWith (.core (dma ++ [[]]) [⟨.watchdog, draw, []⟩])).runState ≠ .halted ∧
    (∃ u0, coreTurn { incWith (.core [] []) with schedule := [], gaps := dma ++ [[]], cut := true } = .next u0) ∧
    steps (incWith (.core (dma ++ [[]]) [⟨.watchdog, draw, []⟩])) (fun t => t.pc == 0x9000#16 && t.byteAt 0x0010#16 == 0xBB#8 &&
      t.byteAt 0x0011#16 == 0xCC#8 && t.byteAt 0x0080#16 == 0xEE#8) :=
  ⟨.inr (.inl (by decide)), .inr (.inl (by decide)), ⟨_, rfl⟩, by decide, by decide, ⟨_, rfl⟩, by decide⟩

/-- `bset $80,#7` on a device byte at $0080, with the turn `t` to come. -/
def bsetDevice (t : Turn) : State :=
  { mixed with
    pc := 0x9000#16
    device := { mixed.device with memoryMap := { first := 0x0080#16, last := 0x0080#16, kind := .device } :: mixedMap }
    mem := [(0x9000, 0x1E#8), (0x9001, 0x80#8), (0xFFFE, 0x90#8)]
    schedule := [t] }

/-- R359: a reset three accesses into `1E 80` leaves the read of the device byte and no write; the reset sequence follows. -/
theorem test_reset_between_read_and_write :
    ∃ t, step (bsetDevice (.core [[], [], []] [⟨.external, draw, []⟩])) = .next t ∧
      t.events = [.read 0x0080#16 (Config.deviceByte 0)] ∧ t.draws = 1 ∧ t.pc = 0x9000#16 ∧ t.a = 0xA5#8 ∧ t.cc.i = true :=
  ⟨_, rfl, rfl, rfl, rfl, rfl, rfl⟩

/-- StepKeepsInv, StepKeepsParameters: a state with the invariant, masked or asleep, whose step completes. -/
theorem witness_StepKeepsInv :
    Inv mixed ∧ Inv (requested .halted) ∧ steps mixed (fun _ => true) ∧ steps (requested .halted) (fun _ => true) := by
  refine ⟨⟨by decide, ⟨rfl, rfl⟩, rfl, fun h => absurd rfl h⟩, ⟨by decide, ⟨rfl, rfl⟩, rfl, fun _ => rfl⟩, by decide, by decide⟩

/-- FlagWriters, RegisterWriters, StackPointerMoves, ProgramCounterWriters, MemoryWriters, ExecLeavesEnvironment: NOP completes and
writes nothing; PUSH, RET, WFI and MUL complete. -/
theorem witness_frames :
    mixed.device.ldRegRegSetsNZ = false ∧ exec .nop mixed = .next mixed ∧ Instr.nop.changesH = false ∧ Instr.nop.changesI = false ∧
    Instr.nop.changesNZ = false ∧ Instr.nop.changesC = false ∧ Instr.nop.changesReg .a = false ∧ Instr.nop.changesPc = false ∧
    Instr.nop.storesMem = false ∧ gives (.push .a) mixed (fun t => t.sp == 0x3E#6) ∧
    gives .wfi mixed (fun t => t.runState == .waiting) ∧ (Instr.mul .x).changesReg .y = false ∧ gives (.mul .x) mixed (fun _ => true) := by
  refine ⟨rfl, rfl, ?_⟩
  decide

/-- A turn that a reset has cut short, or cuts short when the gaps `g` are used up. -/
def cutAfter (g : Gaps) (s : State) : State := { s with gaps := g, cut := true }

/-- MemoryWriters, ExecLeavesEnvironment: `ld A,$10` while another agent writes $0010 and spares $0020, and once a reset has cut
the turn short. -/
theorem witness_MemoryWriters :
    Spared { start with gaps := [[(0x0010#16, 0xAA#8)]] } 0x0020#16 ∧
    gives (.ld .a (.mem (.short 0x10#8))) { start with gaps := [[(0x0010#16, 0xAA#8)]] } (fun t => t.a == 0xAA#8) ∧
    (cutAfter [] start).frozen = true ∧
    gives (.ldStore (.short 0x10#8) .a) (cutAfter [] { start with a := 0xAA#8 }) (fun t => t.byteAt 0x0010#16 == 0x00#8) := by
  refine ⟨?_, by decide⟩
  intro ws hws w hw
  simp only [List.mem_cons, List.not_mem_nil, or_false] at hws
  subst hws
  simp at hw
  subst hw
  decide

/-- FlagReaders: every flag changed for an instruction that reads none; every flag but C for one that reads C. -/
theorem witness_FlagReaders :
    (Instr.inc (.reg .a)).readsH = false ∧ (Instr.inc (.reg .a)).readsI = false ∧ (Instr.inc (.reg .a)).readsN = false ∧
    (Instr.inc (.reg .a)).readsZ = false ∧ (Instr.inc (.reg .a)).readsC = false ∧ (flags 0xFF#8).h ≠ start.cc.h ∧
    (Instr.adc (.imm 0x00#8)).readsC = true ∧ (flags 0xFE#8).c = start.cc.c ∧ (Instr.jrm (.direct 0x10#8)).readsI = true := by decide

/-- YIsNeverStacked, CallsAndTrapReturn: a trap, a call, a relative call and a return from interrupt that complete. -/
theorem witness_CallsAndTrapReturn :
    start.quiet ∧ start.stackIsRam ∧ gives .trap start (fun t => t.y == start.y) ∧ gives .iret start (fun t => t.y == start.y) ∧
    gives (.call (.indL 0xFF#8)) start (fun _ => true) ∧ gives (.callr (.direct 0x80#8)) start (fun _ => true) := by
  refine ⟨⟨rfl, rfl⟩, fun p => start_allRam _, ?_⟩
  decide

/-- AccessByRegionKind, and every statement over `StoresByte`: an address of each kind, at the edges of the regions, in a turn
that goes on and in one cut short. -/
theorem witness_AccessByRegionKind :
    mixed.frozen = false ∧ (cutAfter dma mixed).frozen = false ∧ (cutAfter [] mixed).frozen = true ∧
    mixed.kindAt 0x0000#16 = some .ram ∧ mixed.kindAt 0x017F#16 = some .ram ∧ mixed.kindAt 0x0180#16 = some .device ∧
    mixed.kindAt 0x01FF#16 = some .device ∧ mixed.kindAt 0x0200#16 = some .eeprom ∧ mixed.kindAt 0x0300#16 = none ∧
    mixed.kindAt 0x7FFF#16 = none ∧ mixed.kindAt 0x8000#16 = some .rom ∧ mixed.kindAt 0xFFFF#16 = some .rom := by decide

/-- EffectiveAddresses: a byte pointer and, at $FF, a word pointer whose second byte is at $0100. -/
theorem witness_EffectiveAddresses :
    readByte mixed (BitVec.ofNat 16 (0x10#8).toNat) = .next (0x42#8, mixed) ∧
    readByte mixed (BitVec.ofNat 16 (0xFF#8).toNat) = .next (0x80#8, mixed) ∧
    readByte mixed (BitVec.ofNat 16 ((0xFF#8).toNat + 1)) = .next (0x02#8, mixed) ∧
    effAddr (.indL 0xFF#8) mixed = .next (0x8002#16, mixed) :=
  ⟨next_of (by decide), next_of (by decide), next_of (by decide), next_of (by decide)⟩

/-- CanonicalMemoryIsUnique: one memory, built in two orders. -/
theorem witness_CanonicalMemoryIsUnique :
    Memory.wf (Memory.write (Memory.write [] 1 0xAA#8) 2 0xBB#8) ∧ Memory.wf (Memory.write (Memory.write [] 2 0xBB#8) 1 0xAA#8) ∧
    ∀ a < 65536, Memory.read (Memory.write (Memory.write [] 1 0xAA#8) 2 0xBB#8) a =
      Memory.read (Memory.write (Memory.write [] 2 0xBB#8) 1 0xAA#8) a := by
  refine ⟨by decide, by decide, fun a _ => ?_⟩
  rw [show Memory.write (Memory.write [] 1 0xAA#8) 2 0xBB#8 = Memory.write (Memory.write [] 2 0xBB#8) 1 0xAA#8 by decide]

/-- StackIsLifo, StackWraps: a RAM stack, and 64 bytes to push. -/
theorem witness_StackIsLifo : mixed.quiet ∧ mixed.stackIsRam ∧ (List.replicate 64 0xAA#8 : List Byte).length = 64 :=
  ⟨⟨rfl, rfl⟩, mixed_stackIsRam, by decide⟩

/-- A source operand that is read: an immediate, a byte of RAM, a byte of ROM, and a device-region byte, whatever its value. -/
theorem witness_source :
    readSrc (.imm 0xFF#8) mixed = .next (0xFF#8, mixed) ∧ readSrc (.mem (.idx0 .x)) mixed = .next (0x42#8, mixed) ∧
    readSrc (.mem (.indL 0xFF#8)) mixed = .next (0x31#8, mixed) ∧
    ∃ v t, readSrc (.mem (.long 0x0180#16)) mixed = .next (v, t) ∧ t.draws = 1 :=
  ⟨rfl, next_of (by decide), next_of (by decide), ⟨_, _, rfl, rfl⟩⟩

/-- AddResult, SubtractResult, LogicResult, LoadResult: a source operand that is read. -/
theorem witness_AddResult : ∃ src s s1 m, readSrc src s = .next (m, s1) := ⟨_, _, _, _, witness_source.2.1⟩
theorem witness_SubtractResult : ∃ src s s1 m, readSrc src s = .next (m, s1) := ⟨_, _, _, _, witness_source.2.2.1⟩
theorem witness_LogicResult : ∃ src s s1 m, readSrc src s = .next (m, s1) := ⟨_, _, _, _, witness_source.1⟩
theorem witness_LoadResult : ∃ src s s1 m, readSrc src s = .next (m, s1) := ⟨_, _, _, _, witness_source.2.1⟩

/-- CompareAndTestResult: both operands. -/
theorem witness_CompareAndTestResult :
    readSrc (.mem (.idx0 .x)) mixed = .next (0x42#8, mixed) ∧ readDst (.mem (.short 0x10#8)) mixed = .next (0x42#8, mixed) ∧
    readDst (.reg .x) mixed = .next (0x10#8, mixed) := ⟨witness_source.2.1, next_of (by decide), rfl⟩

/-- UnsignedBranches: a comparison that completes, and a displacement at its least value. -/
theorem witness_UnsignedBranches :
    readSrc (.imm 0x10#8) mixed = .next (0x10#8, mixed) ∧ gives (.cp .x (.imm 0x10#8)) mixed (fun t => t.cc.z) ∧
    readRel (.direct 0x80#8) mixed = .next (0x80#8, mixed) := ⟨rfl, by decide, rfl⟩

/-- StoreResult, ClearResult, and the memory form of every statement over `Rewrites`: effective addresses of every kind, read where
the form reads. -/
theorem witness_destination :
    effAddr (.short 0x10#8) mixed = .next (0x0010#16, mixed) ∧ readByte mixed 0x0010#16 = .next (0x42#8, mixed) ∧
    effAddr (.idx1 .x 0xFF#8) mixed = .next (0x010F#16, mixed) ∧
    (∃ v t, effAddr (.long 0x0180#16) mixed = .next (0x0180#16, mixed) ∧ readByte mixed 0x0180#16 = .next (v, t)) ∧
    effAddr (.long 0x8002#16) mixed = .next (0x8002#16, mixed) ∧ readByte mixed 0x8002#16 = .next (0x31#8, mixed) ∧
    effAddr (.long 0x0300#16) mixed = .next (0x0300#16, mixed) ∧ mixed.kindAt 0x0300#16 = none :=
  ⟨next_of (by decide), next_of (by decide), next_of (by decide), ⟨_, _, rfl, rfl⟩, rfl, next_of (by decide), rfl, by decide⟩

theorem witness_StoreResult : ∃ m s s1 ea, effAddr m s = .next (ea, s1) := ⟨_, _, _, _, witness_destination.1⟩

/-- ClearResult: either value of `CLR_READS_DEST`, with the read it then makes. -/
theorem witness_ClearResult :
    start.device.clrReadsDest = false ∧ effAddr (.short 0x10#8) start = .next (0x0010#16, start) ∧ mixed.device.clrReadsDest = true ∧
    effAddr (.short 0x10#8) mixed = .next (0x0010#16, mixed) ∧ readByte mixed 0x0010#16 = .next (0x42#8, mixed) ∧
    effAddr (.long 0x0300#16) mixed = .next (0x0300#16, mixed) ∧ mixed.frozen = false ∧ mixed.kindAt 0x0300#16 = none :=
  ⟨rfl, next_of (by decide), rfl, witness_destination.1, witness_destination.2.1, rfl, rfl, by decide⟩

/-- IncrementDecrementResult, ComplementResult, ShiftResult, RotateResult: a register that holds `v`, and a memory operand read as
`v`. -/
theorem witness_Rewrites :
    mixed.reg .x = 0x10#8 ∧ ∃ m ea s1 s2, effAddr m mixed = .next (ea, s1) ∧ readByte s1 ea = .next (0x42#8, s2) :=
  ⟨rfl, _, _, _, _, witness_destination.1, witness_destination.2.1⟩

/-- BitChangeResult, BitTestResult: a direct and an indirect bit operand, at the top of page zero and through a pointer. -/
theorem witness_BitChangeResult :
    bitAddr (.direct 0xFF#8) mixed = .next (0x00FF#16, mixed) ∧ readByte mixed 0x00FF#16 = .next (0x80#8, mixed) ∧
    bitAddr (.indirect 0x10#8) mixed = .next (0x0042#16, mixed) ∧ readByte mixed 0x0042#16 = .next (0x00#8, mixed) :=
  ⟨next_of (by decide), next_of (by decide), next_of (by decide), next_of (by decide)⟩

/-- RelativeJumpResult: a displacement in the instruction, and one in page zero. -/
theorem witness_RelativeJumpResult :
    readRel (.direct 0x7F#8) mixed = .next (0x7F#8, mixed) ∧ readRel (.indirect 0xFF#8) mixed = .next (0x80#8, mixed) :=
  ⟨rfl, next_of (by decide)⟩

/-- JumpCallReturnResult: the target, two RAM slots at either end of the stack, and the two bytes a return pops. -/
theorem witness_JumpCallReturnResult :
    mixed.quiet ∧ effAddr (.indL 0xFF#8) mixed = .next (0x8002#16, mixed) ∧ mixed.kindAt (mixed.slot 0) = some .ram ∧
    mixed.kindAt (mixed.slot 1) = some .ram ∧ { mixed with sp := 0x00#6 }.kindAt ({ mixed with sp := 0x00#6 }.slot 1) = some .ram ∧
    readByte mixed (mixed.device.spPreset ++ (mixed.sp + 1)) = .next (0x00#8, mixed) ∧
    readByte mixed (mixed.device.spPreset ++ (mixed.sp + 2)) = .next (0x00#8, mixed) :=
  ⟨⟨rfl, rfl⟩, next_of (by decide), by decide, by decide, by decide, next_of (by decide), next_of (by decide)⟩

/-- PushPopResult: what each operand holds, and the byte a pop reads. -/
theorem witness_PushPopResult :
    StackRegHolds mixed .a 0x00#8 ∧ StackRegHolds mixed .x 0x10#8 ∧ StackRegHolds mixed .y 0x00#8 ∧ StackRegHolds mixed .cc 0xE8#8 ∧
    readByte mixed (mixed.device.spPreset ++ (mixed.sp + 1)) = .next (0x00#8, mixed) :=
  ⟨rfl, rfl, rfl, rfl, next_of (by decide)⟩

/-- TrapIretResult: a RAM stack and a readable trap vector. -/
theorem witness_TrapIretResult :
    mixed.quiet ∧ mixed.stackIsRam ∧ mixed.plainAt mixed.device.trapVector ∧ mixed.plainAt (mixed.device.trapVector + 1) :=
  ⟨⟨rfl, rfl⟩, mixed_stackIsRam, .inr (.inl (by decide)), .inr (.inl (by decide))⟩

/-- FlagInstructionResult: SIM completes. -/
theorem witness_FlagInstructionResult : exec .sim start = .next { start with cc := flags 0xE8#8 } := by rfl

end Sys2Proof.Tests
end

section
/-! SUPPORT. The proofs for the statements of `00_scope.md`: what no step changes (R5), and the inputs of the environment (R6). The frame
of `exec` stands first: what an instruction leaves alone, whatever it is. -/

namespace Sys2Proof.Machine

/-! ## The device, and the turns to come -/

/-- From `s` to `t` the device is the same one, and the same turns are still to come (log 1, log 10). -/
structure SameSetting (s t : State) : Prop where
  device : t.device = s.device
  schedule : t.schedule = s.schedule

theorem SameSetting.refl (s : State) : SameSetting s s := ⟨rfl, rfl⟩

theorem SameSetting.trans {s t u : State} (h : SameSetting s t) (k : SameSetting t u) : SameSetting s u :=
  ⟨k.device.trans h.device, k.schedule.trans h.schedule⟩

/-! ## The frame of an instruction -/

/-- From `s` to `t` the core has worked with its registers, its flags and the bus, and with nothing else: latches, line, device,
turns to come, run state and cycle count are as they were (R40, R41, R315). -/
structure RegistersAndBus (s t : State) : Prop extends SameSetting s t where
  pending : t.pending = s.pending
  extIntLine : t.extIntLine = s.extIntLine
  runState : t.runState = s.runState
  cycles : t.cycles = s.cycles
  accesses : s.bus.Accesses t.bus

/-- Registers and flags alone, the bus untouched. -/
theorem RegistersAndBus.of_regs (s : State) (a x y : Byte) (pc : Word) (sp : BitVec 6) (cc : CC) :
    RegistersAndBus s { s with a := a, x := x, y := y, pc := pc, sp := sp, cc := cc } :=
  ⟨⟨rfl, rfl⟩, rfl, rfl, rfl, rfl, .refl _⟩

theorem RegistersAndBus.setReg {s t : State} (h : RegistersAndBus s t) (r : Reg) (v : Byte) (cc : CC) :
    RegistersAndBus s { t.setReg r v with cc := cc } := by
  cases r <;> exact ⟨⟨h.device, h.schedule⟩, h.pending, h.extIntLine, h.runState, h.cycles, h.accesses⟩

theorem RegistersAndBus.setStackReg {s t : State} (h : RegistersAndBus s t) (r : StackReg) (v : Byte) :
    RegistersAndBus s (t.setStackReg r v) := by
  cases r <;> exact ⟨⟨h.device, h.schedule⟩, h.pending, h.extIntLine, h.runState, h.cycles, h.accesses⟩

theorem RegistersAndBus.refl (s : State) : RegistersAndBus s s := .of_regs s ..

/-- Byte accesses, with whatever they leave in the registers. -/
theorem RegistersAndBus.of_accesses {s : State} {a x y : Byte} {pc : Word} {sp : BitVec 6} {cc : CC} {m : Memory} {g : Gaps}
    {d : Nat} {e : List BusEvent} (h : s.bus.Accesses { mem := m, gaps := g, cut := s.cut, draws := d, events := e }) :
    RegistersAndBus s
      { s with a := a, x := x, y := y, pc := pc, sp := sp, cc := cc, mem := m, gaps := g, draws := d, events := e } :=
  ⟨⟨rfl, rfl⟩, rfl, rfl, rfl, rfl, h⟩

theorem modifyAcc_registersAndBus {src : Src} {s t : State} {f : Byte → Byte → CC → Byte × CC}
    (h : modifyAcc src s f = .next t) : RegistersAndBus s t := by
  obtain ⟨v, m, g, d, e, rfl, hr⟩ := modifyAcc_frame h
  exact .of_accesses hr.toAccesses

theorem compareReg_registersAndBus {r : Reg} {src : Src} {s t : State} {f : Byte → Byte → CC → Byte × CC}
    (h : compareReg r src s f = .next t) : RegistersAndBus s t := by
  obtain ⟨v, m, g, d, e, rfl, hr⟩ := compareReg_frame h
  exact .of_accesses hr.toAccesses

theorem modifyDst_registersAndBus {dst : Dst} {s t : State} {f : Byte → CC → Byte × CC} (h : modifyDst dst s f = .next t) :
    RegistersAndBus s t := by
  rcases modifyDst_frame h with ⟨r, -, rfl⟩ | ⟨m, v, k, g, d, e, -, rfl, hr⟩
  · exact (RegistersAndBus.refl s).setReg r _ _
  · exact .of_accesses hr

theorem modifyBit_registersAndBus {b : BitForm} {s t : State} {f : Byte → Byte} (h : modifyBit b s f = .next t) :
    RegistersAndBus s t := by
  obtain ⟨m, g, d, e, rfl, hr⟩ := modifyBit_frame h
  exact .of_accesses hr

theorem testBit_registersAndBus {b : BitForm} {s t : State} {pos : BitVec 3} {disp : Byte} {want : Bool}
    (h : testBit b pos disp want s = .next t) : RegistersAndBus s t := by
  obtain ⟨c, w, m, g, d, e, rfl, hr⟩ := testBit_frame h
  exact .of_accesses hr.toAccesses

theorem branchIf_registersAndBus {cond : Bool} {r : Rel} {s t : State} (h : branchIf cond r s = .next t) :
    RegistersAndBus s t := by
  obtain ⟨w, m, g, d, e, rfl, hr⟩ := branchIf_frame h
  exact .of_accesses hr.toAccesses

theorem execTnz_registersAndBus {dst : Dst} {s t : State} (h : execTnz dst s = .next t) : RegistersAndBus s t := by
  obtain ⟨⟨v, s1⟩, h1, h2⟩ := andThen_eq_next.mp h
  obtain ⟨m, g, d, e, rfl, hr⟩ := readDst_frame h1
  cases h2
  exact .of_accesses hr.toAccesses

theorem execLd_registersAndBus {r : Reg} {src : Src} {s t : State} (h : execLd r src s = .next t) : RegistersAndBus s t := by
  obtain ⟨⟨v, s1⟩, h1, h2⟩ := andThen_eq_next.mp h
  obtain ⟨m, g, d, e, rfl, hr⟩ := readSrc_frame h1
  cases h2
  exact (RegistersAndBus.of_accesses hr.toAccesses).setReg r v _

theorem execLdStore_registersAndBus {m : MemForm} {r : Reg} {s t : State} (h : execLdStore m r s = .next t) :
    RegistersAndBus s t := by
  obtain ⟨⟨ea, s1⟩, h1, h2⟩ := andThen_eq_next.mp h
  obtain ⟨s2, h2, h3⟩ := andThen_eq_next.mp h2
  obtain ⟨m, g, d, e, rfl, hr⟩ := effAddr_frame h1
  obtain ⟨m', g', d', e', rfl, hw⟩ := writeByte_frame h2
  cases h3
  exact .of_accesses (hr.toAccesses.trans hw)

theorem execClr_registersAndBus {dst : Dst} {s t : State} (h : execClr dst s = .next t) : RegistersAndBus s t := by
  obtain ⟨s1, h1, h2⟩ := andThen_eq_next.mp h
  cases h2
  rcases overwriteDst_frame h1 with ⟨r, -, rfl⟩ | ⟨m, k, g, d, e, -, rfl, hr⟩
  · exact (RegistersAndBus.refl s).setReg r _ _
  · exact .of_accesses hr

theorem execPush_registersAndBus {r : StackReg} {s t : State} (h : execPush r s = .next t) : RegistersAndBus s t := by
  obtain ⟨m, g, d, e, rfl, hr⟩ := pushByte_frame h
  exact .of_accesses hr

theorem execPop_registersAndBus {r : StackReg} {s t : State} (h : execPop r s = .next t) : RegistersAndBus s t := by
  obtain ⟨⟨v, s1⟩, h1, h2⟩ := andThen_eq_next.mp h
  obtain ⟨m, g, d, e, rfl, hr⟩ := popByte_frame h1
  cases h2
  exact (RegistersAndBus.of_accesses hr.toAccesses).setStackReg r v

theorem execJp_registersAndBus {m : MemForm} {s t : State} (h : execJp m s = .next t) : RegistersAndBus s t := by
  obtain ⟨⟨ea, s1⟩, h1, h2⟩ := andThen_eq_next.mp h
  obtain ⟨m, g, d, e, rfl, hr⟩ := effAddr_frame h1
  cases h2
  exact .of_accesses hr.toAccesses

theorem execCall_registersAndBus {m : MemForm} {s t : State} (h : execCall m s = .next t) : RegistersAndBus s t := by
  obtain ⟨⟨ea, s1⟩, h1, h2⟩ := andThen_eq_next.mp h
  obtain ⟨s2, h2, h3⟩ := andThen_eq_next.mp h2
  obtain ⟨m, g, d, e, rfl, hr⟩ := effAddr_frame h1
  obtain ⟨m', g', d', e', rfl, hw⟩ := pushWord_frame h2
  cases h3
  exact .of_accesses (hr.toAccesses.trans hw)

theorem execCallr_registersAndBus {r : Rel} {s t : State} (h : execCallr r s = .next t) : RegistersAndBus s t := by
  obtain ⟨⟨disp, s1⟩, h1, h2⟩ := andThen_eq_next.mp h
  obtain ⟨s2, h2, h3⟩ := andThen_eq_next.mp h2
  obtain ⟨m, g, d, e, rfl, hr⟩ := readRel_frame h1
  obtain ⟨m', g', d', e', rfl, hw⟩ := pushWord_frame h2
  cases h3
  exact .of_accesses (hr.toAccesses.trans hw)

theorem execRet_registersAndBus {s t : State} (h : execRet s = .next t) : RegistersAndBus s t := by
  obtain ⟨⟨w, s1⟩, h1, h2⟩ := andThen_eq_next.mp h
  obtain ⟨m, g, d, e, rfl, hr⟩ := popWord_frame h1
  cases h2
  exact .of_accesses hr.toAccesses

theorem enterException_registersAndBus {s t : State} {v : Word} (h : enterException s v = .next t) : RegistersAndBus s t := by
  obtain ⟨m, g, d, e, w, rfl, hr⟩ := enterException_frame h
  exact .of_accesses hr

theorem returnFromException_registersAndBus {s t : State} (h : returnFromException s = .next t) : RegistersAndBus s t := by
  obtain ⟨cc, a, x, w, m, g, d, e, rfl, hr⟩ := returnFromException_frame h
  exact .of_accesses hr.toAccesses

/-- THE FRAME OF AN INSTRUCTION: but for WFI and HALT, which end in a run state of their own (R41, R331, R332), it works with
registers, flags and the bus alone. -/
theorem exec_registersAndBus {i : Instr} {s t : State} (h : exec i s = .next t) (hw : i ≠ .wfi) (hh : i ≠ .halt) :
    RegistersAndBus s t := by
  cases i
  case adc | add | sub | sbc | and | or | xor =>
    simp only [exec, execAdc, execAdd, execSub, execSbc, execAnd, execOr, execXor] at h
    exact modifyAcc_registersAndBus h
  case cp | bcp => simp only [exec, execCp, execBcp] at h; exact compareReg_registersAndBus h
  case cpl | neg | inc | dec | sll | sla | srl | sra | rlc | rrc | swap => exact modifyDst_registersAndBus h
  case bset | bres => simp only [exec, execBset, execBres] at h; exact modifyBit_registersAndBus h
  case btjt | btjf => exact testBit_registersAndBus h
  case jra | jrt | jrf | jrc | jrnc | jrult | jruge | jreq | jrne | jrmi | jrpl |
      jrh | jrnh | jrm | jrnm | jrugt | jrule | jrih | jril =>
    exact branchIf_registersAndBus h
  case tnz => exact execTnz_registersAndBus h
  case ld => exact execLd_registersAndBus h
  case ldStore => exact execLdStore_registersAndBus h
  case clr => exact execClr_registersAndBus h
  case push => exact execPush_registersAndBus h
  case pop => exact execPop_registersAndBus h
  case jp => exact execJp_registersAndBus h
  case call => exact execCall_registersAndBus h
  case callr => exact execCallr_registersAndBus h
  case ret => exact execRet_registersAndBus h
  case trap => exact enterException_registersAndBus h
  case iret => exact returnFromException_registersAndBus h
  case ldRegReg dst src => cases h; exact (RegistersAndBus.refl s).setReg dst _ _
  case ldRegS r => cases h; exact (RegistersAndBus.refl s).setReg r _ _
  case mul n => cases n <;> cases h <;> exact .of_regs s ..
  case ldSReg | rsp | nop | sim | rim | scf | rcf => cases h; exact .of_regs s ..
  case wfi => exact absurd rfl hw
  case halt => exact absurd rfl hh

/-! ## The frame of a turn -/

theorem exec_sameSetting {i : Instr} {s t : State} (h : exec i s = .next t) : SameSetting s t := by
  by_cases hw : i = .wfi
  · subst hw; cases h; exact ⟨rfl, rfl⟩
  · by_cases hh : i = .halt
    · subst hh; cases h; exact ⟨rfl, rfl⟩
    · exact (exec_registersAndBus h hw hh).toSameSetting

theorem runInstruction_sameSetting {s t : State} (h : runInstruction s = .next t) : SameSetting s t := by
  obtain ⟨⟨i, s1⟩, h1, h2⟩ := andThen_eq_next.mp h
  obtain ⟨s2, h2, h3⟩ := andThen_eq_next.mp h2
  obtain ⟨m, g, d, e, w, rfl, -⟩ := fetchInstr_frame h1
  obtain ⟨hd, hs⟩ := exec_sameSetting h2
  cases h3
  exact ⟨hd, hs⟩

theorem enterInterrupt_sameSetting {k : Nat} {src : IrqSource} {s t : State} (h : enterInterrupt k src s = .next t) :
    SameSetting s t := by
  obtain ⟨s1, h1, h2⟩ := andThen_eq_next.mp h
  obtain ⟨hd, hs⟩ := (enterException_registersAndBus h1).toSameSetting
  cases h2
  exact ⟨hd, hs⟩

/-- What the core's turn is made of: an interrupt entry, an instruction, or a wait (R354). -/
theorem coreTurn_cases {s t : State} (h : coreTurn s = .next t) :
    (∃ k src, acceptedSource s = some (k, src) ∧ enterInterrupt k src s = .next t) ∨
    (acceptedSource s = none ∧ s.runState = .running ∧ runInstruction s = .next t) ∨
    (acceptedSource s = none ∧ s.runState ≠ .running ∧ t = s) := by
  unfold coreTurn at h
  split at h
  · next k src hk => exact .inl ⟨k, src, hk, h⟩
  · next hn =>
    split at h
    · next hr => exact .inr (.inl ⟨hn, hr, h⟩)
    · next hr => cases h; exact .inr (.inr ⟨hn, by simp [hr], rfl⟩)
    · next hr => cases h; exact .inr (.inr ⟨hn, by simp [hr], rfl⟩)

theorem coreTurn_sameSetting {s t : State} (h : coreTurn s = .next t) : SameSetting s t := by
  rcases coreTurn_cases h with ⟨k, src, -, h⟩ | ⟨-, -, h⟩ | ⟨-, -, rfl⟩
  · exact enterInterrupt_sameSetting h
  · exact runInstruction_sameSetting h
  · exact .refl _

theorem resetSequence_sameSetting {s t : State} {d : ResetDraw} (h : resetSequence s d = .next t) : SameSetting s t := by
  obtain ⟨m, g, n, e, w, rfl, -⟩ := resetSequence_frame h
  exact ⟨rfl, rfl⟩

theorem resetAll_sameSetting {rs : List Reset} {s t : State} (h : resetAll rs s = .next t) : SameSetting s t := by
  induction rs generalizing s with
  | nil => cases h; exact .refl _
  | cons r rest ih =>
    obtain ⟨u, h1, h2⟩ := andThen_eq_next.mp h
    obtain ⟨hd, hs⟩ := resetSequence_sameSetting h1
    exact .trans ⟨hd, hs⟩ (ih h2)

/-- A turn of the core is `coreTurn`, then the resets that can happen, then nothing of the turn is left (R359, R390). -/
theorem takeTurn_cases {g : Gaps} {rs : List Reset} {s t : State} (h : takeTurn g rs s = .next t) :
    ∃ u v, coreTurn { s with gaps := g, cut := !(possibleResets s rs).isEmpty } = .next u ∧
      ((possibleResets s rs = [] ∧ v = u) ∨
        resetAll (possibleResets s rs) { u with cycles := s.cycles + wakeCycles s } = .next v) ∧
      t = { v with gaps := [], cut := false } := by
  obtain ⟨u, h1, h2⟩ := andThen_eq_next.mp h
  obtain ⟨v, h2, h3⟩ := andThen_eq_next.mp h2
  refine ⟨u, v, h1, ?_, by cases h3; rfl⟩
  cases hp : possibleResets s rs with
  | nil => rw [hp] at h2; cases h2; exact .inl ⟨rfl, rfl⟩
  | cons r rest => rw [hp] at h2; exact .inr h2

theorem takeTurn_sameSetting {g : Gaps} {rs : List Reset} {s t : State} (h : takeTurn g rs s = .next t) :
    SameSetting s t := by
  obtain ⟨u, v, hc, hr, rfl⟩ := takeTurn_cases h
  obtain ⟨hd, hs⟩ := coreTurn_sameSetting hc
  rcases hr with ⟨-, rfl⟩ | hr
  · exact ⟨hd, hs⟩
  · obtain ⟨hd', hs'⟩ := resetAll_sameSetting hr
    exact ⟨hd'.trans hd, hs'.trans hs⟩

/-! ## The inputs of the environment -/

/-- An input reaches latches, line and memory alone. -/
theorem deliver_sameSetting {e : Input} {s t : State} (h : deliver e s = .next t) : SameSetting s t := by
  cases e with
  | request k => cases h; split <;> exact ⟨rfl, rfl⟩
  | withdraw k => cases h; split <;> exact ⟨rfl, rfl⟩
  | line level => cases h; exact ⟨rfl, rfl⟩
  | busWrite a v =>
    cases h
    split
    · exact .refl s
    · rw [storeRam_eq]; exact ⟨rfl, rfl⟩

theorem deliver_withdraw {s : State} (k : Nat) (h : s.runState ≠ .halted) :
    deliver (.withdraw k) s = .next { s with pending := s.pending.set k false } := by simp [deliver, h]

theorem deliver_busWrite {s : State} (a : Word) (v : Byte) (h : s.runState ≠ .halted) :
    deliver (.busWrite a v) s = .next (storeRam s [(a, v)]) := by simp [deliver, h]

/-- One byte written by another agent to RAM is stored. -/
theorem storeRam_one_ram {s : State} {a : Word} (v : Byte) (h : s.kindAt a = some .ram) :
    storeRam s [(a, v)] = { s with mem := s.mem.write a.toNat v } := by simp [storeRam, h]

/-- One byte written by another agent anywhere else changes nothing. -/
theorem storeRam_one_other {s : State} {a : Word} (v : Byte) (h : s.kindAt a ≠ some .ram) : storeRam s [(a, v)] = s := by
  simp [storeRam, h]

/-! ## The statements -/

/-- With no turn on the schedule, it is the core's and nothing else happens in it. -/
theorem step_of_idle {s : State} (h : s.schedule = []) : step s = takeTurn [] [] s := by
  unfold step nextTurn; rw [h]

/-- Settles O23: whoever's turn it is, the turn itself keeps device and schedule, and the schedule it starts from lacks its head. -/
theorem stepKeepsParameters : Obligations.StepKeepsParameters := by
  intro s t h
  cases hs : s.schedule with
  | nil =>
    obtain ⟨hd, hk⟩ := takeTurn_sameSetting (step_of_idle hs ▸ h)
    exact ⟨hd, hk.trans hs⟩
  | cons turn rest =>
    have hset : SameSetting { s with schedule := rest } t := by
      cases turn with
      | core g rs => exact takeTurn_sameSetting (step_of_core hs ▸ h)
      | env e => exact deliver_sameSetting (step_of_env hs ▸ h)
    exact ⟨hset.device, hset.schedule⟩

/-- Settles O17: the three inputs by the equations of `deliver`, and a gap by what `settle` leaves in memory. -/
theorem environmentInputs : Obligations.EnvironmentInputs := by
  refine ⟨fun s rest => ⟨fun level h => step_of_env h, fun k h hr => ?_, fun a v h hr => ?_⟩,
    fun s => ⟨State.settle_nil, fun ws g hg => ⟨?_, fun b => ?_⟩⟩⟩
  · exact (step_of_env h).trans (deliver_withdraw k hr)
  · refine ⟨_, (step_of_env h).trans (deliver_busWrite a v hr), storeRam_eq _ _, fun hk => ?_, fun hk => ?_⟩
    · exact storedAt_write (by rw [storeRam_one_ram (s := { s with schedule := rest }) v hk])
    · rw [storeRam_one_other (s := { s with schedule := rest }) v hk]
  · simpa [hg] using s.settle_eq
  · simpa [hg] using s.settle_byteAt b

end Sys2Proof.Machine
end

section
/-! SUPPORT. The proofs for the statements of `10_state.md`, first part: the invariant of every step (R40, R374), the state after reset (R43), what an
instruction leaves of the environment (R41), and what a step of the core and a request do. -/

namespace Sys2Proof.Machine

/-! ## The invariant -/

/-- The part of the invariant that holds inside a turn as well: `Inv` without what it says of the turn being over. -/
structure TurnInv (s : State) : Prop where
  memWf : s.mem.wf
  latches : s.pending.length = s.device.sources.length
  unmasked : s.runState ≠ .running → s.cc.i = false

theorem Inv.turnInv {s : State} (h : Inv s) : TurnInv s := ⟨h.memWf, h.latches, h.unmasked⟩

/-- Where nothing of a turn is left, what holds inside a turn is the invariant. -/
theorem TurnInv.inv {s : State} (h : TurnInv s) (hq : s.quiet) : Inv s := ⟨h.memWf, hq, h.latches, h.unmasked⟩

/-- Work with registers, flags and the bus keeps the invariant of a running core. -/
theorem RegistersAndBus.turnInv {s t : State} (h : RegistersAndBus s t) (hr : s.runState = .running) (hs : TurnInv s) :
    TurnInv t where
  memWf := h.accesses.memWf hs.memWf
  latches := by rw [h.pending, h.device]; exact hs.latches
  unmasked hn := absurd (h.runState.trans hr) hn

/-- An instruction run by a running core: WFI and HALT leave I clear, every other instruction leaves the core running. -/
theorem exec_turnInv {i : Instr} {s t : State} (h : exec i s = .next t) (hr : s.runState = .running) (hs : TurnInv s) :
    TurnInv t := by
  by_cases hw : i = .wfi
  · subst hw; cases h; exact ⟨hs.memWf, hs.latches, fun _ => rfl⟩
  · by_cases hh : i = .halt
    · subst hh; cases h; exact ⟨hs.memWf, hs.latches, fun _ => rfl⟩
    · exact (exec_registersAndBus h hw hh).turnInv hr hs

theorem runInstruction_turnInv {s t : State} (h : runInstruction s = .next t) (hr : s.runState = .running)
    (hs : TurnInv s) : TurnInv t := by
  obtain ⟨⟨i, s1⟩, h1, h2⟩ := andThen_eq_next.mp h
  obtain ⟨s2, h2, h3⟩ := andThen_eq_next.mp h2
  obtain ⟨m, g, d, e, w, rfl, hb⟩ := fetchInstr_frame h1
  obtain ⟨hm, hl, hu⟩ := exec_turnInv h2 hr ⟨hb.memWf hs.memWf, hs.latches, hs.unmasked⟩
  cases h3
  exact ⟨hm, hl, hu⟩

/-- An interrupt entry leaves the core running, and as many latches as there were. -/
theorem enterInterrupt_turnInv {k : Nat} {src : IrqSource} {s t : State} (h : enterInterrupt k src s = .next t)
    (hs : TurnInv s) : TurnInv t := by
  obtain ⟨u, h1, h2⟩ := andThen_eq_next.mp h
  have hf := enterException_registersAndBus h1
  cases h2
  refine ⟨hf.accesses.memWf hs.memWf, ?_, fun hn => absurd rfl hn⟩
  have hlen : (if src.ack = .onEntry then u.pending.set k false else u.pending).length = u.pending.length := by
    split
    · exact List.length_set
    · rfl
  rw [hlen, hf.pending, hf.device, hs.latches]

theorem coreTurn_turnInv {s t : State} (h : coreTurn s = .next t) (hs : TurnInv s) : TurnInv t := by
  rcases coreTurn_cases h with ⟨k, src, -, h⟩ | ⟨-, hr, h⟩ | ⟨-, -, rfl⟩
  · exact enterInterrupt_turnInv h hs
  · exact runInstruction_turnInv h hr hs
  · exact hs

/-- The reset sequence leaves the core running with one latch for each there was, whatever RAM is drawn. -/
theorem resetSequence_turnInv {s t : State} {d : ResetDraw} (h : resetSequence s d = .next t) (hs : TurnInv s) :
    TurnInv t := by
  obtain ⟨m, g, n, e, w, rfl, hb⟩ := resetSequence_frame h
  refine ⟨hb.memWf (storeRam_wf _ hs.memWf), ?_, fun hn => absurd rfl hn⟩
  simpa [State.resetRegs] using hs.latches

theorem resetAll_turnInv {rs : List Reset} {s t : State} (h : resetAll rs s = .next t) (hs : TurnInv s) : TurnInv t := by
  induction rs generalizing s with
  | nil => cases h; exact hs
  | cons r rest ih =>
    obtain ⟨u, h1, h2⟩ := andThen_eq_next.mp h
    exact ih h2 (resetSequence_turnInv h1 ⟨hs.memWf, hs.latches, hs.unmasked⟩)

/-- A turn of the core keeps the invariant, and leaves nothing of the turn. -/
theorem takeTurn_inv {g : Gaps} {rs : List Reset} {s t : State} (h : takeTurn g rs s = .next t) (hs : TurnInv s) :
    Inv t := by
  obtain ⟨u, v, hc, hr, rfl⟩ := takeTurn_cases h
  have hu : TurnInv u := coreTurn_turnInv hc ⟨hs.memWf, hs.latches, hs.unmasked⟩
  have hv : TurnInv v := by
    rcases hr with ⟨-, rfl⟩ | hr
    · exact hu
    · exact resetAll_turnInv hr ⟨hu.memWf, hu.latches, hu.unmasked⟩
  have ht : TurnInv { v with gaps := [], cut := false } := ⟨hv.memWf, hv.latches, hv.unmasked⟩
  exact ht.inv ⟨rfl, rfl⟩

/-- An input of the environment keeps the invariant: it sets or clears one latch, or writes inside the address space. -/
theorem deliver_inv {e : Input} {s t : State} (h : deliver e s = .next t) (hs : Inv s) : Inv t := by
  have hset : ∀ k b, Inv { s with pending := s.pending.set k b } := fun k b =>
    ⟨hs.memWf, hs.quiet, List.length_set.trans hs.latches, hs.unmasked⟩
  cases e with
  | request k => cases h; split; exacts [hset k true, hs]
  | withdraw k => cases h; split; exacts [hs, hset k false]
  | line level => cases h; exact ⟨hs.memWf, hs.quiet, hs.latches, hs.unmasked⟩
  | busWrite a v =>
    cases h
    split
    · exact hs
    · have hm := storeRam_wf [(a, v)] hs.memWf
      rw [storeRam_eq]
      exact ⟨hm, hs.quiet, hs.latches, hs.unmasked⟩

/-- Settles O21: the invariant is kept by each kind of turn, from the state whose schedule lacks the turn. -/
theorem stepKeepsInv : Obligations.StepKeepsInv := by
  intro s t hs h
  cases hsch : s.schedule with
  | nil => exact takeTurn_inv ((step_of_idle hsch).symm.trans h) hs.turnInv
  | cons turn rest =>
    have hrest : Inv { s with schedule := rest } := ⟨hs.memWf, hs.quiet, hs.latches, hs.unmasked⟩
    cases turn with
    | core g rs => exact takeTurn_inv ((step_of_core hsch).symm.trans h) hrest.turnInv
    | env e => exact deliver_inv ((step_of_env hsch).symm.trans h) hrest

/-- Settles O22: the memory lists nothing, there are four latches for four sources, and the core runs. -/
theorem resetInv : Obligations.ResetInv :=
  ⟨Memory.wf_nil, ⟨rfl, rfl⟩, rfl, fun hn => absurd rfl hn⟩

/-- Settles O20: each value is read off `State.reset`. -/
theorem resetState : Obligations.ResetState :=
  ⟨rfl, rfl, rfl, rfl, rfl, by decide, rfl⟩

/-! ## What an instruction leaves of the environment -/

/-- The run state after an instruction: only WFI and HALT have one of their own (R41). -/
theorem exec_runState {i : Instr} {s t : State} (h : exec i s = .next t) :
    t.runState = if i = .wfi then .waiting else if i = .halt then .halted else s.runState := by
  split
  · next hw => subst hw; cases h; rfl
  · next hw =>
    split
    · next hh => subst hh; cases h; rfl
    · next hh => exact (exec_registersAndBus h hw hh).runState

/-- An instruction leaves latches, line and cycle count, and reaches the bus by accesses alone. -/
theorem exec_environment {i : Instr} {s t : State} (h : exec i s = .next t) :
    t.pending = s.pending ∧ t.extIntLine = s.extIntLine ∧ t.cycles = s.cycles ∧ s.bus.Accesses t.bus := by
  by_cases hw : i = .wfi
  · subst hw; cases h; exact ⟨rfl, rfl, rfl, .refl _⟩
  · by_cases hh : i = .halt
    · subst hh; cases h; exact ⟨rfl, rfl, rfl, .refl _⟩
    · have hf := exec_registersAndBus h hw hh
      exact ⟨hf.pending, hf.extIntLine, hf.cycles, hf.accesses⟩

/-- Settles O29: the frame of `exec`, WFI and HALT apart, and what `Bus.Accesses` says of the gaps and of a turn cut short. -/
theorem execLeavesEnvironment : Obligations.ExecLeavesEnvironment := by
  intro i s t h
  obtain ⟨hp, hl, hc, hb⟩ := exec_environment h
  obtain ⟨hd, hs⟩ := exec_sameSetting h
  refine ⟨hp, hl, hd, hs, hc, exec_runState h, hb.cut, hb.gaps, fun hf => ?_⟩
  obtain ⟨hcut, hgaps⟩ := (State.frozen_iff s).mp hf
  have he : t.bus = s.bus := hb.frozen hcut hgaps
  simp only [State.bus, Bus.mk.injEq] at he
  obtain ⟨hm, hg, -, hn, hv⟩ := he
  exact ⟨hm, hg, hn, hv⟩

/-! ## A step of the core, and a request -/

@[simp] theorem State.settled_cut (t : State) (n : Nat) : (t.settled n).cut = t.cut := by
  induction n generalizing t with
  | zero => rfl
  | succ n ih => rw [State.settled, ih, State.settle_cut]

/-- A running core with nothing to accept runs the instruction at PC. -/
theorem coreTurn_of_undisturbed {s : State} (hu : Undisturbed s) (hr : s.runState = .running) :
    coreTurn s = runInstruction s := by
  simp only [coreTurn, acceptedSource_of_undisturbed hu, hr]

/-- Settles O9: the turn is `coreTurn`, the fetch answers the decoded instruction, and executing it does not cut the turn. -/
theorem stepRunsDecodedInstruction : Obligations.StepRunsDecodedInstruction := by
  intro s t g n i ht hu hr hp hs hd
  have hfetch := fetchInstr_of_decode ⟨ht.cut, hp, hs⟩ hd
  have hcut : State.cut { t.settled n with pc := t.pc + BitVec.ofNat 16 n } = false := (t.settled_cut n).trans ht.cut
  generalize ({ t.settled n with pc := t.pc + BitVec.ofNat 16 n } : State) = v at hfetch hcut ⊢
  rw [step_of_sharedTurn ht, coreTurn_of_undisturbed hu hr]
  simp only [runInstruction, hfetch, andThen_next]
  cases hx : exec i v with
  | fault f => rfl
  | refused e => rfl
  | next u =>
    obtain ⟨-, -, -, hb⟩ := exec_environment hx
    have hu : u.cut = false := hb.cut.trans hcut
    simp only [andThen_next, hu]

theorem deliver_request {s : State} {k : Nat} (h : sourceRuns s k = true) :
    deliver (.request k) s = .next { s with pending := s.pending.set k true } := by
  simp [deliver, h]

/-- A source runs outside HALT, and in HALT where it is in `HALT_WAKE_SET` (R372). -/
theorem sourceRuns_of {s : State} {k : Nat}
    (h : s.runState = .halted → ∃ src, s.device.sources[k]? = some src ∧ src.wakesHalt = true) : sourceRuns s k = true := by
  by_cases hr : s.runState = .halted
  · obtain ⟨src, hk, hw⟩ := h hr
    simp [sourceRuns, hk, hw]
  · simp [sourceRuns, hr]

/-- Settles O16: the turn is the request, its source runs, and setting a latch that is set changes nothing. -/
theorem requestIsLatched : Obligations.RequestIsLatched := by
  intro s k rest hs hh
  have hstep : step s = .next { s with schedule := rest, pending := s.pending.set k true } :=
    (step_of_env hs).trans (deliver_request (s := { s with schedule := rest }) (sourceRuns_of hh))
  refine ⟨hstep, fun hk => ?_⟩
  obtain ⟨hlt, hget⟩ := List.getElem?_eq_some_iff.mp hk
  rw [hstep, ← hget, List.set_getElem_self]

end Sys2Proof.Machine
end

section
/-! SUPPORT. The proofs for the statements of `10_state.md`, second part: which instruction writes which register and which flag (R21 to R38). -/

namespace Sys2Proof.Machine

/-! ## Which instruction writes what -/

/-- From `cc` to `cc'` every flag stands whose column the table of R38 leaves empty in the row of `i`. -/
def FlagsKept (i : Instr) (cc cc' : CC) : Prop :=
  (i.changesH = false → cc'.h = cc.h) ∧ (i.changesI = false → cc'.i = cc.i) ∧
    (i.changesNZ = false → cc'.n = cc.n ∧ cc'.z = cc.z) ∧ (i.changesC = false → cc'.c = cc.c)

section
variable {i : Instr} {cc : CC} {h m n z c : Bool}

theorem FlagsKept.refl (i : Instr) (cc : CC) : FlagsKept i cc cc :=
  ⟨fun _ => rfl, fun _ => rfl, fun _ => ⟨rfl, rfl⟩, fun _ => rfl⟩

theorem FlagsKept.set_i (hi : i.changesI = true) : FlagsKept i cc { cc with i := m } :=
  ⟨fun _ => rfl, by simp [hi], fun _ => ⟨rfl, rfl⟩, fun _ => rfl⟩

theorem FlagsKept.set_nz (hnz : i.changesNZ = true) : FlagsKept i cc { cc with n := n, z := z } :=
  ⟨fun _ => rfl, fun _ => rfl, by simp [hnz], fun _ => rfl⟩

theorem FlagsKept.set_c (hc : i.changesC = true) : FlagsKept i cc { cc with c := c } :=
  ⟨fun _ => rfl, fun _ => rfl, fun _ => ⟨rfl, rfl⟩, by simp [hc]⟩

theorem FlagsKept.set_hc (hh : i.changesH = true) (hc : i.changesC = true) : FlagsKept i cc { cc with h := h, c := c } :=
  ⟨by simp [hh], fun _ => rfl, fun _ => ⟨rfl, rfl⟩, by simp [hc]⟩

theorem FlagsKept.set_nzc (hnz : i.changesNZ = true) (hc : i.changesC = true) :
    FlagsKept i cc { cc with n := n, z := z, c := c } :=
  ⟨fun _ => rfl, fun _ => rfl, by simp [hnz], by simp [hc]⟩

theorem FlagsKept.set_hnzc (hh : i.changesH = true) (hnz : i.changesNZ = true) (hc : i.changesC = true) :
    FlagsKept i cc { cc with h := h, n := n, z := z, c := c } :=
  ⟨by simp [hh], fun _ => rfl, by simp [hnz], by simp [hc]⟩

end

/-- From `s` to `t` registers and flags change as the tables of `i` say: A, X and Y (R21, R22, R148), SP (R30, R31), PC (R23) and
the flags (R38; with `LD_REGREG_SETS_NZ` false, D3). -/
structure WritesAsListed (i : Instr) (s t : State) : Prop where
  regs : ∀ r, i.changesReg r = false → t.reg r = s.reg r
  sp : t.sp = i.spAfter s
  pc : i.changesPc = false → t.pc = s.pc
  flags : s.device.ldRegRegSetsNZ = false → FlagsKept i s.cc t.cc

/-- The register written as destination is the one that changes. -/
theorem reg_setReg_of_written {i : Instr} {q r : Reg} (hq : i.writtenReg = some q) (hr : i.changesReg r = false) (s : State)
    (v : Byte) : (s.setReg q v).reg r = s.reg r := by
  have hne : r ≠ q := by
    rintro rfl
    simp [Instr.changesReg, hq] at hr
  rw [State.reg_setReg, if_neg hne]

section
variable {i : Instr} {s t : State}

theorem modifyAcc_writes {src : Src} {f : Byte → Byte → CC → Byte × CC} (h : modifyAcc src s f = .next t)
    (hreg : i.writtenReg = some .a) (hsp : i.spAfter s = s.sp) (hf : ∀ v, FlagsKept i s.cc (f s.a v s.cc).2) :
    WritesAsListed i s t := by
  obtain ⟨v, m, g, d, e, rfl, -⟩ := modifyAcc_frame h
  exact ⟨fun r hr => reg_setReg_of_written hreg hr s _, hsp.symm, fun _ => rfl, fun _ => hf v⟩

theorem compareReg_writes {q : Reg} {src : Src} {f : Byte → Byte → CC → Byte × CC} (h : compareReg q src s f = .next t)
    (hsp : i.spAfter s = s.sp) (hf : ∀ v, FlagsKept i s.cc (f (s.reg q) v s.cc).2) : WritesAsListed i s t := by
  obtain ⟨v, m, g, d, e, rfl, -⟩ := compareReg_frame h
  exact ⟨fun r _ => rfl, hsp.symm, fun _ => rfl, fun _ => hf v⟩

theorem modifyDst_writes {dst : Dst} {f : Byte → CC → Byte × CC} (h : modifyDst dst s f = .next t)
    (hreg : ∀ q, dst = .reg q → i.writtenReg = some q) (hsp : i.spAfter s = s.sp)
    (hf : ∀ v, FlagsKept i s.cc (f v s.cc).2) : WritesAsListed i s t := by
  rcases modifyDst_frame h with ⟨q, hq, rfl⟩ | ⟨m, v, k, g, d, e, -, rfl, -⟩
  · exact ⟨fun r hr => reg_setReg_of_written (hreg q hq) hr s _, (s.setReg_sp q _).trans hsp.symm,
      fun _ => s.setReg_pc q _, fun _ => hf _⟩
  · exact ⟨fun r _ => rfl, hsp.symm, fun _ => rfl, fun _ => hf v⟩

theorem modifyBit_writes {b : BitForm} {f : Byte → Byte} (h : modifyBit b s f = .next t) (hsp : i.spAfter s = s.sp) :
    WritesAsListed i s t := by
  obtain ⟨m, g, d, e, rfl, -⟩ := modifyBit_frame h
  exact ⟨fun r _ => rfl, hsp.symm, fun _ => rfl, fun _ => .refl ..⟩

theorem testBit_writes {b : BitForm} {pos : BitVec 3} {disp : Byte} {want : Bool} (h : testBit b pos disp want s = .next t)
    (hsp : i.spAfter s = s.sp) (hpc : i.changesPc = true) (hc : i.changesC = true) : WritesAsListed i s t := by
  obtain ⟨c, w, m, g, d, e, rfl, -⟩ := testBit_frame h
  exact ⟨fun r _ => rfl, hsp.symm, by simp [hpc], fun _ => .set_c hc⟩

theorem branchIf_writes {cond : Bool} {rel : Rel} (h : branchIf cond rel s = .next t) (hsp : i.spAfter s = s.sp)
    (hpc : i.changesPc = true) : WritesAsListed i s t := by
  obtain ⟨w, m, g, d, e, rfl, -⟩ := branchIf_frame h
  exact ⟨fun r _ => rfl, hsp.symm, by simp [hpc], fun _ => .refl ..⟩

/-- A branch whose condition is never met goes on at the next instruction (R283). -/
theorem branchIf_false_frame {rel : Rel} (h : branchIf false rel s = .next t) :
    ∃ m g d e, t = { s with mem := m, gaps := g, draws := d, events := e } := by
  obtain ⟨⟨disp, u⟩, h1, h2⟩ := andThen_eq_next.mp h
  obtain ⟨m, g, d, e, rfl, -⟩ := readRel_frame h1
  cases h2
  exact ⟨m, g, d, e, rfl⟩

theorem execJrf_writes {rel : Rel} (h : execJrf rel s = .next t) : WritesAsListed (.jrf rel) s t := by
  obtain ⟨m, g, d, e, rfl⟩ := branchIf_false_frame h
  exact ⟨fun r _ => rfl, rfl, fun _ => rfl, fun _ => .refl ..⟩

theorem execTnz_writes {dst : Dst} (h : execTnz dst s = .next t) : WritesAsListed (.tnz dst) s t := by
  obtain ⟨⟨v, u⟩, h1, h2⟩ := andThen_eq_next.mp h
  obtain ⟨m, g, d, e, rfl, -⟩ := readDst_frame h1
  cases h2
  exact ⟨fun r _ => rfl, rfl, fun _ => rfl, fun _ => .set_nz rfl⟩

theorem execLd_writes {q : Reg} {src : Src} (h : execLd q src s = .next t) : WritesAsListed (.ld q src) s t := by
  obtain ⟨⟨v, u⟩, h1, h2⟩ := andThen_eq_next.mp h
  obtain ⟨m, g, d, e, rfl, -⟩ := readSrc_frame h1
  cases h2
  exact ⟨fun r hr => reg_setReg_of_written (i := .ld q src) rfl hr _ v, State.setReg_sp _ q v,
    fun _ => State.setReg_pc _ q v, fun _ => .set_nz rfl⟩

theorem execLdStore_writes {m : MemForm} {q : Reg} (h : execLdStore m q s = .next t) : WritesAsListed (.ldStore m q) s t := by
  obtain ⟨⟨ea, u⟩, h1, h2⟩ := andThen_eq_next.mp h
  obtain ⟨w, h2, h3⟩ := andThen_eq_next.mp h2
  obtain ⟨m, g, d, e, rfl, -⟩ := effAddr_frame h1
  obtain ⟨m', g', d', e', rfl, -⟩ := writeByte_frame h2
  cases h3
  exact ⟨fun r _ => rfl, rfl, fun _ => rfl, fun _ => .set_nz rfl⟩

theorem execClr_writes {dst : Dst} (h : execClr dst s = .next t) : WritesAsListed (.clr dst) s t := by
  obtain ⟨u, h1, h2⟩ := andThen_eq_next.mp h
  cases h2
  rcases overwriteDst_frame h1 with ⟨q, rfl, rfl⟩ | ⟨m, k, g, d, e, -, rfl, -⟩
  · exact ⟨fun r hr => reg_setReg_of_written (i := .clr (.reg q)) rfl hr s _, s.setReg_sp q _, fun _ => s.setReg_pc q _,
      fun _ => .set_nz rfl⟩
  · exact ⟨fun r _ => rfl, rfl, fun _ => rfl, fun _ => .set_nz rfl⟩

/-- The flags of a register transfer are as they were where `LD_REGREG_SETS_NZ` is false (D3). -/
theorem transferFlags_of_false (h : s.device.ldRegRegSetsNZ = false) (v : Byte) : transferFlags s v = s.cc := by
  simp [transferFlags, h]

/-- A transfer to a register, from another or from S (R164, R166). -/
theorem transfer_writes {q : Reg} {v : Byte} (h : t = { s.setReg q v with cc := transferFlags s v })
    (hreg : i.writtenReg = some q) (hsp : i.spAfter s = s.sp) : WritesAsListed i s t := by
  subst h
  refine ⟨fun r hr => reg_setReg_of_written hreg hr s v, (s.setReg_sp q v).trans hsp.symm, fun _ => s.setReg_pc q v,
    fun hd => ?_⟩
  show FlagsKept i s.cc (transferFlags s v)
  rw [transferFlags_of_false hd]
  exact .refl ..

theorem execLdSReg_writes {q : Reg} (h : execLdSReg q s = .next t) : WritesAsListed (.ldSReg q) s t := by
  cases h
  refine ⟨fun r _ => rfl, rfl, fun _ => rfl, fun hd => ?_⟩
  show FlagsKept _ s.cc (transferFlags s (s.reg q))
  rw [transferFlags_of_false hd]
  exact .refl ..

theorem execMul_writes {n : Index} (h : execMul n s = .next t) : WritesAsListed (.mul n) s t := by
  cases h
  refine ⟨fun r hr => ?_, s.setReg_sp n.reg _, fun _ => s.setReg_pc n.reg _, fun _ => .set_hc rfl rfl⟩
  cases r with
  | a => cases hr
  | x => cases n with
    | x => cases hr
    | y => rfl
  | y => cases n with
    | x => rfl
    | y => cases hr

theorem execPush_writes {q : StackReg} (h : execPush q s = .next t) : WritesAsListed (.push q) s t := by
  obtain ⟨m, g, d, e, rfl, -⟩ := pushByte_frame h
  exact ⟨fun r _ => rfl, rfl, fun _ => rfl, fun _ => .refl ..⟩

theorem execPop_writes {q : StackReg} (h : execPop q s = .next t) : WritesAsListed (.pop q) s t := by
  obtain ⟨⟨v, u⟩, h1, h2⟩ := andThen_eq_next.mp h
  obtain ⟨m, g, d, e, rfl, -⟩ := popByte_frame h1
  cases h2
  refine ⟨fun r hr => ?_, State.setStackReg_sp _ q v, fun _ => State.setStackReg_pc _ q v, fun _ => ?_⟩
  · cases q with
    | a => exact reg_setReg_of_written (i := .pop .a) (q := .a) rfl hr _ v
    | x => exact reg_setReg_of_written (i := .pop .x) (q := .x) rfl hr _ v
    | y => exact reg_setReg_of_written (i := .pop .y) (q := .y) rfl hr _ v
    | cc => rfl
  · cases q with
    | a | x | y => exact .refl ..
    | cc => exact ⟨nofun, nofun, nofun, nofun⟩

theorem execJp_writes {m : MemForm} (h : execJp m s = .next t) : WritesAsListed (.jp m) s t := by
  obtain ⟨⟨ea, u⟩, h1, h2⟩ := andThen_eq_next.mp h
  obtain ⟨m, g, d, e, rfl, -⟩ := effAddr_frame h1
  cases h2
  exact ⟨fun r _ => rfl, rfl, nofun, fun _ => .refl ..⟩

theorem execCall_writes {m : MemForm} (h : execCall m s = .next t) : WritesAsListed (.call m) s t := by
  obtain ⟨⟨ea, u⟩, h1, h2⟩ := andThen_eq_next.mp h
  obtain ⟨w, h2, h3⟩ := andThen_eq_next.mp h2
  obtain ⟨m, g, d, e, rfl, -⟩ := effAddr_frame h1
  obtain ⟨m', g', d', e', rfl, -⟩ := pushWord_frame h2
  cases h3
  exact ⟨fun r _ => rfl, rfl, nofun, fun _ => .refl ..⟩

theorem execCallr_writes {rel : Rel} (h : execCallr rel s = .next t) : WritesAsListed (.callr rel) s t := by
  obtain ⟨⟨disp, u⟩, h1, h2⟩ := andThen_eq_next.mp h
  obtain ⟨w, h2, h3⟩ := andThen_eq_next.mp h2
  obtain ⟨m, g, d, e, rfl, -⟩ := readRel_frame h1
  obtain ⟨m', g', d', e', rfl, -⟩ := pushWord_frame h2
  cases h3
  exact ⟨fun r _ => rfl, rfl, nofun, fun _ => .refl ..⟩

theorem execRet_writes (h : execRet s = .next t) : WritesAsListed .ret s t := by
  obtain ⟨⟨w, u⟩, h1, h2⟩ := andThen_eq_next.mp h
  obtain ⟨m, g, d, e, rfl, -⟩ := popWord_frame h1
  cases h2
  exact ⟨fun r _ => rfl, rfl, nofun, fun _ => .refl ..⟩

theorem execTrap_writes (h : execTrap s = .next t) : WritesAsListed .trap s t := by
  obtain ⟨m, g, d, e, w, rfl, -⟩ := enterException_frame h
  exact ⟨fun r _ => rfl, rfl, nofun, fun _ => .set_i rfl⟩

/-- IRET takes all flags, A and X from the stack, and leaves Y (R333). -/
theorem execIret_writes (h : execIret s = .next t) : WritesAsListed .iret s t := by
  obtain ⟨cc, a, x, w, m, g, d, e, rfl, -⟩ := returnFromException_frame h
  refine ⟨fun r hr => ?_, rfl, nofun, fun _ => ⟨nofun, nofun, nofun, nofun⟩⟩
  cases r with
  | a => cases hr
  | x => cases hr
  | y => rfl

/-- WHAT AN INSTRUCTION WRITES: registers and flags change as its tables say, whatever operands it has. -/
theorem exec_writes (h : exec i s = .next t) : WritesAsListed i s t := by
  cases i
  case adc | add =>
    simp only [exec, execAdc, execAdd] at h
    exact modifyAcc_writes h rfl rfl fun _ => .set_hnzc rfl rfl rfl
  case sub | sbc =>
    simp only [exec, execSub, execSbc] at h
    exact modifyAcc_writes h rfl rfl fun _ => .set_nzc rfl rfl
  case and | or | xor => exact modifyAcc_writes h rfl rfl fun _ => .set_nz rfl
  case cp =>
    simp only [exec, execCp] at h
    exact compareReg_writes h rfl fun _ => .set_nzc rfl rfl
  case bcp => exact compareReg_writes h rfl fun _ => .set_nz rfl
  case inc | dec | swap => exact modifyDst_writes h (fun q hq => by rw [hq]; rfl) rfl fun _ => .set_nz rfl
  case cpl | neg | sll | sla | srl | sra | rlc | rrc =>
    exact modifyDst_writes h (fun q hq => by rw [hq]; rfl) rfl fun _ => .set_nzc rfl rfl
  case bset | bres =>
    simp only [exec, execBset, execBres] at h
    exact modifyBit_writes h rfl
  case btjt | btjf => exact testBit_writes h rfl rfl rfl
  case jra | jrt | jrc | jrnc | jrult | jruge | jreq | jrne | jrmi | jrpl | jrh | jrnh | jrm | jrnm | jrugt | jrule | jrih |
      jril =>
    exact branchIf_writes h rfl rfl
  case jrf => exact execJrf_writes h
  case mul => exact execMul_writes h
  case tnz => exact execTnz_writes h
  case ld => exact execLd_writes h
  case ldStore => exact execLdStore_writes h
  case ldRegReg => cases h; exact transfer_writes rfl rfl rfl
  case ldRegS => cases h; exact transfer_writes rfl rfl rfl
  case ldSReg => exact execLdSReg_writes h
  case clr => exact execClr_writes h
  case push => exact execPush_writes h
  case pop => exact execPop_writes h
  case jp => exact execJp_writes h
  case call => exact execCall_writes h
  case callr => exact execCallr_writes h
  case ret => exact execRet_writes h
  case trap => exact execTrap_writes h
  case iret => exact execIret_writes h
  case rsp | nop => cases h; exact ⟨fun _ _ => rfl, rfl, fun _ => rfl, fun _ => .refl ..⟩
  case sim | rim | wfi | halt => cases h; exact ⟨fun _ _ => rfl, rfl, fun _ => rfl, fun _ => .set_i rfl⟩
  case scf | rcf => cases h; exact ⟨fun _ _ => rfl, rfl, fun _ => rfl, fun _ => .set_c rfl⟩

end

/-- Settles O24, by what every instruction writes. -/
theorem flagWriters : Obligations.FlagWriters := fun _ _ _ hd h => (exec_writes h).flags hd

/-- Settles O25, by what every instruction writes. -/
theorem registerWriters : Obligations.RegisterWriters := fun _ r _ _ h => (exec_writes h).regs r

/-- Settles O26, by what every instruction writes. -/
theorem stackPointerMoves : Obligations.StackPointerMoves := fun _ _ _ h => (exec_writes h).sp

/-- Settles O27, by what every instruction writes. -/
theorem programCounterWriters : Obligations.ProgramCounterWriters := fun _ _ _ h => (exec_writes h).pc

end Sys2Proof.Machine
end

section
/-! SUPPORT. The proofs for the statements of `10_state.md`, third part: what byte accesses, the stack and exceptions do not look at (R44). -/

namespace Sys2Proof.Machine

/-! ## Registers an operation does not look at -/

section
variable {α β : Type}

/-- A result with `f` done to the state in it. -/
def onState (f : State → State) (r : Res (α × State)) : Res (α × State) := andThen r fun p => .next (p.1, f p.2)

@[simp] theorem onState_next (f : State → State) (v : α) (s : State) : onState f (.next (v, s)) = .next (v, f s) := rfl

@[simp] theorem andThen_onState (f : State → State) (r : Res (α × State)) (k : α × State → Res β) :
    andThen (onState f r) k = andThen r fun p => k (p.1, f p.2) := by
  cases r <;> rfl

end

/-- `f` changes registers that byte accesses and the stack do not look at: not the bus, the device or SP, and it does not matter
whether it is done before or after those change. -/
structure Unseen (f : State → State) : Prop where
  bus : ∀ s, (f s).bus = s.bus
  device : ∀ s, (f s).device = s.device
  sp : ∀ s, (f s).sp = s.sp
  afterBus : ∀ s t, f (s.afterBus t) = (f s).afterBus t
  setSp : ∀ s p, f { s with sp := p } = { f s with sp := p }

/-- The state with another Y. -/
def State.withY (s : State) (y : Byte) : State := { s with y := y }

/-- The state with other condition codes. -/
def State.withCC (s : State) (cc : CC) : State := { s with cc := cc }

theorem unseen_withY (y : Byte) : Unseen fun s => s.withY y :=
  ⟨fun _ => rfl, fun _ => rfl, fun _ => rfl, fun _ _ => rfl, fun _ _ => rfl⟩

theorem unseen_withCC (cc : CC) : Unseen fun s => s.withCC cc :=
  ⟨fun _ => rfl, fun _ => rfl, fun _ => rfl, fun _ _ => rfl, fun _ _ => rfl⟩

section
variable {f : State → State}

theorem Unseen.spAddr (hf : Unseen f) (s : State) : (f s).spAddr = s.spAddr := by
  rw [State.spAddr, State.spAddr, hf.device, hf.sp]

theorem readByte_unseen (hf : Unseen f) (s : State) (a : Word) : readByte (f s) a = onState f (readByte s a) := by
  rw [readByte_regs a (hf.bus s) (hf.device s)]
  cases h : readByte s a with
  | fault e => rfl
  | refused e => rfl
  | next p =>
    obtain ⟨v, t⟩ := p
    obtain ⟨m, g, d, e, ht, -⟩ := readByte_frame h
    simp only [andThen_next, onState_next, ← hf.afterBus, ← State.eq_afterBus ⟨m, g, d, e, ht⟩]

theorem writeByte_unseen (hf : Unseen f) (s : State) (a : Word) (v : Byte) :
    writeByte (f s) a v = andThen (writeByte s a v) fun t => .next (f t) := by
  rw [writeByte_regs a v (hf.bus s) (hf.device s)]
  cases h : writeByte s a v with
  | fault e => rfl
  | refused e => rfl
  | next t =>
    obtain ⟨m, g, d, e, ht, -⟩ := writeByte_frame h
    rw [andThen_next, andThen_next, ← hf.afterBus, ← State.eq_afterBus ⟨m, g, d, e, ht⟩]

theorem readWord_unseen (hf : Unseen f) (s : State) (a : Word) : readWord (f s) a = onState f (readWord s a) := by
  simp only [readWord, readByte_unseen hf, onState, andThen_assoc, andThen_next]

theorem pushByte_unseen (hf : Unseen f) (s : State) (v : Byte) :
    pushByte (f s) v = andThen (pushByte s v) fun t => .next (f t) := by
  have h (t : State) : { f t with sp := (f t).sp - 1 } = f { t with sp := t.sp - 1 } := by rw [hf.setSp t (t.sp - 1), hf.sp]
  simp only [pushByte, hf.spAddr, writeByte_unseen hf, h, andThen_assoc, andThen_next]

theorem popByte_unseen (hf : Unseen f) (s : State) : popByte (f s) = onState f (popByte s) := by
  have h : { f s with sp := (f s).sp + 1 } = f { s with sp := s.sp + 1 } := by rw [hf.setSp s (s.sp + 1), hf.sp]
  rw [popByte, h, hf.spAddr, readByte_unseen hf]
  rfl

theorem pushWord_unseen (hf : Unseen f) (s : State) (w : Word) :
    pushWord (f s) w = andThen (pushWord s w) fun t => .next (f t) := by
  simp only [pushWord, pushByte_unseen hf, andThen_assoc, andThen_next]

theorem popWord_unseen (hf : Unseen f) (s : State) : popWord (f s) = onState f (popWord s) := by
  simp only [popWord, popByte_unseen hf, onState, andThen_assoc, andThen_next]

end

/-! ## Y in exceptions -/

theorem pushContext_withY (s : State) (y : Byte) :
    pushContext (s.withY y) = andThen (pushContext s) fun t => .next (t.withY y) := by
  have hw (t : State) (w : Word) := pushWord_unseen (unseen_withY y) t w
  have hb (t : State) (v : Byte) := pushByte_unseen (unseen_withY y) t v
  simp only [pushContext, hw, hb, andThen_assoc, andThen_next]
  rfl

theorem enterException_withY (s : State) (v : Word) (y : Byte) :
    enterException (s.withY y) v = andThen (enterException s v) fun t => .next (t.withY y) := by
  have hr (t : State) : readWord { t.withY y with cc := { (t.withY y).cc with i := true } } v =
      onState (fun u => u.withY y) (readWord { t with cc := { t.cc with i := true } } v) :=
    readWord_unseen (unseen_withY y) { t with cc := { t.cc with i := true } } v
  simp only [enterException, pushContext_withY, hr, andThen_onState, andThen_assoc, andThen_next]
  rfl

theorem returnFromException_withY (s : State) (y : Byte) :
    returnFromException (s.withY y) = andThen (returnFromException s) fun t => .next (t.withY y) := by
  have h0 (t : State) : popByte (t.withY y) = onState (fun u => u.withY y) (popByte t) := popByte_unseen (unseen_withY y) t
  have h1 (t : State) (b : Byte) : popByte { t.withY y with cc := CC.ofByte b } =
      onState (fun u => u.withY y) (popByte { t with cc := CC.ofByte b }) := h0 { t with cc := CC.ofByte b }
  have h2 (t : State) (b : Byte) : popByte { t.withY y with a := b } =
      onState (fun u => u.withY y) (popByte { t with a := b }) := h0 { t with a := b }
  have h3 (t : State) (b : Byte) : popWord { t.withY y with x := b } =
      onState (fun u => u.withY y) (popWord { t with x := b }) := popWord_unseen (unseen_withY y) { t with x := b }
  simp only [returnFromException, h0, h1, h2, h3, andThen_onState, andThen_assoc, andThen_next]
  rfl

theorem enterInterrupt_withY (k : Nat) (src : IrqSource) (s : State) (y : Byte) :
    enterInterrupt k src (s.withY y) = andThen (enterInterrupt k src s) fun t => .next (t.withY y) := by
  simp only [enterInterrupt, enterException_withY, andThen_assoc, andThen_next]
  rfl

/-- Settles O31: the sequences push and pop, and a push or a pop does not look at Y; what they leave names no new Y. -/
theorem yIsNeverStacked : Obligations.YIsNeverStacked := by
  refine fun s y => ⟨enterException_withY s _ y, returnFromException_withY s y, fun k src => enterInterrupt_withY k src s y, ?_⟩
  rintro t (h | h | ⟨k, src, h⟩)
  · obtain ⟨m, g, d, e, w, rfl, -⟩ := enterException_frame h
    rfl
  · obtain ⟨cc, a, x, w, m, g, d, e, rfl, -⟩ := returnFromException_frame h
    rfl
  · obtain ⟨u, h1, h2⟩ := andThen_eq_next.mp h
    obtain ⟨m, g, d, e, w, rfl, -⟩ := enterException_frame h1
    cases h2
    rfl

end Sys2Proof.Machine
end

section
/-! SUPPORT. The proofs for the statements of `10_state.md`, fourth part: which instruction reads which flag (R39). -/

namespace Sys2Proof.Machine

/-! ## Results that differ in the condition codes alone -/

theorem SameButFlags.refl (r : Res State) : SameButFlags r r := fun _ => rfl

theorem SameButFlags.next {s t : State} (h : ∀ cc, s.withCC cc = t.withCC cc) : SameButFlags (.next s) (.next t) :=
  fun cc => congrArg Host.Outcome.next (h cc)

/-- What comes out with other flags, whatever they are. -/
theorem SameButFlags.of_withCC {r r' : Res State} {cc : CC} (h : r' = andThen r fun t => .next (t.withCC cc)) :
    SameButFlags r r' := by
  intro c
  rw [h, andThen_assoc]
  rfl

/-- After the same result, what goes on alike but for the flags. -/
theorem SameButFlags.bind {α : Type} {r : Res α} {k l : α → Res State}
    (h : ∀ v, r = .next v → SameButFlags (k v) (l v)) : SameButFlags (andThen r k) (andThen r l) := by
  cases r with
  | next v => exact h v rfl
  | fault f => exact .refl _
  | refused e => exact .refl _

/-! ## Reading an operand does not look at the flags -/

section
variable (s : State) (cc : CC)

theorem readByte_withCC (a : Word) : readByte (s.withCC cc) a = onState (fun t => t.withCC cc) (readByte s a) :=
  readByte_unseen (unseen_withCC cc) s a

theorem index_withCC (n : Index) : (s.withCC cc).index n = s.index n := rfl

theorem effAddr_withCC (m : MemForm) : effAddr m (s.withCC cc) = onState (fun t => t.withCC cc) (effAddr m s) := by
  have hw (a : Word) : readWord (s.withCC cc) a = onState (fun t => t.withCC cc) (readWord s a) :=
    readWord_unseen (unseen_withCC cc) s a
  cases m with
  | short | long | idx0 | idx1 | idx2 => rfl
  | indL => exact hw _
  | indS => simp only [effAddr, readByte_withCC, onState, andThen_assoc, andThen_next]
  | indxS => simp only [effAddr, readByte_withCC, onState, andThen_assoc, andThen_next, index_withCC]
  | indxL => simp only [effAddr, hw, onState, andThen_assoc, andThen_next, index_withCC]

theorem readMem_withCC (m : MemForm) : readMem m (s.withCC cc) = onState (fun t => t.withCC cc) (readMem m s) := by
  simp only [readMem, effAddr_withCC, readByte_withCC, onState, andThen_assoc, andThen_next]

theorem readSrc_withCC (src : Src) : readSrc src (s.withCC cc) = onState (fun t => t.withCC cc) (readSrc src s) := by
  cases src with
  | imm => rfl
  | mem m => exact readMem_withCC s cc m

theorem readDst_withCC (dst : Dst) : readDst dst (s.withCC cc) = onState (fun t => t.withCC cc) (readDst dst s) := by
  cases dst with
  | reg => rfl
  | mem m => exact readMem_withCC s cc m

theorem readRel_withCC (rel : Rel) : readRel rel (s.withCC cc) = onState (fun t => t.withCC cc) (readRel rel s) := by
  cases rel with
  | direct => rfl
  | indirect => exact readByte_withCC s cc _

theorem bitAddr_withCC (b : BitForm) : bitAddr b (s.withCC cc) = onState (fun t => t.withCC cc) (bitAddr b s) := by
  cases b with
  | direct => rfl
  | indirect =>
    simp only [bitAddr, readByte_withCC, onState, andThen_assoc, andThen_next]

theorem writeByte_withCC (a : Word) (v : Byte) :
    writeByte (s.withCC cc) a v = andThen (writeByte s a v) fun t => .next (t.withCC cc) :=
  writeByte_unseen (unseen_withCC cc) s a v

theorem pushByte_withCC (v : Byte) : pushByte (s.withCC cc) v = andThen (pushByte s v) fun t => .next (t.withCC cc) :=
  pushByte_unseen (unseen_withCC cc) s v

theorem pushWord_withCC (w : Word) : pushWord (s.withCC cc) w = andThen (pushWord s w) fun t => .next (t.withCC cc) :=
  pushWord_unseen (unseen_withCC cc) s w

theorem popByte_withCC : popByte (s.withCC cc) = onState (fun t => t.withCC cc) (popByte s) :=
  popByte_unseen (unseen_withCC cc) s

theorem popWord_withCC : popWord (s.withCC cc) = onState (fun t => t.withCC cc) (popWord s) :=
  popWord_unseen (unseen_withCC cc) s

theorem setReg_withCC (r : Reg) (v : Byte) : (s.withCC cc).setReg r v = (s.setReg r v).withCC cc := by
  cases r <;> rfl

/-- The same register written in both, and any flags. -/
theorem sameButFlags_setReg (r : Reg) (v : Byte) (c c' : CC) :
    SameButFlags (.next { s.setReg r v with cc := c }) (.next { (s.withCC cc).setReg r v with cc := c' }) :=
  .next fun _ => by rw [setReg_withCC]; rfl

end

/-! ## An instruction that does not read a flag (R39) -/

section
variable {s : State} {cc : CC}

theorem modifyAcc_sameButFlags {src : Src} {f : Byte → Byte → CC → Byte × CC}
    (hf : ∀ m, (f s.a m cc).1 = (f s.a m s.cc).1) :
    SameButFlags (modifyAcc src s f) (modifyAcc src (s.withCC cc) f) := by
  simp only [modifyAcc, readSrc_withCC, andThen_onState]
  refine .bind fun ⟨m, t⟩ ht => ?_
  obtain ⟨k, g, d, e, rfl, -⟩ := readSrc_frame ht
  exact .next fun _ => by simp only [State.withCC, hf]

theorem compareReg_sameButFlags {r : Reg} {src : Src} {f : Byte → Byte → CC → Byte × CC} :
    SameButFlags (compareReg r src s f) (compareReg r src (s.withCC cc) f) := by
  simp only [compareReg, readSrc_withCC, andThen_onState]
  exact .bind fun _ _ => .next fun _ => rfl

theorem modifyDst_sameButFlags {dst : Dst} {f : Byte → CC → Byte × CC} (hf : ∀ v, (f v cc).1 = (f v s.cc).1) :
    SameButFlags (modifyDst dst s f) (modifyDst dst (s.withCC cc) f) := by
  cases dst with
  | reg r =>
    simp only [modifyDst]
    rw [show (s.withCC cc).reg r = s.reg r from rfl, show (s.withCC cc).cc = cc from rfl, hf]
    exact sameButFlags_setReg s cc r _ _ _
  | mem m =>
    simp only [modifyDst, effAddr_withCC, readByte_withCC, writeByte_withCC, andThen_onState, andThen_assoc, andThen_next]
    refine .bind fun ⟨ea, t⟩ ht => .bind fun ⟨v, u⟩ hu => ?_
    obtain ⟨k, g, d, e, rfl, -⟩ := effAddr_frame ht
    obtain ⟨k', g', d', e', rfl, -⟩ := readByte_frame hu
    simp only [State.withCC, hf]
    exact .bind fun _ _ => .next fun _ => rfl

theorem modifyBit_sameButFlags {b : BitForm} {f : Byte → Byte} :
    SameButFlags (modifyBit b s f) (modifyBit b (s.withCC cc) f) := by
  simp only [modifyBit, bitAddr_withCC, readByte_withCC, writeByte_withCC, andThen_onState]
  exact .bind fun _ _ => .bind fun _ _ => .of_withCC rfl

theorem testBit_sameButFlags {b : BitForm} {pos : BitVec 3} {disp : Byte} {want : Bool} :
    SameButFlags (testBit b pos disp want s) (testBit b pos disp want (s.withCC cc)) := by
  simp only [testBit, bitAddr_withCC, readByte_withCC, andThen_onState]
  exact .bind fun _ _ => .bind fun _ _ => .next fun _ => rfl

/-- A branch on a condition that is the same for both flags. -/
theorem branchIf_sameButFlags {rel : Rel} {c c' : Bool} (h : c' = c) :
    SameButFlags (branchIf c rel s) (branchIf c' rel (s.withCC cc)) := by
  subst h
  simp only [branchIf, readRel_withCC, andThen_onState]
  refine .bind fun _ _ => ?_
  cases c' with
  | true => exact .next fun _ => rfl
  | false => exact .next fun _ => rfl

theorem execTnz_sameButFlags {dst : Dst} : SameButFlags (execTnz dst s) (execTnz dst (s.withCC cc)) := by
  simp only [execTnz, readDst_withCC, andThen_onState]
  exact .bind fun _ _ => .next fun _ => rfl

theorem execLd_sameButFlags {r : Reg} {src : Src} : SameButFlags (execLd r src s) (execLd r src (s.withCC cc)) := by
  simp only [execLd, readSrc_withCC, andThen_onState]
  exact .bind fun p _ => sameButFlags_setReg p.2 cc r _ _ _

theorem execLdStore_sameButFlags {m : MemForm} {r : Reg} :
    SameButFlags (execLdStore m r s) (execLdStore m r (s.withCC cc)) := by
  simp only [execLdStore, effAddr_withCC, writeByte_withCC, andThen_onState, andThen_assoc, andThen_next]
  exact .bind fun _ _ => .bind fun _ _ => .next fun _ => rfl

/-- The read of CLR, where there is one (R67, D17). -/
theorem clrRead_withCC (s : State) (cc : CC) (ea : Word) :
    (if (s.withCC cc).device.clrReadsDest then readByte (s.withCC cc) ea else .next (0x00#8, s.withCC cc)) =
      onState (fun t => t.withCC cc) (if s.device.clrReadsDest then readByte s ea else .next (0x00#8, s)) := by
  rw [show (s.withCC cc).device = s.device from rfl]
  split
  · exact readByte_withCC s cc ea
  · rfl

theorem execClr_sameButFlags {dst : Dst} : SameButFlags (execClr dst s) (execClr dst (s.withCC cc)) := by
  cases dst with
  | reg r => exact sameButFlags_setReg s cc r _ _ _
  | mem m =>
    simp only [execClr, overwriteDst, effAddr_withCC, clrRead_withCC, writeByte_withCC, andThen_onState, andThen_assoc,
      andThen_next]
    exact .bind fun _ _ => .bind fun _ _ => .bind fun _ _ => .next fun _ => rfl

theorem execPop_sameButFlags {r : StackReg} : SameButFlags (execPop r s) (execPop r (s.withCC cc)) := by
  simp only [execPop, popByte_withCC, andThen_onState]
  refine .bind fun _ _ => .next fun _ => ?_
  cases r <;> rfl

theorem execJp_sameButFlags {m : MemForm} : SameButFlags (execJp m s) (execJp m (s.withCC cc)) := by
  simp only [execJp, effAddr_withCC, andThen_onState]
  exact .bind fun _ _ => .next fun _ => rfl

theorem execCall_sameButFlags {m : MemForm} : SameButFlags (execCall m s) (execCall m (s.withCC cc)) := by
  simp only [execCall, effAddr_withCC, pushWord_withCC, andThen_onState, andThen_assoc, andThen_next]
  exact .bind fun _ _ => .bind fun _ _ => .next fun _ => rfl

theorem execCallr_sameButFlags {rel : Rel} : SameButFlags (execCallr rel s) (execCallr rel (s.withCC cc)) := by
  simp only [execCallr, readRel_withCC, pushWord_withCC, andThen_onState, andThen_assoc, andThen_next]
  exact .bind fun _ _ => .bind fun _ _ => .next fun _ => rfl

theorem execRet_sameButFlags : SameButFlags (execRet s) (execRet (s.withCC cc)) := by
  simp only [execRet, popWord_withCC, andThen_onState]
  exact .bind fun _ _ => .next fun _ => rfl

/-- IRET takes its flags from the stack, before anything could look at those it found. -/
theorem execIret_sameButFlags : SameButFlags (execIret s) (execIret (s.withCC cc)) := by
  simp only [execIret, returnFromException, popByte_withCC, andThen_onState]
  exact .refl _

theorem withCC_eq_self (hh : cc.h = s.cc.h) (hi : cc.i = s.cc.i) (hn : cc.n = s.cc.n) (hz : cc.z = s.cc.z)
    (hc : cc.c = s.cc.c) : s.withCC cc = s := by
  have h : cc = s.cc := by
    calc
      cc = ⟨cc.h, cc.i, cc.n, cc.z, cc.c⟩ := rfl
      _ = s.cc := by rw [hh, hi, hn, hz, hc]
  rw [h]
  rfl

end

/-- Settles O30: each operation does the same with other flags, and the value it computes reads only flags of the table. -/
theorem flagReaders : Obligations.FlagReaders := by
  intro i s cc hh hi hn hz hc
  change SameButFlags (exec i s) (exec i (s.withCC cc))
  cases i
  case add | sub | and | or | xor =>
    simp only [exec, execAdd, execSub, execAnd, execOr, execXor]
    exact modifyAcc_sameButFlags fun _ => rfl
  case adc | sbc =>
    simp only [exec, execAdc, execSbc]
    exact modifyAcc_sameButFlags fun _ => by rw [hc rfl]; rfl
  case cp | bcp =>
    simp only [exec, execCp, execBcp]
    exact compareReg_sameButFlags
  case cpl | neg | inc | dec | sll | sla | srl | sra | swap => exact modifyDst_sameButFlags fun _ => rfl
  case rlc | rrc => exact modifyDst_sameButFlags fun _ => by simp only [rlcFlags, rrcFlags, hc rfl]
  case bset | bres =>
    simp only [exec, execBset, execBres]
    exact modifyBit_sameButFlags
  case btjt | btjf => exact testBit_sameButFlags
  case jra | jrt | jrf | jrih | jril => exact branchIf_sameButFlags rfl
  case jrc | jrult => exact branchIf_sameButFlags (hc rfl)
  case jrnc | jruge => exact branchIf_sameButFlags (congrArg not (hc rfl))
  case jreq => exact branchIf_sameButFlags (hz rfl)
  case jrne => exact branchIf_sameButFlags (congrArg not (hz rfl))
  case jrmi => exact branchIf_sameButFlags (hn rfl)
  case jrpl => exact branchIf_sameButFlags (congrArg not (hn rfl))
  case jrh => exact branchIf_sameButFlags (hh rfl)
  case jrnh => exact branchIf_sameButFlags (congrArg not (hh rfl))
  case jrm => exact branchIf_sameButFlags (hi rfl)
  case jrnm => exact branchIf_sameButFlags (congrArg not (hi rfl))
  case jrugt => exact branchIf_sameButFlags (congrArg₂ (fun c z => !c && !z) (hc rfl) (hz rfl))
  case jrule => exact branchIf_sameButFlags (congrArg₂ or (hc rfl) (hz rfl))
  case tnz => exact execTnz_sameButFlags
  case ld => exact execLd_sameButFlags
  case ldStore => exact execLdStore_sameButFlags
  case clr => exact execClr_sameButFlags
  case pop => exact execPop_sameButFlags
  case jp => exact execJp_sameButFlags
  case call => exact execCall_sameButFlags
  case callr => exact execCallr_sameButFlags
  case ret => exact execRet_sameButFlags
  case iret => exact execIret_sameButFlags
  case ldRegReg dst _ => exact sameButFlags_setReg s cc dst _ _ _
  case ldRegS r => exact sameButFlags_setReg s cc r _ _ _
  case mul n => exact .next fun _ => by cases n <;> rfl
  case push r =>
    cases r with
    | a | x | y => exact .of_withCC (pushByte_withCC s cc _)
    | cc => rw [withCC_eq_self (hh rfl) (hi rfl) (hn rfl) (hz rfl) (hc rfl)]; exact .refl _
  case trap => rw [withCC_eq_self (hh rfl) (hi rfl) (hn rfl) (hz rfl) (hc rfl)]; exact .refl _
  case ldSReg | rsp | nop | wfi | halt | sim | rim | scf | rcf => exact .next fun _ => rfl

end Sys2Proof.Machine
end

section
/-! SUPPORT. The proofs for the statements of `10_state.md`, fifth part: the stack (R30 to R32), sums and differences (R37, R240 to R243), and
transfers (R164 to R166). -/

namespace Sys2Proof.Machine

/-! ## The stack -/

theorem pushAll_append (vs ws : List Byte) (s : State) :
    pushAll s (vs ++ ws) = andThen (pushAll s vs) fun t => pushAll t ws := by
  induction vs generalizing s with
  | nil => rfl
  | cons v vs ih =>
    simp only [List.cons_append, pushAll, andThen_assoc, ih]

/-- From `n` pushes down, `k + 1` up is the slot of the push that was `k` before the last. -/
theorem slot_of_pops (s : State) {n k : Nat} (hk : k < n) :
    s.device.spPreset ++ (s.sp - BitVec.ofNat 6 n + BitVec.ofNat 6 (k + 1)) = s.slot (n - 1 - k) := by
  have hn : BitVec.ofNat 6 n = BitVec.ofNat 6 (n - 1 - k) + BitVec.ofNat 6 (k + 1) := by
    rw [← BitVec.ofNat_add, show n - 1 - k + (k + 1) = n by omega]
  rw [State.slot, hn, ← BitVec.sub_sub, BitVec.sub_add_cancel]

/-- Settles O35: the bytes pushed stand in their slots, and the pops read those slots from the last to the first. -/
theorem stackIsLifo : Obligations.StackIsLifo := by
  intro s vs hq hram hlen
  obtain ⟨t, hpush, ht, hbytes, -, hsp⟩ := pushed_of s vs hq hlen fun _ _ => hram _
  have hdev : t.device = s.device := by rw [ht]
  have hquiet : t.quiet := hq.congr (by rw [ht]) (by rw [ht])
  refine ⟨t, hpush, ?_⟩
  rw [popAll_ram _ t hquiet (State.stackIsRam_congr hdev hram), hdev, hsp, BitVec.sub_add_cancel]
  congr 2
  refine List.ext_getElem (by simp) fun k hk hk' => ?_
  have hkn : k < vs.length := by simpa using hk
  rw [List.getElem_map, List.getElem_range, slot_of_pops s hkn, hbytes _ (by omega), List.getElem_reverse,
    List.getD_eq_getElem]

/-- Sixty-four pushes come round to the first slot. -/
theorem slot_zero_of_wrap {s t : State} (hd : t.device = s.device) (hsp : t.sp = s.sp) : t.spAddr = s.slot 0 := by
  rw [← State.spAddr_eq_slot, State.spAddr, State.spAddr, hd, hsp]

/-- Settles O36: after 64 pushes SP is where it was, so that the next store is at the first slot, which is no other slot. -/
theorem stackWraps : Obligations.StackWraps := by
  intro s vs v hq hram hlen
  obtain ⟨t, hpush, ht, hbytes, hrest, hsp⟩ := pushed_of s vs hq hlen.le fun _ _ => hram _
  have hdev : t.device = s.device := by rw [ht]
  have hquiet : t.quiet := hq.congr (by rw [ht]) (by rw [ht])
  have hwrap : t.sp = s.sp := by rw [hsp, hlen]; exact BitVec.sub_zero _
  have haddr : t.spAddr = s.slot 0 := slot_zero_of_wrap hdev hwrap
  have hlast := pushByte_ram v hquiet (State.stackIsRam_congr hdev hram t.sp)
  generalize hu : ({ t with mem := t.mem.write t.spAddr.toNat v, sp := t.sp - 1 } : State) = u at hlast
  have hstore : StoredAt t u (s.slot 0) v := haddr ▸ storedAt_write (by rw [← hu])
  refine ⟨u, ?_, by rw [← hu, ← hwrap], by rw [hstore, if_pos rfl], fun k h1 hk => ?_, fun b hb => ?_⟩
  · simp only [pushAll_append, hpush, andThen_next, pushAll, hlast]
  · have hne : s.slot k ≠ s.slot 0 := fun he => by
      have := slot_inj hk (by omega) he
      omega
    rw [hstore, if_neg hne, hbytes k (by omega)]
  · rw [hstore, if_neg (hb 0 (by omega)), hrest b fun k hk => hb k (by omega)]

/-! ## Sums, differences and transfers -/

/-- A sum mod 256 with its carry out of bit 7 is the exact sum (R37). -/
theorem addFlags_exact (a m : Byte) (cin : Bool) (cc : CC) :
    (addFlags a m cin cc).1.toNat + 256 * (addFlags a m cin cc).2.c.toNat = a.toNat + m.toNat + cin.toNat := by
  have ha := a.isLt
  have hm := m.isLt
  have hc := cin.toNat_le
  simp only [addFlags, BitVec.toNat_ofNat]
  generalize cin.toNat = k at hc ⊢
  simp only [Bool.toNat, Bool.cond_decide]
  split <;> omega

/-- A difference mod 256 with its borrow is the exact difference (R37). -/
theorem subFlags_exact (a m : Byte) (cin : Bool) (cc : CC) :
    (subFlags a m cin cc).1.toNat + m.toNat + cin.toNat = a.toNat + 256 * (subFlags a m cin cc).2.c.toNat := by
  have ha := a.isLt
  have hm := m.isLt
  have hc := cin.toNat_le
  simp only [subFlags, BitVec.toNat_ofInt]
  generalize cin.toNat = k at hc ⊢
  simp only [Bool.toNat, Bool.cond_decide]
  split <;> omega

/-- An operation that adds by `addFlags` sums as the claims say it. -/
theorem sums_of_modifyAcc {i : Instr} {src : Src} {s s1 : State} {m : Byte} {cin : Bool} {f : Byte → Byte → CC → Byte × CC}
    (h : readSrc src s = .next (m, s1)) (hi : exec i s = modifyAcc src s f) (hf : f s.a m s.cc = addFlags s.a m cin s.cc) :
    Sums i s s1 m cin := by
  refine ⟨_, _, addFlags_exact s.a m cin s.cc, ?_⟩
  rw [hi, modifyAcc_of_read f h, hf, ← CC.setNZ_eq_nzOf]
  rfl

/-- An operation that subtracts by `subFlags` subtracts as the claims say it. -/
theorem subtracts_of_modifyAcc {i : Instr} {src : Src} {s s1 : State} {m : Byte} {cin : Bool}
    {f : Byte → Byte → CC → Byte × CC} (h : readSrc src s = .next (m, s1)) (hi : exec i s = modifyAcc src s f)
    (hf : f s.a m s.cc = subFlags s.a m cin s.cc) : Subtracts i s s1 m cin := by
  refine ⟨_, _, subFlags_exact s.a m cin s.cc, ?_⟩
  rw [hi, modifyAcc_of_read f h, hf, ← CC.setNZ_eq_nzOf]
  rfl

/-- Settles O39: ADD and ADC are `addFlags` with carry 0 and with C. -/
theorem addResult : Obligations.AddResult := fun _ _ _ _ h =>
  ⟨sums_of_modifyAcc (f := fun a m cc => addFlags a m false cc) h rfl rfl,
    sums_of_modifyAcc (f := fun a m cc => addFlags a m cc.c cc) h rfl rfl⟩

/-- Settles O40: SUB and SBC are `subFlags` with borrow 0 and with C. -/
theorem subtractResult : Obligations.SubtractResult := fun _ _ _ _ h =>
  ⟨subtracts_of_modifyAcc (f := fun a m cc => subFlags a m false cc) h rfl rfl,
    subtracts_of_modifyAcc (f := fun a m cc => subFlags a m cc.c cc) h rfl rfl⟩

/-- The model's flags of a transfer are those the claims name. -/
theorem transferFlags_eq_transferred (s : State) (v : Byte) : transferFlags s v = transferred s v := by
  rw [transferFlags, transferred, CC.setNZ_eq_nzOf]

/-- S is SP_PRESET[1:0] above SP[5:0] (R27). -/
theorem spLow_toNat (s : State) : s.spLow.toNat = 64 * (s.device.spPreset.toNat % 4) + s.sp.toNat := by
  have hsp := s.sp.isLt
  rw [State.spLow, lsByte, State.spAddr, BitVec.extractLsb'_toNat, stackAddr_toNat]
  omega

/-- Settles O46: the three transfers by their definitions, SP[5:0] being the register mod 64. -/
theorem transferResult : Obligations.TransferResult := by
  intro d q s
  refine ⟨?_, ⟨(s.reg q).extractLsb' 0 6, rfl, ?_⟩, s.spLow, spLow_toNat s, ?_⟩
  · rw [← transferFlags_eq_transferred]; rfl
  · rw [← transferFlags_eq_transferred]; rfl
  · rw [← transferFlags_eq_transferred]; rfl

end Sys2Proof.Machine
end

section
/-! SUPPORT. The proofs for the statements of `20_memory.md`, first part: equal contents are equal data (R60), and an access by the kind of its
region (R69, R71, R74). -/

namespace Sys2Proof.Machine

/-! ## The canonical form -/

/-- What a canonical memory lists, another one that reads alike lists as well. -/
theorem Memory.subset_of_reads {m m' : Memory} (h : m.wf) (h' : m'.wf) (hr : ∀ a < 65536, m.read a = m'.read a) : m ⊆ m' := by
  intro c hc
  obtain ⟨hread, hne⟩ := (Memory.mem_iff_read h c).mp hc
  exact (Memory.mem_iff_read h' c).mpr ⟨(hr c.1 (h.2 c hc).1).symm.trans hread, hne⟩

/-- A canonical memory lists no entry twice. -/
theorem Memory.nodup_of_wf {m : Memory} (h : m.wf) : m.Nodup := h.1.imp fun hlt he => hlt.ne (congrArg Prod.fst he)

/-- Settles O34: the two memories list the same entries, once each and in the same order. -/
theorem canonicalMemoryIsUnique : Obligations.CanonicalMemoryIsUnique := by
  intro m m' h h' hr
  have hsub : m ⊆ m' := Memory.subset_of_reads h h' hr
  have hsub' : m' ⊆ m := Memory.subset_of_reads h' h fun a ha => (hr a ha).symm
  have hperm : m.Perm m' :=
    (List.perm_ext_iff_of_nodup (Memory.nodup_of_wf h) (Memory.nodup_of_wf h')).mpr fun _ => ⟨@hsub _, @hsub' _⟩
  exact hperm.eq_of_pairwise (fun _ _ _ _ hlt hgt => absurd hlt hgt.asymm) h.1 h'.1

/-! ## An access by the kind of its region -/

/-- A read of RAM, ROM or EEPROM: the byte there once the gap before it has landed. -/
theorem readByte_settled {s : State} {a : Word} (hf : s.frozen = false) (h : s.plainAt a) :
    readByte s a = .next (s.settle.byteAt a, s.settle) := by
  rw [readByte_open a hf, readMapped_plain ((State.plainAt_congr (State.settle_device s) a).mpr h)]

/-- LD A,long is one read. -/
theorem exec_ldLong (a : Word) (s : State) : exec (.ld .a (.mem (.long a))) s =
    andThen (readByte s a) fun p => .next { p.2 with a := p.1, cc := nzOf p.2.cc p.1 } := by
  simp only [← CC.setNZ_eq_nzOf]
  rfl

/-- LD long,A is one write. -/
theorem exec_ldStoreLong (a : Word) (s : State) : exec (.ldStore (.long a) .a) s =
    andThen (writeByte s a s.a) fun t => .next { t with cc := nzOf s.cc s.a } := by
  rw [← CC.setNZ_eq_nzOf]
  rfl

/-- Settles O32: the two instructions are one access each, and the access is decided by the turn and the kind of the region. -/
theorem accessByRegionKind : Obligations.AccessByRegionKind := by
  intro a s
  simp only [exec_ldLong, exec_ldStoreLong]
  refine ⟨fun hf => ⟨fun hk => ?_, fun hk => ?_, fun hk => ?_, fun hk => ?_, fun hk => ?_, fun hk => ?_⟩,
    fun hf => ⟨?_, ?_⟩⟩
  · rw [readByte_settled hf hk, andThen_next, State.settle_cc]
  · rw [readByte_device hf hk, andThen_next, State.settle_cc]
    exact ⟨_, rfl⟩
  · rw [readByte_none hf hk, andThen_refused]
  · rw [writeByte_ram _ hf hk]
    exact ⟨_, rfl, storedAt_write rfl, rfl⟩
  · rw [writeByte_device _ hf hk, andThen_next, State.settle_events]
  · rw [writeByte_other _ hf (fun h => by simp [h] at hk) (fun h => by simp [h] at hk), andThen_refused]
  · rw [readByte_frozen a hf]
    exact ⟨_, rfl⟩
  · rw [writeByte_frozen a _ hf, andThen_next]

end Sys2Proof.Machine
end

section
/-! SUPPORT. The proofs for the statements of `20_memory.md`, second part: an instruction that stores nothing reads only (R67, R74), and
where every address is RAM no access is refused (R71). -/

namespace Sys2Proof.Machine

/-! ## Instructions that store nothing -/

@[simp] theorem State.bus_setReg (s : State) (r : Reg) (v : Byte) : (s.setReg r v).bus = s.bus := by
  cases r <;> rfl

@[simp] theorem State.bus_setStackReg (s : State) (r : StackReg) (v : Byte) : (s.setStackReg r v).bus = s.bus := by
  cases r <;> rfl

/-- What leaves the bus alone reads nothing and stores nothing. -/
theorem Bus.Reads.of_eq {p q : Bus} (h : q = p) : Bus.Reads p q := h ▸ .refl q

section
variable {s t : State}

theorem modifyAcc_reads {src : Src} {f : Byte → Byte → CC → Byte × CC} (h : modifyAcc src s f = .next t) :
    s.bus.Reads t.bus := by
  obtain ⟨_, _, _, _, _, -, hr⟩ := modifyAcc_frame h
  exact hr

theorem compareReg_reads {r : Reg} {src : Src} {f : Byte → Byte → CC → Byte × CC} (h : compareReg r src s f = .next t) :
    s.bus.Reads t.bus := by
  obtain ⟨_, _, _, _, _, -, hr⟩ := compareReg_frame h
  exact hr

theorem testBit_reads {b : BitForm} {pos : BitVec 3} {disp : Byte} {want : Bool} (h : testBit b pos disp want s = .next t) :
    s.bus.Reads t.bus := by
  obtain ⟨_, _, _, _, _, _, -, hr⟩ := testBit_frame h
  exact hr

theorem branchIf_reads {cond : Bool} {rel : Rel} (h : branchIf cond rel s = .next t) : s.bus.Reads t.bus := by
  obtain ⟨_, _, _, _, _, -, hr⟩ := branchIf_frame h
  exact hr

/-- A register operand changed does not reach the bus. -/
theorem modifyDst_reads {dst : Dst} {f : Byte → CC → Byte × CC} (h : modifyDst dst s f = .next t)
    (hd : ∀ m, dst ≠ .mem m) : s.bus.Reads t.bus := by
  cases dst with
  | reg r => cases h; exact .of_eq (s.bus_setReg r _)
  | mem m => exact absurd rfl (hd m)

theorem execClr_reads {dst : Dst} (h : execClr dst s = .next t) (hd : ∀ m, dst ≠ .mem m) : s.bus.Reads t.bus := by
  cases dst with
  | reg r => cases h; exact .of_eq (s.bus_setReg r _)
  | mem m => exact absurd rfl (hd m)

theorem execTnz_reads {dst : Dst} (h : execTnz dst s = .next t) : s.bus.Reads t.bus := by
  obtain ⟨⟨v, u⟩, h1, h2⟩ := andThen_eq_next.mp h
  obtain ⟨_, _, _, _, -, hr⟩ := readDst_frame h1
  cases h2
  exact hr

theorem execLd_reads {r : Reg} {src : Src} (h : execLd r src s = .next t) : s.bus.Reads t.bus := by
  obtain ⟨⟨v, u⟩, h1, h2⟩ := andThen_eq_next.mp h
  obtain ⟨_, _, _, _, -, hr⟩ := readSrc_frame h1
  cases h2
  exact hr.trans (.of_eq (u.bus_setReg r v))

theorem execPop_reads {r : StackReg} (h : execPop r s = .next t) : s.bus.Reads t.bus := by
  obtain ⟨⟨v, u⟩, h1, h2⟩ := andThen_eq_next.mp h
  obtain ⟨_, _, _, _, -, hr⟩ := popByte_frame h1
  cases h2
  exact hr.trans (.of_eq (u.bus_setStackReg r v))

theorem execJp_reads {m : MemForm} (h : execJp m s = .next t) : s.bus.Reads t.bus := by
  obtain ⟨⟨ea, u⟩, h1, h2⟩ := andThen_eq_next.mp h
  obtain ⟨_, _, _, _, -, hr⟩ := effAddr_frame h1
  cases h2
  exact hr

theorem execRet_reads (h : execRet s = .next t) : s.bus.Reads t.bus := by
  obtain ⟨⟨w, u⟩, h1, h2⟩ := andThen_eq_next.mp h
  obtain ⟨_, _, _, _, -, hr⟩ := popWord_frame h1
  cases h2
  exact hr

theorem execIret_reads (h : execIret s = .next t) : s.bus.Reads t.bus := by
  obtain ⟨_, _, _, _, _, _, _, _, -, hr⟩ := returnFromException_frame h
  exact hr

/-- AN INSTRUCTION THAT STORES NOTHING, neither to a memory destination nor by a push, reaches the bus by reads alone. -/
theorem exec_reads {i : Instr} (h : exec i s = .next t) (hi : i.storesMem = false) : s.bus.Reads t.bus := by
  cases i
  case adc | add | sub | sbc | and | or | xor =>
    simp only [exec, execAdc, execAdd, execSub, execSbc, execAnd, execOr, execXor] at h
    exact modifyAcc_reads h
  case cp | bcp => simp only [exec, execCp, execBcp] at h; exact compareReg_reads h
  case cpl | neg | inc | dec | sll | sla | srl | sra | rlc | rrc | swap =>
    exact modifyDst_reads h fun m hm => by subst hm; cases hi
  case clr => exact execClr_reads h fun m hm => by subst hm; cases hi
  case btjt | btjf => exact testBit_reads h
  case jra | jrt | jrf | jrc | jrnc | jrult | jruge | jreq | jrne | jrmi | jrpl | jrh | jrnh | jrm | jrnm | jrugt | jrule |
      jrih | jril =>
    exact branchIf_reads h
  case tnz => exact execTnz_reads h
  case ld => exact execLd_reads h
  case pop => exact execPop_reads h
  case jp => exact execJp_reads h
  case ret => exact execRet_reads h
  case iret => exact execIret_reads h
  case ldRegReg dst src => cases h; exact .of_eq (s.bus_setReg dst _)
  case ldRegS r => cases h; exact .of_eq (s.bus_setReg r _)
  case mul n => cases h; exact .of_eq (s.bus_setReg n.reg _)
  case ldSReg | rsp | nop | wfi | halt | sim | rim | scf | rcf => cases h; exact .refl _
  case ldStore | bset | bres | push | call | callr | trap => cases hi

end

/-- Settles O28: reads change memory only where another agent writes. -/
theorem memoryWriters : Obligations.MemoryWriters := fun _ _ _ h hi b hb => (exec_reads h hi).spared b hb

/-! ## Accesses where every address is RAM -/

section
variable {α β : Type} {P : α → Prop} {Q : β → Prop}

/-- The result is neither a fault nor a refusal, and `P` holds of what it answers. -/
def Yields (r : Res α) (P : α → Prop) : Prop := ∃ v, r = .next v ∧ P v

theorem Yields.next {v : α} (h : P v) : Yields (.next v) P := ⟨v, rfl, h⟩

theorem Yields.bind {r : Res α} {k : α → Res β} (hr : Yields r P) (hk : ∀ v, P v → Yields (k v) Q) :
    Yields (andThen r k) Q := by
  obtain ⟨v, rfl, hv⟩ := hr
  exact hk v hv

end

/-- The result answers a value, and a state in which every address is RAM. -/
abbrev ReadsOnRam {α : Type} (r : Res (α × State)) : Prop := Yields r fun p => p.2.allRam

/-- The result is a state in which every address is RAM. -/
abbrev EndsOnRam (r : Res State) : Prop := Yields r State.allRam

theorem State.allRam_congr {s t : State} (h : t.device = s.device) (hs : s.allRam) : t.allRam := fun a =>
  (State.kindAt_congr h a).trans (hs a)

section
variable {s : State}

theorem State.allRam.setReg (hs : s.allRam) (r : Reg) (v : Byte) : (s.setReg r v).allRam :=
  State.allRam_congr (s.setReg_device r v) hs

theorem State.allRam.settle (hs : s.allRam) : s.settle.allRam := State.allRam_congr s.settle_device hs

theorem readByte_onRam (hs : s.allRam) (a : Word) : ReadsOnRam (readByte s a) := by
  cases hf : s.frozen with
  | true => rw [readByte_frozen a hf]; exact .next hs
  | false => rw [readByte_settled hf (State.plainAt_of_ram (hs a))]; exact .next hs.settle

theorem writeByte_onRam (hs : s.allRam) (a : Word) (v : Byte) : EndsOnRam (writeByte s a v) := by
  cases hf : s.frozen with
  | true => rw [writeByte_frozen a v hf]; exact .next hs
  | false => rw [writeByte_ram v hf (hs a)]; exact .next hs.settle

theorem readWord_onRam (hs : s.allRam) (a : Word) : ReadsOnRam (readWord s a) :=
  (readByte_onRam hs a).bind fun _ h1 => (readByte_onRam h1 _).bind fun _ h2 => .next h2

theorem pushByte_onRam (hs : s.allRam) (v : Byte) : EndsOnRam (pushByte s v) :=
  (writeByte_onRam hs _ v).bind fun _ h1 => .next h1

theorem popByte_onRam (hs : s.allRam) : ReadsOnRam (popByte s) := readByte_onRam (s := { s with sp := s.sp + 1 }) hs _

theorem pushWord_onRam (hs : s.allRam) (w : Word) : EndsOnRam (pushWord s w) :=
  (pushByte_onRam hs _).bind fun _ h1 => pushByte_onRam h1 _

theorem popWord_onRam (hs : s.allRam) : ReadsOnRam (popWord s) :=
  (popByte_onRam hs).bind fun _ h1 => (popByte_onRam h1).bind fun _ h2 => .next h2

theorem pushContext_onRam (hs : s.allRam) : EndsOnRam (pushContext s) :=
  (pushWord_onRam hs _).bind fun _ h1 => (pushByte_onRam h1 _).bind fun _ h2 => (pushByte_onRam h2 _).bind fun _ h3 =>
    pushByte_onRam h3 _

theorem enterException_onRam (hs : s.allRam) (v : Word) : EndsOnRam (enterException s v) :=
  (pushContext_onRam hs).bind fun t h1 =>
    (readWord_onRam (s := { t with cc := { t.cc with i := true } }) h1 v).bind fun _ h2 => .next h2

theorem returnFromException_onRam (hs : s.allRam) : EndsOnRam (returnFromException s) :=
  (popByte_onRam hs).bind fun p h1 =>
    (popByte_onRam (s := { p.2 with cc := CC.ofByte p.1 }) h1).bind fun q h2 =>
      (popByte_onRam (s := { q.2 with a := q.1 }) h2).bind fun r h3 =>
        (popWord_onRam (s := { r.2 with x := r.1 }) h3).bind fun _ h4 => .next h4

/-! ## Operands and instructions where every address is RAM -/

theorem effAddr_onRam (hs : s.allRam) (m : MemForm) : ReadsOnRam (effAddr m s) := by
  cases m with
  | short | long | idx0 | idx1 | idx2 => exact .next hs
  | indL p => exact readWord_onRam hs _
  | indS p | indxS n p => exact (readByte_onRam hs _).bind fun _ h1 => .next h1
  | indxL n p => exact (readWord_onRam hs _).bind fun _ h1 => .next h1

theorem readMem_onRam (hs : s.allRam) (m : MemForm) : ReadsOnRam (readMem m s) :=
  (effAddr_onRam hs m).bind fun _ h1 => readByte_onRam h1 _

theorem readSrc_onRam (hs : s.allRam) (src : Src) : ReadsOnRam (readSrc src s) := by
  cases src with
  | imm v => exact .next hs
  | mem m => exact readMem_onRam hs m

theorem readDst_onRam (hs : s.allRam) (dst : Dst) : ReadsOnRam (readDst dst s) := by
  cases dst with
  | reg r => exact .next hs
  | mem m => exact readMem_onRam hs m

theorem readRel_onRam (hs : s.allRam) (rel : Rel) : ReadsOnRam (readRel rel s) := by
  cases rel with
  | direct d => exact .next hs
  | indirect p => exact readByte_onRam hs _

theorem bitAddr_onRam (hs : s.allRam) (b : BitForm) : ReadsOnRam (bitAddr b s) := by
  cases b with
  | direct a => exact .next hs
  | indirect p => exact (readByte_onRam hs _).bind fun _ h1 => .next h1

theorem modifyAcc_onRam (hs : s.allRam) (src : Src) (f : Byte → Byte → CC → Byte × CC) : EndsOnRam (modifyAcc src s f) :=
  (readSrc_onRam hs src).bind fun _ h1 => .next h1

theorem compareReg_onRam (hs : s.allRam) (r : Reg) (src : Src) (f : Byte → Byte → CC → Byte × CC) :
    EndsOnRam (compareReg r src s f) :=
  (readSrc_onRam hs src).bind fun _ h1 => .next h1

theorem modifyDst_onRam (hs : s.allRam) (dst : Dst) (f : Byte → CC → Byte × CC) : EndsOnRam (modifyDst dst s f) := by
  cases dst with
  | reg r => exact .next (hs.setReg r _)
  | mem m =>
    exact (effAddr_onRam hs m).bind fun _ h1 => (readByte_onRam h1 _).bind fun _ h2 =>
      (writeByte_onRam h2 _ _).bind fun _ h3 => .next h3

/-- The read of CLR, where there is one (R67, D17). -/
theorem clrRead_onRam (hs : s.allRam) (a : Word) :
    ReadsOnRam (if s.device.clrReadsDest then readByte s a else .next (0x00#8, s)) := by
  split
  · exact readByte_onRam hs a
  · exact .next hs

theorem overwriteDst_onRam (hs : s.allRam) (dst : Dst) (v : Byte) : EndsOnRam (overwriteDst dst s v) := by
  cases dst with
  | reg r => exact .next (hs.setReg r v)
  | mem m =>
    exact (effAddr_onRam hs m).bind fun _ h1 => (clrRead_onRam h1 _).bind fun _ h2 => writeByte_onRam h2 _ v

theorem modifyBit_onRam (hs : s.allRam) (b : BitForm) (f : Byte → Byte) : EndsOnRam (modifyBit b s f) :=
  (bitAddr_onRam hs b).bind fun _ h1 => (readByte_onRam h1 _).bind fun _ h2 => writeByte_onRam h2 _ _

theorem testBit_onRam (hs : s.allRam) (b : BitForm) (pos : BitVec 3) (disp : Byte) (want : Bool) :
    EndsOnRam (testBit b pos disp want s) :=
  (bitAddr_onRam hs b).bind fun _ h1 => (readByte_onRam h1 _).bind fun _ h2 => .next h2

theorem branchIf_onRam (hs : s.allRam) (cond : Bool) (rel : Rel) : EndsOnRam (branchIf cond rel s) :=
  (readRel_onRam hs rel).bind fun _ h1 => .next (by cases cond <;> exact h1)

/-- WHERE EVERY ADDRESS IS RAM an instruction completes, for each of its accesses is served. -/
theorem exec_onRam (hs : s.allRam) (i : Instr) : EndsOnRam (exec i s) := by
  cases i
  case adc | add | sub | sbc | and | or | xor =>
    simp only [exec, execAdc, execAdd, execSub, execSbc, execAnd, execOr, execXor]
    exact modifyAcc_onRam hs _ _
  case cp | bcp => simp only [exec, execCp, execBcp]; exact compareReg_onRam hs _ _ _
  case cpl | neg | inc | dec | sll | sla | srl | sra | rlc | rrc | swap => exact modifyDst_onRam hs _ _
  case clr dst => exact (overwriteDst_onRam hs dst _).bind fun _ h1 => .next h1
  case bset | bres => simp only [exec, execBset, execBres]; exact modifyBit_onRam hs _ _
  case btjt | btjf => exact testBit_onRam hs _ _ _ _
  case jra | jrt | jrf | jrc | jrnc | jrult | jruge | jreq | jrne | jrmi | jrpl | jrh | jrnh | jrm | jrnm | jrugt | jrule |
      jrih | jril =>
    exact branchIf_onRam hs _ _
  case tnz dst => exact (readDst_onRam hs dst).bind fun _ h1 => .next h1
  case ld r src => exact (readSrc_onRam hs src).bind fun p h1 => .next (h1.setReg r p.1)
  case ldStore m r => exact (effAddr_onRam hs m).bind fun _ h1 => (writeByte_onRam h1 _ _).bind fun _ h2 => .next h2
  case push r => exact pushByte_onRam hs _
  case pop r =>
    exact (popByte_onRam hs).bind fun p h1 => .next (State.allRam_congr (p.2.setStackReg_device r p.1) h1)
  case jp m => exact (effAddr_onRam hs m).bind fun _ h1 => .next h1
  case call m => exact (effAddr_onRam hs m).bind fun _ h1 => (pushWord_onRam h1 _).bind fun _ h2 => .next h2
  case callr rel => exact (readRel_onRam hs rel).bind fun _ h1 => (pushWord_onRam h1 _).bind fun _ h2 => .next h2
  case ret => exact (popWord_onRam hs).bind fun _ h1 => .next h1
  case trap => exact enterException_onRam hs _
  case iret => exact returnFromException_onRam hs
  case ldRegReg dst src => exact .next (hs.setReg dst _)
  case ldRegS r => exact .next (hs.setReg r _)
  case mul n => exact .next (hs.setReg n.reg _)
  case ldSReg | rsp | nop | wfi | halt | sim | rim | scf | rcf => exact .next hs

end

/-- Settles O12, by the completion of every instruction on an all-RAM map. -/
theorem execCompletesOnRam : Obligations.ExecCompletesOnRam := by
  intro i s hs
  obtain ⟨t, ht, -⟩ := exec_onRam hs i
  exact ⟨t, ht⟩

end Sys2Proof.Machine
end

section
/-! SUPPORT. The proofs for the statements of `20_memory.md`, third part: CLR, and the bits BSET and BRES change (R67, R167, R220, R221). -/

namespace Sys2Proof.Machine

/-! ## CLR -/

section
variable {m : MemForm} {s s1 : State} {ea : Word}

/-- CLR of a memory operand that is not read first is one write. -/
theorem exec_clr_unread (h : effAddr m s = .next (ea, s1)) (hc : s1.device.clrReadsDest = false) :
    exec (.clr (.mem m)) s =
      andThen (writeByte s1 ea 0x00#8) fun w => .next { w with cc := { s.cc with n := false, z := true } } := by
  simp only [exec, execClr, overwriteDst, clrFlags, h, hc, andThen_next, Bool.false_eq_true, if_false]

/-- CLR of a memory operand that is read first: the value read is not used (D17). -/
theorem exec_clr_read (h : effAddr m s = .next (ea, s1)) (hc : s1.device.clrReadsDest = true) :
    exec (.clr (.mem m)) s = andThen (readByte s1 ea) fun p =>
      andThen (writeByte p.2 ea 0x00#8) fun w => .next { w with cc := { s.cc with n := false, z := true } } := by
  simp only [exec, execClr, overwriteDst, clrFlags, h, hc, andThen_next, andThen_assoc, if_true]

end

/-- Settles O47: CLR ends in the write of 00, after the read where `CLR_READS_DEST` says so, which may be refused. -/
theorem clearResult : Obligations.ClearResult := by
  refine ⟨fun q s => rfl, fun m s s1 ea h => ?_⟩
  obtain ⟨k, g, d, e, rfl, -⟩ := effAddr_frame h
  refine ⟨fun hc => storesByte_of_write _ rfl (exec_clr_unread h hc), fun hc => ⟨fun v s2 hv => ?_, fun hf hk => ?_⟩⟩
  · have hexec := exec_clr_read h hc
    rw [hv] at hexec
    obtain ⟨k', g', d', e', rfl, -⟩ := readByte_frame hv
    exact storesByte_of_write _ rfl hexec
  · rw [exec_clr_read h hc, readByte_none hf hk, andThen_refused]

/-! ## BSET and BRES -/

/-- A write leaves the condition codes. -/
theorem writeByte_keeps_cc (s : State) (a : Word) (v : Byte) :
    writeByte s a v = andThen (writeByte s a v) fun t => .next { t with cc := s.cc } := by
  cases h : writeByte s a v with
  | next t => obtain ⟨m, g, d, e, rfl, -⟩ := writeByte_frame h; rfl
  | fault f => rfl
  | refused e => rfl

/-- An instruction that is one write after its reads stores the byte, and the condition codes stay. -/
theorem storesByte_of_writeByte {i : Instr} {s u : State} {ea : Word} {v : Byte} (hd : u.device = s.device)
    (h : exec i s = writeByte u ea v) : StoresByte i s u ea v :=
  storesByte_of_write u.cc hd (h.trans (writeByte_keeps_cc u ea v))

/-- The mask of a bit has that bit alone. -/
theorem bitMask_getLsbD (pos : BitVec 3) {k : Nat} (hk : k < 8) : (bitMask pos).getLsbD k = decide (k = pos.toNat) := by
  have hshift : pos.toNat ≤ k ∧ k - pos.toNat = 0 ↔ k = pos.toNat := by omega
  rw [bitMask, BitVec.getLsbD_shiftLeft, Bool.eq_iff_iff]
  simpa [hk] using hshift

/-- A bit instruction that changes its byte by `f` stores what `f` answers, and no flag changes. -/
theorem storesByte_of_modifyBit {i : Instr} {b : BitForm} {s s1 s2 : State} {ea : Word} {v : Byte} {f : Byte → Byte}
    (hi : exec i s = modifyBit b s f) (h : bitAddr b s = .next (ea, s1)) (hv : readByte s1 ea = .next (v, s2)) :
    StoresByte i s (s.afterBus s2) ea (f v) := by
  have hexec : exec i s = writeByte s2 ea (f v) := hi.trans (modifyBit_of_read f h hv)
  obtain ⟨m, g, d, e, rfl, -⟩ := bitAddr_frame h
  obtain ⟨m', g', d', e', rfl, -⟩ := readByte_frame hv
  exact storesByte_of_writeByte rfl hexec

/-- Settles O53: the byte stored is the byte read, with the mask of the bit set in it or cleared from it. -/
theorem bitChangeResult : Obligations.BitChangeResult := by
  intro pos b s s1 s2 ea v h hv
  refine ⟨⟨v ||| bitMask pos, fun k hk => ?_, storesByte_of_modifyBit (f := fun v => v ||| bitMask pos) rfl h hv⟩,
    v &&& ~~~bitMask pos, fun k hk => ?_, storesByte_of_modifyBit (f := fun v => v &&& ~~~bitMask pos) rfl h hv⟩
  · rw [BitVec.getLsbD_or, bitMask_getLsbD pos hk, Bool.or_comm]
  · rw [BitVec.getLsbD_and, BitVec.getLsbD_not, bitMask_getLsbD pos hk, decide_eq_true hk, Bool.true_and, Bool.and_comm]

end Sys2Proof.Machine
end

section
/-! SUPPORT. The proofs for the statements of `30_encoding.md`, first part: templates and their operand bytes (R95, R96), and that decoding and
encoding are inverse (R90 to R105, R112). -/

namespace Sys2Proof

/-! ## Operand bytes put in, and taken out

A template keeps its number of operand bytes, its pre-byte and op-code, and its well-formedness, whatever bytes are put in. -/

section
variable (b1 b2 c1 c2 : Byte)

@[simp] theorem MemForm.operandCount_fill (m : MemForm) : (m.fill b1 b2).operandCount = m.operandCount := by
  cases m <;> rfl

@[simp] theorem Src.operandCount_fill (s : Src) : (s.fill b1 b2).operandCount = s.operandCount := by
  cases s with
  | imm v => rfl
  | mem m => exact m.operandCount_fill b1 b2

@[simp] theorem Dst.operandCount_fill (d : Dst) : (d.fill b1 b2).operandCount = d.operandCount := by
  cases d with
  | reg r => rfl
  | mem m => exact m.operandCount_fill b1 b2

@[simp] theorem Instr.operandCount_fill (i : Instr) : (i.fill b1 b2).operandCount = i.operandCount := by
  cases i <;> simp only [Instr.fill, Instr.operandCount, Src.operandCount_fill, Dst.operandCount_fill, MemForm.operandCount_fill]

/-- Of two fillings the second stands. -/
@[simp] theorem MemForm.fill_fill (m : MemForm) : (m.fill b1 b2).fill c1 c2 = m.fill c1 c2 := by
  cases m <;> rfl

@[simp] theorem Src.fill_fill (s : Src) : (s.fill b1 b2).fill c1 c2 = s.fill c1 c2 := by
  cases s with
  | imm v => rfl
  | mem m => exact congrArg Src.mem (m.fill_fill b1 b2 c1 c2)

@[simp] theorem Dst.fill_fill (d : Dst) : (d.fill b1 b2).fill c1 c2 = d.fill c1 c2 := by
  cases d with
  | reg r => rfl
  | mem m => exact congrArg Dst.mem (m.fill_fill b1 b2 c1 c2)

@[simp] theorem Rel.fill_fill (t : Rel) : (t.fill b1).fill c1 = t.fill c1 := by
  cases t <;> rfl

@[simp] theorem BitForm.fill_fill (b : BitForm) : (b.fill b1).fill c1 = b.fill c1 := by
  cases b <;> rfl

@[simp] theorem Instr.fill_fill (i : Instr) : (i.fill b1 b2).fill c1 c2 = i.fill c1 c2 := by
  cases i <;> simp only [Instr.fill, Src.fill_fill, Dst.fill_fill, MemForm.fill_fill, Rel.fill_fill, BitForm.fill_fill]

/-- The operand bytes of a filled form are the bytes put in, as many as the form has. -/
theorem MemForm.operandBytes_fill (m : MemForm) : (m.fill b1 b2).operandBytes = [b1, b2].take m.operandCount := by
  cases m <;> simp [MemForm.fill, MemForm.operandBytes, MemForm.operandCount]

theorem Src.operandBytes_fill (s : Src) : (s.fill b1 b2).operandBytes = [b1, b2].take s.operandCount := by
  cases s with
  | imm v => rfl
  | mem m => exact m.operandBytes_fill b1 b2

theorem Dst.operandBytes_fill (d : Dst) : (d.fill b1 b2).operandBytes = [b1, b2].take d.operandCount := by
  cases d with
  | reg r => rfl
  | mem m => exact m.operandBytes_fill b1 b2

@[simp] theorem Rel.operandByte_fill (t : Rel) : (t.fill b1).operandByte = b1 := by
  cases t <;> rfl

@[simp] theorem BitForm.operandByte_fill (b : BitForm) : (b.fill b1).operandByte = b1 := by
  cases b <;> rfl

theorem Instr.operandBytes_fill (i : Instr) : (i.fill b1 b2).operandBytes = [b1, b2].take i.operandCount := by
  cases i <;> simp [Instr.fill, Instr.operandBytes, Instr.operandCount, Src.operandBytes_fill, Dst.operandBytes_fill,
    MemForm.operandBytes_fill]

/-- A form filled with its own operand bytes is itself, whatever stands for the bytes it does not have. -/
theorem MemForm.fill_operandBytes (m : MemForm) : m.fill (m.operandBytes.getD 0 b1) (m.operandBytes.getD 1 b2) = m := by
  cases m <;> simp [MemForm.fill, MemForm.operandBytes]

theorem Src.fill_operandBytes (s : Src) : s.fill (s.operandBytes.getD 0 b1) (s.operandBytes.getD 1 b2) = s := by
  cases s with
  | imm v => rfl
  | mem m => exact congrArg Src.mem (m.fill_operandBytes b1 b2)

theorem Dst.fill_operandBytes (d : Dst) : d.fill (d.operandBytes.getD 0 b1) (d.operandBytes.getD 1 b2) = d := by
  cases d with
  | reg r => rfl
  | mem m => exact congrArg Dst.mem (m.fill_operandBytes b1 b2)

@[simp] theorem Rel.fill_operandByte (t : Rel) : t.fill t.operandByte = t := by
  cases t <;> rfl

@[simp] theorem BitForm.fill_operandByte (b : BitForm) : b.fill b.operandByte = b := by
  cases b <;> rfl

theorem Instr.fill_operandBytes (i : Instr) : i.fill (i.operandBytes.getD 0 b1) (i.operandBytes.getD 1 b2) = i := by
  cases i <;> simp only [Instr.fill, Instr.operandBytes, Src.fill_operandBytes, Dst.fill_operandBytes,
    MemForm.fill_operandBytes, List.getD_cons_zero, List.getD_cons_succ, Rel.fill_operandByte, BitForm.fill_operandByte]

@[simp] theorem MemForm.head_fill (lo : Nat) (m : MemForm) : (m.fill b1 b2).head lo = m.head lo := by
  cases m with
  | short _ | long _ | indS _ | indL _ => rfl
  | idx0 q | idx1 q _ | idx2 q _ | indxS q _ | indxL q _ => cases q <;> rfl

@[simp] theorem MemForm.headFor_fill (r : Reg) (lo : Nat) (m : MemForm) : (m.fill b1 b2).headFor r lo = m.headFor r lo := by
  cases r with
  | a | x => exact m.head_fill b1 b2 lo
  | y => cases m <;> first | rfl | exact MemForm.head_fill b1 b2 lo _

@[simp] theorem Src.headFor_fill (r : Reg) (lo : Nat) (s : Src) : (s.fill b1 b2).headFor r lo = s.headFor r lo := by
  cases s with
  | imm v => rfl
  | mem m => exact m.headFor_fill b1 b2 r lo

@[simp] theorem Dst.head_fill (lo : Nat) (d : Dst) : (d.fill b1 b2).head lo = d.head lo := by
  cases d with
  | reg r => rfl
  | mem m =>
    cases m with
    | short _ | long _ | indS _ | indL _ => rfl
    | idx0 q | idx1 q _ | idx2 q _ | indxS q _ | indxL q _ => cases q <;> rfl

@[simp] theorem Rel.head_fill (op : Byte) (t : Rel) : (t.fill b1).head op = t.head op := by
  cases t <;> rfl

@[simp] theorem BitForm.head_fill (base : Nat) (pos : BitVec 3) (b : BitForm) :
    (b.fill b1).head base pos = b.head base pos := by
  cases b <;> rfl

/-- Pre-byte and op-code do not depend on the operand bytes. -/
@[simp] theorem Instr.head_fill (i : Instr) : (i.fill b1 b2).head = i.head := by
  cases i with
  | cp r s | ld r s => cases r <;> simp only [Instr.fill, Instr.head, Src.headFor_fill]
  | ldStore m r => cases r <;> simp only [Instr.fill, Instr.head, MemForm.headFor_fill]
  | _ => simp only [Instr.fill, Instr.head, Src.headFor_fill, Dst.head_fill, MemForm.headFor_fill, Rel.head_fill,
      BitForm.head_fill]

@[simp] theorem MemForm.pairsWith_fill (r : Reg) (m : MemForm) : (m.fill b1 b2).pairsWith r = m.pairsWith r := by
  cases m <;> rfl

@[simp] theorem Src.pairsWith_fill (r : Reg) (s : Src) : (s.fill b1 b2).pairsWith r = s.pairsWith r := by
  cases s with
  | imm v => rfl
  | mem m => exact m.pairsWith_fill b1 b2 r

@[simp] theorem Dst.wf_fill (d : Dst) : (d.fill b1 b2).wf = d.wf := by
  cases d with
  | reg r => rfl
  | mem m => cases m <;> rfl

/-- Which forms an instruction has does not depend on the operand bytes. -/
@[simp] theorem Instr.wf_fill (i : Instr) : (i.fill b1 b2).wf = i.wf := by
  cases i <;> simp only [Instr.fill, Instr.wf, Src.pairsWith_fill, Dst.wf_fill, MemForm.pairsWith_fill]

@[simp] theorem Instr.canonical_fill (i : Instr) : (i.fill b1 b2).canonical = i.canonical.fill b1 b2 := by
  cases i <;> rfl

end

/-- The two mnemonics of an encoding have the same operand bytes. -/
@[simp] theorem Instr.operandBytes_canonical (i : Instr) : i.canonical.operandBytes = i.operandBytes := by
  cases i <;> rfl

/-! ## Taking the operand bytes -/

/-- What is taken is a filling of the template, and its operand bytes stood there. (The premise is what `opcodeMap_eq_some` says of a
template; it makes one without operand bytes, which is taken as it is, a filling of itself.) -/
theorem takeOperands_eq_ok {t i : Instr} {bs rest : List Byte} (ht : t.fill 0#8 0#8 = t)
    (h : takeOperands t bs = .ok (i, rest)) : ∃ b1 b2, i = t.fill b1 b2 ∧ bs = i.operandBytes ++ rest := by
  unfold takeOperands at h
  split at h
  · next hc =>
    cases h
    exact ⟨0#8, 0#8, ht.symm, by rw [← ht, Instr.operandBytes_fill, hc]; rfl⟩
  · next b1 r hc =>
    cases h
    exact ⟨b1, 0#8, rfl, by rw [Instr.operandBytes_fill, hc]; rfl⟩
  · next b1 b2 r hc =>
    cases h
    exact ⟨b1, b2, rfl, by rw [Instr.operandBytes_fill, hc]; rfl⟩
  · cases h

/-- A template takes the first bytes, as many as it has operand bytes. -/
theorem takeOperands_of_two_bytes {t : Instr} (ht : t.fill 0#8 0#8 = t) (b1 b2 : Byte) (rest : List Byte) :
    ∃ c1 c2, takeOperands t (b1 :: b2 :: rest) = .ok (t.fill c1 c2, (b1 :: b2 :: rest).drop t.operandCount) := by
  have hle : t.operandCount ≤ 2 := Laws.operandCount_le t
  unfold takeOperands
  generalize t.operandCount = n at hle
  interval_cases n
  · exact ⟨0#8, 0#8, by rw [ht]; rfl⟩
  · exact ⟨b1, 0#8, rfl⟩
  · exact ⟨b1, b2, rfl⟩

/-- The template of an instruction, before the operand bytes of that instruction, takes them. -/
theorem takeOperands_template (i : Instr) (rest : List Byte) :
    takeOperands (i.fill 0#8 0#8) (i.operandBytes ++ rest) = .ok (i, rest) := by
  have hlen := Laws.operandBytes_length i
  have hle := Laws.operandCount_le i
  have hown := i.fill_operandBytes 0#8 0#8
  unfold takeOperands
  rw [Instr.operandCount_fill, ← hlen]
  rw [← hlen] at hle
  generalize i.operandBytes = l at hown hle
  match l, hle with
  | [], _ => exact congrArg (fun j => Except.ok (j, rest)) hown
  | [b1], _ => exact congrArg (fun j => Except.ok (j, rest)) ((i.fill_fill 0#8 0#8 b1 0#8).trans hown)
  | [b1, b2], _ => exact congrArg (fun j => Except.ok (j, rest)) ((i.fill_fill 0#8 0#8 b1 b2).trans hown)

/-! ## What decodes is what the encoder writes -/

/-- Settles O2: the row decoded has the template's pre-byte and op-code, and the bytes taken are the operand bytes put in. -/
theorem encodeOfDecode : Obligations.EncodeOfDecode := by
  intro bs i rest h
  unfold decode at h
  split at h
  · cases h
  · next p op tail hsplit =>
    split at h
    · cases h
    · next t hrow =>
      obtain ⟨hbytes, -⟩ := splitPre_eq_ok hsplit
      obtain ⟨hhead, hwf, hcanon, hfill, -, -⟩ := opcodeMap_eq_some hrow
      obtain ⟨b1, b2, rfl, htail⟩ := takeOperands_eq_ok hfill h
      refine ⟨(t.wf_fill b1 b2).trans hwf, (t.canonical_fill b1 b2).trans (by rw [hcanon]), ?_⟩
      calc encode (t.fill b1 b2) ++ rest
          = p.bytes ++ op :: ((t.fill b1 b2).operandBytes ++ rest) := by simp [encode, hhead]
        _ = bs := by rw [← htail, hbytes]

/-! ## Every encoding is a row of the opcode map -/

/-- A row of the map, from the number of its op-code. -/
theorem opByte_row {hi lo : Nat} (hhi : hi < 16) (hlo : lo < 16) : (opByte hi lo).toNat / 16 = hi := by
  simp only [opByte, BitVec.toNat_ofNat]
  omega

/-- A column of the map, from the number of its op-code. -/
theorem opByte_column {hi lo : Nat} (hlo : lo < 16) : (opByte hi lo).toNat % 16 = lo := by
  simp only [opByte, BitVec.toNat_ofNat]
  omega

/-- The map by row and column. -/
def mapAt : Pre → Nat → Nat → Option Instr
  | .none => mapPlain
  | .pdy => mapPdy
  | .piy => mapPiy
  | .pix => mapPix

theorem opcodeMap_eq_mapAt (p : Pre) (op : Byte) : opcodeMap p op = mapAt p (op.toNat / 16) (op.toNat % 16) := by
  cases p <;> rfl

theorem opcodeMap_opByte (p : Pre) {hi lo : Nat} (hhi : hi < 16) (hlo : lo < 16) : opcodeMap p (opByte hi lo) = mapAt p hi lo := by
  rw [opcodeMap_eq_mapAt, opByte_row hhi hlo, opByte_column hlo]

/-- Outside the columns 3, E and F the index register is no operand. -/
theorem rowMem_of_not_indexColumn {lo : Nat} (hcol : isIndexColumn lo = false) (r : Index) (m : MemForm) :
    rowMem lo r m = rowMem lo .x m := by
  unfold rowMem
  split <;> first | rfl | cases hcol

/-- The row of a source operand in column `lo`: the immediate column forms, or those of a memory operand (R100). -/
def rowSrc (lo : Nat) (r : Index) : Src → Option Instr
  | .imm _ => rowImm lo r
  | .mem m => rowMem lo r m

section
variable {lo : Nat}

/-- A memory operand with register operand A, or with none (R100, R103 to R105). -/
theorem opcodeMap_mem_acc (m : MemForm) (hlo : lo < 16) (hcol : isIndexColumn lo = false) :
    opcodeMap (m.headFor .a lo).1 (m.headFor .a lo).2 = rowMem lo .x (m.fill 0#8 0#8) := by
  cases m with
  | short _ | long _ | indS _ | indL _ => exact opcodeMap_opByte _ (by decide) hlo
  | idx0 r | idx1 r _ | idx2 r _ | indxS r _ | indxL r _ =>
    cases r with
    | x => exact opcodeMap_opByte _ (by decide) hlo
    | y => exact (opcodeMap_opByte _ (by decide) hlo).trans (rowMem_of_not_indexColumn hcol .y _)

/-- A memory operand that pairs with the index register `r` as register operand (R103, R104). -/
theorem opcodeMap_mem_index (r : Index) {m : MemForm} (hm : m.pairsWith r.reg = true) (hlo : lo < 16)
    (hcol : isIndexColumn lo = true) :
    opcodeMap (m.headFor r.reg lo).1 (m.headFor r.reg lo).2 = rowMem lo r (m.fill 0#8 0#8) := by
  cases r with
  | x =>
    cases m with
    | short _ | long _ | indS _ | indL _ => exact opcodeMap_opByte _ (by decide) hlo
    | idx0 q | idx1 q _ | idx2 q _ | indxS q _ | indxL q _ =>
      cases q with
      | x => exact opcodeMap_opByte _ (by decide) hlo
      | y => cases hm
  | y =>
    cases m with
    | short _ | long _ | indS _ | indL _ => exact (opcodeMap_opByte _ (by decide) hlo).trans (if_pos hcol)
    | idx0 q | idx1 q _ | idx2 q _ | indxS q _ | indxL q _ =>
      cases q with
      | x => cases hm
      | y => exact opcodeMap_opByte _ (by decide) hlo

/-- A source operand with register operand A: `AD` is CALLR, which is no column of row A. -/
theorem opcodeMap_src_acc (s : Src) (hlo : lo < 16) (hcallr : lo ≠ 0xD) (hcol : isIndexColumn lo = false) :
    opcodeMap (s.headFor .a lo).1 (s.headFor .a lo).2 = rowSrc lo .x (s.fill 0#8 0#8) := by
  cases s with
  | imm v => exact (opcodeMap_opByte .none (by decide) hlo).trans (if_neg hcallr)
  | mem m => exact opcodeMap_mem_acc m hlo hcol

theorem opcodeMap_src_index (r : Index) {s : Src} (hs : s.pairsWith r.reg = true) (hlo : lo < 16)
    (hcol : isIndexColumn lo = true) :
    opcodeMap (s.headFor r.reg lo).1 (s.headFor r.reg lo).2 = rowSrc lo r (s.fill 0#8 0#8) := by
  have hcallr : lo ≠ 0xD := by rintro rfl; cases hcol
  cases s with
  | imm v =>
    cases r with
    | x => exact (opcodeMap_opByte .none (by decide) hlo).trans (if_neg hcallr)
    | y => exact (opcodeMap_opByte .pdy (by decide) hlo).trans (if_pos hcol)
  | mem m => exact opcodeMap_mem_index r hs hlo hcol

/-- An operand of the read-modify-write family (R99): `42` is MUL, which is no operation of it. -/
theorem opcodeMap_dst {d : Dst} (hd : d.wf = true) (hlo : lo < 16) (hmul : lo ≠ 0x2) :
    opcodeMap (d.head lo).1 (d.head lo).2 = rowRmw lo (d.fill 0#8 0#8) := by
  cases d with
  | reg r =>
    cases r with
    | a => exact (opcodeMap_opByte .none (by decide) hlo).trans (if_neg hmul)
    | x | y => exact opcodeMap_opByte _ (by decide) hlo
  | mem m =>
    cases m with
    | short _ | indS _ => exact opcodeMap_opByte _ (by decide) hlo
    | idx0 r | idx1 r _ | indxS r _ => cases r <;> exact opcodeMap_opByte _ (by decide) hlo
    | long _ | idx2 _ _ | indL _ | indxL _ _ => cases hd

end

/-- A relative jump (R93, R102). -/
theorem opcodeMap_rel (t : Rel) {op : Byte} (hrow : op.toNat / 16 = 0x2) :
    opcodeMap (t.head op).1 (t.head op).2 = rowRel (op.toNat % 16) (t.fill 0#8) := by
  cases t <;> simp only [Rel.head, opcodeMap_eq_mapAt, hrow] <;> rfl

/-- The bit instructions, at each of the eight positions (R93, R98). -/
theorem opcodeMap_bit (b : BitForm) (pos : BitVec 3) :
    opcodeMap (b.head 0x00 pos).1 (b.head 0x00 pos).2 = some (.btjt pos (b.fill 0#8) 0#8) ∧
    opcodeMap (b.head 0x01 pos).1 (b.head 0x01 pos).2 = some (.btjf pos (b.fill 0#8) 0#8) ∧
    opcodeMap (b.head 0x10 pos).1 (b.head 0x10 pos).2 = some (.bset pos (b.fill 0#8)) ∧
    opcodeMap (b.head 0x11 pos).1 (b.head 0x11 pos).2 = some (.bres pos (b.fill 0#8)) := by
  cases b <;> (simp only [BitForm.head, BitForm.fill]; decide +revert)

/-- The pair a well-formed instruction is written with is the row of its template, under the first name of the encoding. -/
theorem opcodeMap_head {i : Instr} (h : i.wf = true) : opcodeMap i.head.1 i.head.2 = some (i.canonical.fill 0#8 0#8) := by
  cases i with
  | adc s | add s | sub s | sbc s | and s | or s | xor s | bcp s =>
    exact (opcodeMap_src_acc s (by decide) (by decide) rfl).trans (by cases s <;> rfl)
  | cp r s | ld r s =>
    cases r with
    | a => exact (opcodeMap_src_acc s (by decide) (by decide) rfl).trans (by cases s <;> rfl)
    | x => exact (opcodeMap_src_index .x h (by decide) rfl).trans (by cases s <;> rfl)
    | y => exact (opcodeMap_src_index .y h (by decide) rfl).trans (by cases s <;> rfl)
  | ldStore m r =>
    cases r with
    | a => exact opcodeMap_mem_acc m (by decide) rfl
    | x => exact opcodeMap_mem_index .x h (by decide) rfl
    | y => exact opcodeMap_mem_index .y h (by decide) rfl
  | jp m | call m => exact opcodeMap_mem_acc m (by decide) rfl
  | cpl d | neg d | inc d | dec d | tnz d | clr d | sll d | sla d | srl d | sra d | rlc d | rrc d | swap d =>
    exact opcodeMap_dst h (by decide) (by decide)
  | bset pos b | bres pos b | btjt pos b disp | btjf pos b disp =>
    obtain ⟨hbtjt, hbtjf, hbset, hbres⟩ := opcodeMap_bit b pos
    assumption
  | jra t | jrt t | jrf t | jrc t | jrnc t | jrult t | jruge t | jreq t | jrne t | jrmi t | jrpl t | jrh t | jrnh t | jrm t
  | jrnm t | jrugt t | jrule t | jrih t | jril t => exact opcodeMap_rel t rfl
  | callr t => cases t <;> exact opcodeMap_opByte (hi := 0xA) (lo := 0xD) _ (by decide) (by decide)
  | mul r | ldSReg r | ldRegS r | push r | pop r => cases r <;> rfl
  | ldRegReg d s => cases d <;> cases s <;> first | rfl | cases h
  | rsp | nop | ret | trap | wfi | halt | iret | sim | rim | scf | rcf => rfl

/-- Settles O1: the decoder finds the row of the template, which takes the operand bytes the encoder wrote. -/
theorem decodeOfEncode : Obligations.DecodeOfEncode := by
  intro i rest h
  calc decode (encode i ++ rest)
      = decode (i.head.1.bytes ++ i.head.2 :: (i.canonical.operandBytes ++ rest)) := by simp [encode]
    _ = takeOperands (i.canonical.fill 0#8 0#8) (i.canonical.operandBytes ++ rest) := decode_of_row (opcodeMap_head h) _
    _ = .ok (i.canonical, rest) := takeOperands_template i.canonical rest

end Sys2Proof
end

section
/-! SUPPORT. The proofs for the statements of `30_encoding.md`, second part: which pairs are defined (R103 to R106), the length by pre-byte and
row (R111), the second mnemonics (R112), and the fault of an undefined pair (R108). -/

namespace Sys2Proof

/-! ## The defined pairs -/

/-- Settles O4: both sides are finite tables, compared at each of the 256 op-codes. -/
theorem plainOpcodesUndefined : Obligations.PlainOpcodesUndefined := by
  unfold Obligations.PlainOpcodesUndefined
  decide

/-- Settles O5: the three pre-bytes one after another, each a table compared at the 256 op-codes. -/
theorem prefixedOpcodesDefined : Obligations.PrefixedOpcodesDefined := by
  refine fun op => ⟨?pdy, ?piy, ?pix⟩ <;> revert op
  case pdy => decide
  case piy => decide
  case pix => decide

/-! ## The length of an instruction

The templates of a row have the same number of operand bytes in every column: one fact for each row. -/

section
variable {lo : Nat} {t : Instr}

theorem rowBtj_operandCount {b : BitForm} (h : rowBtj lo b = some t) : t.operandCount = 2 := by
  unfold rowBtj at h
  split at h <;> cases h <;> rfl

theorem rowBit_operandCount {b : BitForm} (h : rowBit lo b = some t) : t.operandCount = 1 := by
  unfold rowBit at h
  split at h <;> cases h <;> rfl

theorem rowRel_operandCount {r : Rel} (h : rowRel lo r = some t) : t.operandCount = 1 := by
  unfold rowRel at h
  split at h <;> cases h <;> rfl

theorem rowRmw_operandCount {d : Dst} (h : rowRmw lo d = some t) : t.operandCount = d.operandCount := by
  unfold rowRmw at h
  split at h <;> cases h <;> rfl

theorem rowStack_operandCount (h : rowStack lo = some t) : t.operandCount = 0 := by
  unfold rowStack at h
  split at h <;> cases h <;> rfl

theorem rowTransfer_operandCount (h : rowTransfer lo = some t) : t.operandCount = 0 := by
  unfold rowTransfer at h
  split at h <;> cases h <;> rfl

theorem rowTransferY_operandCount (h : rowTransferY lo = some t) : t.operandCount = 0 := by
  unfold rowTransferY at h
  split at h <;> cases h <;> rfl

theorem rowImm_operandCount {r : Index} (h : rowImm lo r = some t) : t.operandCount = 1 := by
  unfold rowImm at h
  split at h <;> cases h <;> rfl

theorem rowMem_operandCount {r : Index} {m : MemForm} (h : rowMem lo r m = some t) : t.operandCount = m.operandCount := by
  unfold rowMem at h
  split at h <;> cases h <;> rfl

/-- A row that holds in some columns only has what it holds there. -/
theorem of_ite_none_eq_some {c : Prop} [Decidable c] {o : Option Instr} (h : (if c then o else none) = some t) : o = some t := by
  split at h
  · exact h
  · cases h

end

section
variable {hi lo : Nat} {t : Instr}

/-- The length of an instruction without a pre-byte, row by row (R97 to R102, R111). -/
theorem mapPlain_length (h : mapPlain hi lo = some t) : 1 + t.operandCount = Machine.rowLength .none hi := by
  match hi, h with
  | 0x0, h => rw [rowBtj_operandCount h]; rfl
  | 0x1, h => rw [rowBit_operandCount h]; rfl
  | 0x2, h => rw [rowRel_operandCount h]; rfl
  | 0x3, h | 0x5, h | 0x6, h | 0x7, h => rw [rowRmw_operandCount h]; rfl
  | 0x4, h =>
    simp only [mapPlain] at h
    split at h
    · cases h; rfl
    · rw [rowRmw_operandCount h]; rfl
  | 0x8, h => rw [rowStack_operandCount h]; rfl
  | 0x9, h => rw [rowTransfer_operandCount h]; rfl
  | 0xA, h =>
    simp only [mapPlain] at h
    split at h
    · cases h; rfl
    · rw [rowImm_operandCount h]; rfl
  | 0xB, h | 0xC, h | 0xD, h | 0xE, h | 0xF, h => rw [rowMem_operandCount h]; rfl

/-- The length after $90, row by row (R103, R111). -/
theorem mapPdy_length (h : mapPdy hi lo = some t) : 1 + 1 + t.operandCount = Machine.rowLength .pdy hi := by
  match hi, h with
  | 0x4, h => cases of_ite_none_eq_some h; rfl
  | 0x5, h | 0x6, h | 0x7, h => rw [rowRmw_operandCount h]; rfl
  | 0x8, h =>
    simp only [mapPdy] at h
    split at h
    · cases h; rfl
    · cases of_ite_none_eq_some h; rfl
  | 0x9, h => rw [rowTransferY_operandCount h]; rfl
  | 0xA, h => rw [rowImm_operandCount (of_ite_none_eq_some h)]; rfl
  | 0xB, h | 0xC, h => rw [rowMem_operandCount (of_ite_none_eq_some h)]; rfl
  | 0xD, h | 0xE, h | 0xF, h => rw [rowMem_operandCount h]; rfl

/-- The length after $91, row by row (R104, R111). -/
theorem mapPiy_length (h : mapPiy hi lo = some t) : 1 + 1 + t.operandCount = Machine.rowLength .piy hi := by
  match hi, h with
  | 0x6, h => rw [rowRmw_operandCount h]; rfl
  | 0xB, h | 0xC, h => rw [rowMem_operandCount (of_ite_none_eq_some h)]; rfl
  | 0xD, h | 0xE, h => rw [rowMem_operandCount h]; rfl

/-- The length after $92, row by row (R105, R111). -/
theorem mapPix_length (h : mapPix hi lo = some t) : 1 + 1 + t.operandCount = Machine.rowLength .pix hi := by
  match hi, h with
  | 0x0, h => rw [rowBtj_operandCount h]; rfl
  | 0x1, h => rw [rowBit_operandCount h]; rfl
  | 0x2, h => rw [rowRel_operandCount h]; rfl
  | 0x3, h | 0x6, h => rw [rowRmw_operandCount h]; rfl
  | 0xA, h => cases of_ite_none_eq_some h; rfl
  | 0xB, h | 0xC, h | 0xD, h | 0xE, h => rw [rowMem_operandCount h]; rfl

end

/-- The bytes of a row's instructions are those the table of R111 has for it. -/
theorem opcodeMap_length {p : Pre} {op : Byte} {t : Instr} (h : opcodeMap p op = some t) :
    p.bytes.length + 1 + t.operandCount = Machine.rowLength p (op.toNat / 16) := by
  cases p with
  | none => exact mapPlain_length h
  | pdy => exact mapPdy_length h
  | piy => exact mapPiy_length h
  | pix => exact mapPix_length h

/-- Settles O6: the template takes its operand bytes, whatever they are, and filling it changes no length. -/
theorem lengthByPreByteAndOpcode : Obligations.LengthByPreByteAndOpcode := by
  intro p op b1 b2 rest hdef
  obtain ⟨t, hrow⟩ := Option.ne_none_iff_exists'.mp hdef
  obtain ⟨hhead, -, -, hfill, hle, -⟩ := opcodeMap_eq_some hrow
  obtain ⟨c1, c2, htake⟩ := takeOperands_of_two_bytes hfill b1 b2 rest
  have hlen := opcodeMap_length hrow
  refine ⟨t.fill c1 c2, t.operandCount, (decode_of_row hrow _).trans htake, hle, hlen, ?_⟩
  rw [← hlen, Instr.length, Instr.head_fill, Instr.operandCount_fill, hhead]

/-! ## The second mnemonics -/

/-- Settles O7: each second mnemonic has the pre-byte, op-code and operand bytes of its twin, and its meaning is the same operation. -/
theorem aliasesAreTheirTwins : Obligations.AliasesAreTheirTwins :=
  fun _ _ _ => ⟨⟨rfl, rfl⟩, ⟨rfl, rfl⟩, ⟨rfl, rfl⟩, ⟨rfl, rfl⟩⟩

/-! ## Undefined pairs -/

/-- A byte sequence that is not split ends too early. -/
theorem splitPre_error {bs : List Byte} {e : DecodeError} (h : splitPre bs = .error e) : e = .truncated := by
  unfold splitPre at h
  split at h
  · cases h; rfl
  · split at h <;> cases h
    rfl

theorem takeOperands_error {t : Instr} {bs : List Byte} {e : DecodeError} (h : takeOperands t bs = .error e) :
    e = .truncated := by
  unfold takeOperands at h
  split at h <;> cases h
  rfl

/-- The decoder names an undefined pair where the sequence begins with that pair. -/
theorem decode_eq_illegalOpcode {bs : List Byte} {p : Pre} {op : Byte} (h : decode bs = .error (.illegalOpcode p op)) :
    ∃ rest, splitPre bs = .ok (p, op, rest) ∧ opcodeMap p op = none := by
  unfold decode at h
  split at h
  · next e he =>
    cases h
    cases splitPre_error he
  · next p' op' rest hsplit =>
    split at h
    · next hnone => cases h; exact ⟨rest, hsplit, hnone⟩
    · cases takeOperands_error h

end Sys2Proof

namespace Sys2Proof.Machine

/-- A fetch reads pre-byte and op-code as the decoder splits them, and no reset has come before what is left of it. -/
theorem fetchInstr_of_split {t : State} {n : Nat} {p : Pre} {op : Byte} {rest : List Byte} (hf : Fetchable t n)
    (h : splitPre (t.bytesAt t.pc n) = .ok (p, op, rest)) :
    ∃ u, u.frozen = false ∧ fetchInstr t = fetchOperands p op u := by
  cases n with
  | zero => cases h
  | succ n =>
    obtain ⟨u, hfetch, -, hu, hbytes, -⟩ := hf.succ
    rw [State.bytesAt, ← hbytes] at h
    unfold splitPre at h
    unfold fetchInstr
    rw [hfetch]
    simp only [andThen_next]
    cases hpre : Pre.ofByte (t.byteAt t.pc) with
    | none =>
      simp only [hpre] at h
      cases h
      exact ⟨u, State.frozen_of_uncut hu.1, rfl⟩
    | some q =>
      simp only [hpre] at h
      cases n with
      | zero => cases h
      | succ n =>
        obtain ⟨v, hfetch', -, hv, -, -⟩ := hu.succ
        rw [State.bytesAt] at h
        cases h
        simp only [hfetch', andThen_next]
        exact ⟨v, State.frozen_of_uncut hv.1, rfl⟩

/-- An undefined pair, decoded in a turn no reset has cut short, is the fault that names it (R108, D4, D5). -/
theorem fetchOperands_of_undefined {p : Pre} {op : Byte} {s : State} (h : opcodeMap p op = none) (hs : s.frozen = false) :
    fetchOperands p op s = .fault (.illegalOpcode (preByte? p) op) := by
  simp only [fetchOperands, h, hs, Bool.false_eq_true, if_false]

/-- Settles O10: the turn is a fetch, which reads the undefined pair. -/
theorem illegalOpcodeFaults : Obligations.IllegalOpcodeFaults := by
  intro s t n p op ht hu hr hp hd
  obtain ⟨hgaps, hcut⟩ := ht.quiet
  have hfetchable : Fetchable t n := ⟨hcut, hp, fun k _ => Spared.of_nil hgaps _⟩
  obtain ⟨rest, hsplit, hnone⟩ := decode_eq_illegalOpcode hd
  obtain ⟨u, hfrozen, hfetch⟩ := fetchInstr_of_split hfetchable hsplit
  rw [step_of_sharedTurn ht, coreTurn_of_undisturbed hu hr]
  simp only [runInstruction, hfetch, fetchOperands_of_undefined hnone hfrozen, andThen_fault]

end Sys2Proof.Machine
end

section
/-! SUPPORT. The proofs for the statements of `40_addressing_modes.md`: the effective address of every mode (R133 to R142, R149), and the
instructions that take it for PC, with the return (R150, R284 to R288). -/

namespace Sys2Proof.Machine

/-! ## Bytes as numbers and addresses -/

@[simp] theorem zext_toNat (b : Byte) : (zext b).toNat = b.toNat := by
  have hb := b.isLt
  rw [zext, BitVec.toNat_setWidth]
  omega

/-- A pointer byte is a page-zero address. -/
theorem zext_eq_ofNat (b : Byte) : zext b = BitVec.ofNat 16 b.toNat := (BitVec.ofNat_toNat 16 b).symm

/-- The second byte of a word pointer is at the next address, past page zero where the first is at FF (D7). -/
theorem zext_add_one (b : Byte) : zext b + 1 = BitVec.ofNat 16 (b.toNat + 1) := by
  rw [BitVec.ofNat_add, ← zext_eq_ofNat]
  rfl

/-- The sum of two bytes is no address beyond 01FE: nothing wraps (R72). -/
theorem zext_add_zext_toNat (b c : Byte) : (zext b + zext c).toNat = b.toNat + c.toNat := by
  have hb := b.isLt
  have hc := c.isLt
  rw [BitVec.toNat_add, zext_toNat, zext_toNat]
  omega

/-- The sum of a word and a byte wraps mod 2^16 (D6). -/
theorem add_zext_toNat (w : Word) (c : Byte) : (w + zext c).toNat = (w.toNat + c.toNat) % 65536 := by
  rw [BitVec.toNat_add, zext_toNat]

theorem wordOf_toNat (ms ls : Byte) : (wordOf ms ls).toNat = 256 * ms.toNat + ls.toNat := by
  rw [wordOf, BitVec.toNat_append, ← Nat.shiftLeft_add_eq_or_of_lt ls.isLt, Nat.shiftLeft_eq]
  omega

/-! ## Pointers -/

section
variable {s t u : State} {a : Word} {ms ls v : Byte}

/-- A word pointer is its two bytes, read one after the other. -/
theorem readWord_of_reads (h : readByte s a = .next (ms, t)) (h' : readByte t (a + 1) = .next (ls, u)) :
    readWord s a = .next (wordOf ms ls, u) := by
  simp only [readWord, h, h', andThen_next]

/-- The index is the same before a read and after it. -/
theorem readByte_index (h : readByte s a = .next (v, t)) (n : Index) : t.index n = s.index n := by
  obtain ⟨m, g, d, e, rfl, -⟩ := readByte_frame h
  cases n <;> rfl

end

section
variable {s t u : State} {b v ms ls : Byte}

/-- Through a byte pointer: its byte is the address, or is added to the index before the read (R138, R140). -/
theorem effAddr_of_bytePointer (h : readByte s (zext b) = .next (v, t)) :
    effAddr (.indS b) s = .next (zext v, t) ∧
    ∀ n, effAddr (.indxS n b) s = .next (zext v + zext (s.index n), t) := by
  refine ⟨?_, fun n => ?_⟩
  · simp only [effAddr, h, andThen_next]
  · simp only [effAddr, h, andThen_next, readByte_index h]

/-- Through a word pointer: its word is the address, or is added to the index before the reads (R139, R141). -/
theorem effAddr_of_wordPointer (h : readByte s (zext b) = .next (ms, t)) (h' : readByte t (zext b + 1) = .next (ls, u)) :
    effAddr (.indL b) s = .next (wordOf ms ls, u) ∧
    ∀ n, effAddr (.indxL n b) s = .next (wordOf ms ls + zext (s.index n), u) := by
  have hword := readWord_of_reads h h'
  refine ⟨hword, fun n => ?_⟩
  simp only [effAddr, hword, andThen_next, readByte_index h', readByte_index h]

theorem bitAddr_of_bytePointer (h : readByte s (zext b) = .next (v, t)) : bitAddr (.indirect b) s = .next (zext v, t) := by
  simp only [bitAddr, h, andThen_next]

end

/-- A memory operand is the byte at its effective address. -/
theorem readMem_of_effAddr {m : MemForm} {s t : State} {ea : Word} (h : effAddr m s = .next (ea, t)) :
    readMem m s = readByte t ea := by
  simp only [readMem, h, andThen_next]

/-- Settles O33: each mode's address, by the bytes it is summed from and the pointer it is read through. -/
theorem effectiveAddresses : Obligations.EffectiveAddresses := by
  intro s
  refine ⟨fun b => ⟨zext b, rfl, zext_toNat b⟩, fun w => rfl, fun n => ⟨_, rfl, zext_toNat _⟩,
    fun n b => ⟨_, rfl, zext_add_zext_toNat b _⟩, fun n w => ⟨_, rfl, add_zext_toNat w _⟩, ?bytePointer, ?wordPointer,
    fun b => ⟨zext b, rfl, zext_toNat b⟩, fun v => ⟨rfl, rfl⟩,
    fun m ea t h => ⟨readMem_of_effAddr h, readMem_of_effAddr h⟩⟩
  case bytePointer =>
    intro b v t h
    rw [← zext_eq_ofNat] at h
    obtain ⟨hshort, hindexed⟩ := effAddr_of_bytePointer h
    exact ⟨⟨_, hshort, bitAddr_of_bytePointer h, zext_toNat v⟩,
      fun n => ⟨_, hindexed n, zext_add_zext_toNat v _⟩, h⟩
  case wordPointer =>
    intro b ms t ls u h h'
    rw [← zext_eq_ofNat] at h
    rw [← zext_add_one] at h'
    obtain ⟨hlong, hindexed⟩ := effAddr_of_wordPointer h h'
    refine ⟨⟨_, hlong, wordOf_toNat ms ls⟩, fun n => ⟨_, hindexed n, ?_⟩⟩
    rw [add_zext_toNat, wordOf_toNat]

/-! ## Return addresses pushed and popped -/

/-- What reads leave of a quiet turn: memory as it was, and quiet. -/
theorem Bus.Reads.quiet_mem {s t : State} (h : s.bus.Reads t.bus) (hq : s.quiet) : t.quiet ∧ t.mem = s.mem :=
  ⟨h.toAccesses.quiet hq, h.alone hq.1⟩

/-- A word pushed after reads, in a quiet turn and onto RAM: its two bytes, the least significant first, and nothing else changes
but what the reads changed. -/
theorem pushWord_after_reads {s s1 : State}
    (h : ∃ m g d e, s1 = { s with mem := m, gaps := g, draws := d, events := e } ∧ s.bus.Reads s1.bus) (hq : s.quiet)
    (h0 : s.kindAt (s.slot 0) = some .ram) (h1 : s.kindAt (s.slot 1) = some .ram) (w : Word) :
    ∃ t, pushWord s1 w = .next t ∧ Pushed s t [lsByte w, msByte w] ∧
      t = { s.afterBus s1 with mem := t.mem, sp := t.sp } := by
  obtain ⟨m, g, d, e, rfl, hreads⟩ := h
  obtain ⟨hquiet, hmem⟩ := hreads.quiet_mem hq
  obtain rfl : m = s.mem := hmem
  have hram : ∀ k < [lsByte w, msByte w].length, s.kindAt (s.slot k) = some .ram
    | 0, _ => h0
    | 1, _ => h1
  obtain ⟨t, hpush, ht, hpushed⟩ := pushed_of _ [lsByte w, msByte w] hquiet (by simp) hram
  exact ⟨t, (pushWord_pushAll _ w).trans hpush, hpushed, ht⟩

/-- A pop answers what the read of the byte above SP answers in a state with the same bus. -/
theorem popByte_of_read {s t u : State} {v : Byte} (hb : u.bus = s.bus) (hd : u.device = s.device)
    (h : readByte s (u.device.spPreset ++ (u.sp + 1)) = .next (v, t)) :
    popByte u = .next (v, { u.afterBus t with sp := u.sp + 1 }) :=
  (readByte_congr (t := { u with sp := u.sp + 1 }) hb hd h :)

/-- A return address popped: the two bytes above SP, the most significant first. -/
theorem popWord_of_reads {s s1 s2 : State} {hi lo : Byte} (h : readByte s (s.device.spPreset ++ (s.sp + 1)) = .next (hi, s1))
    (h' : readByte s1 (s.device.spPreset ++ (s.sp + 2)) = .next (lo, s2)) :
    popWord s = .next (wordOf hi lo, { s.afterBus s2 with sp := s.sp + 2 }) := by
  have hsp : s.sp + 1 + 1 = s.sp + 2 := BitVec.add_assoc s.sp 1 1
  have hfirst := popByte_of_read (u := s) rfl rfl h
  obtain ⟨m, g, d, e, rfl, -⟩ := readByte_frame h
  rw [← hsp] at h' ⊢
  have hsecond := popByte_of_read (s := { s with mem := m, gaps := g, draws := d, events := e })
    (u := { s with mem := m, gaps := g, draws := d, events := e, sp := s.sp + 1 }) rfl rfl h'
  simp only [popWord, hfirst, andThen_next]
  exact congrArg (andThen · _) hsecond

/-! ## Jump, call and return -/

section
variable {m : MemForm} {rel : Rel} {s s1 : State} {ea : Word} {disp : Byte}

theorem exec_jp (h : effAddr m s = .next (ea, s1)) : exec (.jp m) s = .next { s.afterBus s1 with pc := ea } := by
  obtain ⟨k, g, d, e, rfl, -⟩ := effAddr_frame h
  simp only [exec, execJp, h, andThen_next, State.afterBus]

/-- CALL: the target is found first, then the return address is pushed (R285). -/
theorem exec_call (h : effAddr m s = .next (ea, s1)) :
    exec (.call m) s = andThen (pushWord s1 s.pc) fun t => .next { t with pc := ea } := by
  obtain ⟨k, g, d, e, rfl, -⟩ := effAddr_frame h
  simp only [exec, execCall, h, andThen_next]

/-- CALLR: as CALL, to the address the displacement reaches (R286). -/
theorem exec_callr (h : readRel rel s = .next (disp, s1)) :
    exec (.callr rel) s = andThen (pushWord s1 s.pc) fun t => .next { t with pc := reach s disp } := by
  obtain ⟨k, g, d, e, rfl, -⟩ := readRel_frame h
  simp only [exec, execCallr, h, andThen_next, relTarget_eq_reach, reach]

/-- An instruction that ends in pushing the return address and going to `target` leaves the return address in its two slots. -/
theorem pushed_of_call {i : Instr} {target : Word}
    (hi : exec i s = andThen (pushWord s1 s.pc) fun t => .next { t with pc := target })
    (h : ∃ m g d e, s1 = { s with mem := m, gaps := g, draws := d, events := e } ∧ s.bus.Reads s1.bus) (hq : s.quiet)
    (h0 : s.kindAt (s.slot 0) = some .ram) (h1 : s.kindAt (s.slot 1) = some .ram) :
    ∃ t, exec i s = .next t ∧ Pushed s t [lsByte s.pc, msByte s.pc] ∧
      t = { s.afterBus s1 with mem := t.mem, sp := t.sp, pc := target } := by
  obtain ⟨t, hpush, hpushed, ht⟩ := pushWord_after_reads h hq h0 h1 s.pc
  rw [hpush, andThen_next] at hi
  exact ⟨_, hi, hpushed, by rw [ht]⟩

end

/-- Settles O56: each is its operand followed by the stack operation, and PC. -/
theorem jumpCallReturnResult : Obligations.JumpCallReturnResult := by
  refine ⟨fun m s s1 ea h => ⟨exec_jp h, pushed_of_call (exec_call h) (effAddr_frame h)⟩,
    fun rel s s1 disp h => pushed_of_call (exec_callr h) (readRel_frame h),
    fun s s1 s2 hi lo h h' => ⟨wordOf hi lo, wordOf_toNat hi lo, ?_⟩⟩
  simp only [exec, execRet, popWord_of_reads h h', andThen_next]

end Sys2Proof.Machine
end

section
/-! SUPPORT. The proofs for the statements of `41_load_stack.md`: loads and stores (R160 to R163), PUSH and POP (R168, R169), the
instructions that set SP or one flag (R170, R287, R334 to R337), and the worked encodings. -/

namespace Sys2Proof

/-! ## Worked encodings -/

/-- The bytes the encoder writes for a well-formed instruction decode to it, unless it is the second name of another (R112). -/
theorem decode_of_encode_eq {i : Instr} {bs : List Byte} (hwf : i.wf = true) (hc : i.canonical = i) (h : encode i = bs) :
    decode bs = .ok (i, []) := by
  have hdecode := decodeOfEncode i [] hwf
  rwa [List.append_nil, h, hc] at hdecode

/-- Settles O3: each word is what the encoder writes for its instruction. -/
theorem sampleEncodingsDecode : Obligations.SampleEncodingsDecode := by
  unfold Obligations.SampleEncodingsDecode
  and_intros
  all_goals exact decode_of_encode_eq rfl rfl rfl

end Sys2Proof

namespace Sys2Proof.Machine

/-! ## Load and store -/

/-- Settles O44: the operand is read before the register is written. -/
theorem loadResult : Obligations.LoadResult := by
  intro r src s s1 m h
  obtain ⟨k, g, d, e, rfl, -⟩ := readSrc_frame h
  simp only [exec, execLd, h, andThen_next, CC.setNZ_eq_nzOf, State.afterBus]

/-- LD mem,reg is one write at the effective address, and N and Z of the register (R162). -/
theorem exec_ldStore {m : MemForm} {r : Reg} {s s1 : State} {ea : Word} (h : effAddr m s = .next (ea, s1)) :
    exec (.ldStore m r) s =
      andThen (writeByte s1 ea (s.reg r)) fun w => .next { w with cc := nzOf s.cc (s.reg r) } := by
  obtain ⟨k, g, d, e, rfl, -⟩ := effAddr_frame h
  simp only [exec, execLdStore, h, andThen_next, CC.setNZ_eq_nzOf, State.reg]

/-- Settles O45, by the rule for an instruction that ends in a write. -/
theorem storeResult : Obligations.StoreResult := by
  intro m r s s1 ea h
  have hexec := exec_ldStore (r := r) h
  obtain ⟨k, g, d, e, rfl, -⟩ := effAddr_frame h
  exact storesByte_of_write _ rfl hexec

/-! ## The condition codes as a byte (R26) -/

/-- A byte popped into CC gives the flags its bits 4 to 0 stand for. -/
theorem CC.ofByte_eq_stackedFlags (v : Byte) : CC.ofByte v = stackedFlags v := by
  simp only [CC.ofByte, stackedFlags, BitVec.getLsbD, Nat.testBit_eq_decide_div_mod_eq, Nat.reducePow, Nat.div_one]

/-- The byte of CC: bits 7 to 5 set, and the flags by the weights of bits 4 to 0. -/
theorem CC.toByte_toNat (cc : CC) :
    cc.toByte.toNat = 224 + 16 * cc.h.toNat + 8 * cc.i.toNat + 4 * cc.n.toNat + 2 * cc.z.toNat + cc.c.toNat := by
  obtain ⟨h, i, n, z, c⟩ := cc
  revert h i n z c
  decide

/-- What the claims call the value of a stack register is what PUSH stores. -/
theorem StackRegHolds.eq_stackReg {s : State} {r : StackReg} {v : Byte} (h : StackRegHolds s r v) : v = s.stackReg r := by
  cases r with
  | a => exact h
  | x => exact h
  | y => exact h
  | cc => exact BitVec.eq_of_toNat_eq (Eq.trans h s.cc.toByte_toNat.symm)

/-! ## PUSH and POP -/

/-- A store does not look at SP, so that a push is the store at the old SP in the state with SP one less. -/
theorem pushByte_eq_writeByte (s : State) (v : Byte) : pushByte s v = writeByte { s with sp := s.sp - 1 } s.spAddr v := by
  rw [writeByte_regs (s := s) (t := { s with sp := s.sp - 1 }) s.spAddr v rfl rfl, pushByte]
  cases h : writeByte s s.spAddr v with
  | next t => obtain ⟨m, g, d, e, rfl, -⟩ := writeByte_frame h; rfl
  | fault f => rfl
  | refused e => rfl

/-- PUSH is one write to the slot SP names, after which SP is one less (R168). -/
theorem exec_push (r : StackReg) (s : State) :
    exec (.push r) s = writeByte { s with sp := s.sp - 1 } (s.slot 0) (s.stackReg r) := by
  rw [← State.spAddr_eq_slot, ← pushByte_eq_writeByte, exec, execPush]

/-- POP writes its register with the byte above SP (R169). -/
theorem exec_pop (r : StackReg) {s s1 : State} {v : Byte} (h : readByte s (s.device.spPreset ++ (s.sp + 1)) = .next (v, s1)) :
    exec (.pop r) s = .next (State.setStackReg { s.afterBus s1 with sp := s.sp + 1 } r v) := by
  simp only [exec, execPop, popByte_of_read (u := s) rfl rfl h, andThen_next]

/-- Settles O57: PUSH is one write and POP one read, each at the address of SP. -/
theorem pushPopResult : Obligations.PushPopResult := by
  refine ⟨fun r s v hv => ?_, fun s s1 v h => ⟨exec_pop .a h, exec_pop .x h, exec_pop .y h, ?_⟩⟩
  · rw [hv.eq_stackReg]
    exact storesByte_of_writeByte rfl (exec_push r s)
  · rw [← CC.ofByte_eq_stackedFlags]
    exact exec_pop .cc h

/-! ## NOP, RSP and the instructions that set one flag -/

/-- After SIM no interrupt is accepted (R334, R353). -/
theorem acceptedSource_after_sim {s t : State} (h : exec .sim s = .next t) : acceptedSource t = none := by
  cases h
  exact acceptedSource_of_undisturbed (.inl rfl)

/-- Settles O59: each effect, encoding and count by its definition, and what SIM leaves is undisturbed. -/
theorem flagInstructionResult : Obligations.FlagInstructionResult := fun _ =>
  ⟨⟨rfl, rfl, rfl⟩, ⟨rfl, rfl, rfl⟩, ⟨rfl, rfl, rfl⟩, ⟨rfl, rfl, rfl⟩, ⟨rfl, rfl, rfl⟩, ⟨rfl, rfl, rfl⟩,
    fun _ => acceptedSource_after_sim⟩

end Sys2Proof.Machine
end

section
/-! SUPPORT. The proofs for the statements of `42_incdec_compare.md`: increment and decrement (R180, R181), comparison and test (R182 to R184),
and the unsigned branches that read a comparison (R303 to R306, R313, R314). -/

namespace Sys2Proof.Machine

/-! ## Comparison and test -/

/-- CP leaves the flags of the exact difference, and nothing else but what its operand's reads change (R182, R183). -/
theorem exec_cp {r : Reg} {src : Src} {s s1 : State} {m : Byte} (h : readSrc src s = .next (m, s1)) :
    ∃ (d : Byte) (b : Bool), d.toNat + m.toNat = (s.reg r).toNat + 256 * b.toNat ∧
      exec (.cp r src) s = .next { s.afterBus s1 with cc := { nzOf s.cc d with c := b } } := by
  refine ⟨_, _, subFlags_exact (s.reg r) m false s.cc, ?_⟩
  rw [exec, execCp, compareReg_of_read _ h, ← CC.setNZ_eq_nzOf]
  rfl

/-- TNZ leaves N and Z of its operand, and writes nothing back (R184). -/
theorem exec_tnz {dst : Dst} {s s1 : State} {v : Byte} (h : readDst dst s = .next (v, s1)) :
    exec (.tnz dst) s = .next { s.afterBus s1 with cc := nzOf s.cc v } := by
  obtain ⟨m, g, d, e, rfl, -⟩ := readDst_frame h
  simp only [exec, execTnz, h, andThen_next, CC.setNZ_eq_nzOf, State.afterBus]

/-- Settles O42: each is the read of its operand, followed by its flags. -/
theorem compareAndTestResult : Obligations.CompareAndTestResult :=
  ⟨fun _ _ _ _ _ h => exec_cp h, fun _ _ _ _ h => exec_tnz h⟩

/-! ## Branches after a comparison -/

/-- An instruction that branches on a flag jumps as the claims say it. -/
theorem jumpsIf_of_branchIf {i : Instr} {rel : Rel} {s : State} {c cond : Bool} (hi : exec i s = branchIf c rel s)
    (hc : c = cond) : JumpsIf i rel s cond := by
  intro disp s1 h
  rw [hi, hc, branchIf_of_read cond h, relTarget_eq_reach]

/-- After CP, Z says equal and C says below: the difference is 0 exactly where the operands agree, and a borrow is needed exactly
where the register is the smaller (R182). -/
theorem exec_cp_flags {r : Reg} {src : Src} {s s1 t : State} {m : Byte} (h : readSrc src s = .next (m, s1))
    (ht : exec (.cp r src) s = .next t) :
    t.cc.z = decide ((s.reg r).toNat = m.toNat) ∧ t.cc.c = decide ((s.reg r).toNat < m.toNat) := by
  obtain ⟨d, b, hd, hexec⟩ := exec_cp (r := r) h
  rw [hexec] at ht
  cases ht
  have hr := (s.reg r).isLt
  have hm := m.isLt
  have hdlt := d.isLt
  cases b with
  | false =>
    rw [Bool.toNat_false] at hd
    exact ⟨decide_eq_decide.mpr (by omega), (decide_eq_false (by omega)).symm⟩
  | true =>
    rw [Bool.toNat_true] at hd
    exact ⟨decide_eq_decide.mpr (by omega), (decide_eq_true (by omega)).symm⟩

/-- Settles O43: each branch reads Z, C or both, and these are `=` and `<`. -/
theorem unsignedBranches : Obligations.UnsignedBranches := by
  intro r src rel s s1 t m h ht
  obtain ⟨hz, hc⟩ := exec_cp_flags h ht
  have hne : (!t.cc.z) = decide ((s.reg r).toNat ≠ m.toNat) := by rw [hz, decide_not]
  have hge : (!t.cc.c) = decide ((s.reg r).toNat ≥ m.toNat) := by rw [hc, ← decide_not, decide_eq_decide]; omega
  have hgt : (!t.cc.c && !t.cc.z) = decide ((s.reg r).toNat > m.toNat) := by
    rw [hge, hne, ← Bool.decide_and, decide_eq_decide]; omega
  have hle : (t.cc.c || t.cc.z) = decide ((s.reg r).toNat ≤ m.toNat) := by
    rw [hc, hz, ← Bool.decide_or, decide_eq_decide]; omega
  exact ⟨jumpsIf_of_branchIf rfl hz, jumpsIf_of_branchIf rfl hne, jumpsIf_of_branchIf rfl hc, jumpsIf_of_branchIf rfl hc,
    jumpsIf_of_branchIf rfl hge, jumpsIf_of_branchIf rfl hge, jumpsIf_of_branchIf rfl hgt, jumpsIf_of_branchIf rfl hle⟩

/-! ## Increment and decrement -/

/-- An instruction that changes its operand by `f` rewrites it, as the claims say it, with what `f` answers. -/
theorem rewrites_of_modifyDst {i : Instr} {dst : Dst} {s : State} {v r : Byte} {cc : CC} {f : Byte → CC → Byte × CC}
    (hi : exec i s = modifyDst dst s f) (hf : f v s.cc = (r, cc)) : Rewrites i dst s v r cc := by
  cases dst with
  | reg q =>
    rintro rfl
    rw [hi, modifyDst_reg, hf]
  | mem m =>
    intro ea s1 s2 hea hv
    rw [modifyDst_mem f hea hv, hf] at hi
    obtain ⟨k, g, d, e, rfl, -⟩ := effAddr_frame hea
    obtain ⟨k', g', d', e', rfl, -⟩ := readByte_frame hv
    exact storesByte_of_write cc rfl hi

/-- Settles O48: the byte one up or one down, with N and Z of it. -/
theorem incrementDecrementResult : Obligations.IncrementDecrementResult := by
  intro dst s v
  refine ⟨⟨v + 1, BitVec.toNat_add v 1, rewrites_of_modifyDst (f := incFlags) rfl ?_⟩,
    v - 1, ?_, rewrites_of_modifyDst (f := decFlags) rfl ?_⟩
  · rw [incFlags, CC.setNZ_eq_nzOf]
  · rw [BitVec.toNat_sub, Nat.add_comm]; rfl
  · rw [decFlags, CC.setNZ_eq_nzOf]

end Sys2Proof.Machine
end

section
/-! SUPPORT. The proofs for the statements of `43_logical.md`: AND, OR and XOR with the comparison BCP (R185, R200 to R202), and the complement
and the negative (R203, R204). -/

namespace Sys2Proof.Machine

/-! ## Bitwise operations of A -/

/-- An operation that answers a byte with N and Z of it leaves that byte in A, and N and Z in CC. -/
theorem exec_of_modifyAcc {i : Instr} {src : Src} {s s1 : State} {m r : Byte} {f : Byte → Byte → CC → Byte × CC}
    (h : readSrc src s = .next (m, s1)) (hi : exec i s = modifyAcc src s f) (hf : f s.a m s.cc = (r, s.cc.setNZ r)) :
    exec i s = .next { s.afterBus s1 with a := r, cc := nzOf s.cc r } := by
  rw [hi, modifyAcc_of_read f h, hf, CC.setNZ_eq_nzOf]

/-- BCP leaves N and Z of `A AND M`, and nothing else but what its operand's reads change (R185). -/
theorem exec_bcp {src : Src} {s s1 : State} {m : Byte} (h : readSrc src s = .next (m, s1)) :
    exec (.bcp src) s = .next { s.afterBus s1 with cc := nzOf s.cc (s.a &&& m) } := by
  rw [exec, execBcp, compareReg_of_read andFlags h, andFlags, State.reg_a, CC.setNZ_eq_nzOf]

/-- Settles O41: the results are those of the bitwise operations, which act on each bit alone. -/
theorem logicResult : Obligations.LogicResult := by
  intro src s s1 m h
  refine ⟨⟨s.a &&& m, fun k _ => BitVec.getLsbD_and, ?_, exec_bcp h⟩, ⟨s.a ||| m, fun k _ => BitVec.getLsbD_or, ?_⟩,
    s.a ^^^ m, fun k _ => BitVec.getLsbD_xor, ?_⟩
  · exact exec_of_modifyAcc (f := andFlags) h rfl rfl
  · exact exec_of_modifyAcc (f := orFlags) h rfl rfl
  · exact exec_of_modifyAcc (f := xorFlags) h rfl rfl

/-! ## Complement and negative -/

/-- Turning over all eight bits is taking the byte from `FF`. -/
theorem xor_ff_toNat (v : Byte) : (v ^^^ 0xFF#8).toNat = 255 - v.toNat := by
  have hnot : v ^^^ 0xFF#8 = ~~~v := BitVec.xor_allOnes
  rw [hnot, BitVec.toNat_not]

/-- The negative of a byte is what is missing to 256, and 0 for 0. -/
theorem zero_sub_toNat (v : Byte) : (0#8 - v).toNat = (256 - v.toNat) % 256 := by
  rw [BitVec.toNat_sub]; rfl

/-- A byte differs from `00` exactly where its value is not 0. -/
theorem bne_zero_eq_decide (r : Byte) : (r != 0x00#8) = decide (r.toNat ≠ 0) := by
  rw [Bool.eq_iff_iff, bne_iff_ne, decide_eq_true_eq, ne_eq, ne_eq, ← BitVec.toNat_inj]; rfl

/-- Settles O49: the result is `FF - v` or `0 - v`, and C is the constant 1 or says that the result is not zero. -/
theorem complementResult : Obligations.ComplementResult := by
  intro dst s v
  refine ⟨⟨v ^^^ 0xFF#8, xor_ff_toNat v, rewrites_of_modifyDst (f := cplFlags) rfl ?_⟩,
    0#8 - v, zero_sub_toNat v, rewrites_of_modifyDst (f := negFlags) rfl ?_⟩
  · rw [cplFlags, CC.setNZ_eq_nzOf]
  · rw [negFlags, CC.setNZ_eq_nzOf, bne_zero_eq_decide]

end Sys2Proof.Machine
end

section
/-! SUPPORT. The proof for the statement about the bit tests of `44_bit.md`: C and the jump of BTJT and BTJF (R222, R223). -/

namespace Sys2Proof.Machine

/-- BTJT leaves the tested bit in C and jumps where it is 1, from the next instruction: `pc` stands there already (R222, C13). -/
theorem exec_btjt {b : BitForm} {s s1 s2 : State} {ea : Word} {v : Byte} (pos : BitVec 3) (disp : Byte)
    (h : bitAddr b s = .next (ea, s1)) (hv : readByte s1 ea = .next (v, s2)) :
    exec (.btjt pos b disp) s = .next
      { s.afterBus s2 with
        cc := { s.cc with c := v.getLsbD pos.toNat }
        pc := if v.getLsbD pos.toNat then reach s disp else s.pc } := by
  rw [exec, execBtjt, testBit_of_read pos disp true h hv, relTarget_eq_reach]

/-- BTJF leaves the tested bit in C and jumps where it is not 1, from the next instruction (R223, C13). -/
theorem exec_btjf {b : BitForm} {s s1 s2 : State} {ea : Word} {v : Byte} (pos : BitVec 3) (disp : Byte)
    (h : bitAddr b s = .next (ea, s1)) (hv : readByte s1 ea = .next (v, s2)) :
    exec (.btjf pos b disp) s = .next
      { s.afterBus s2 with
        cc := { s.cc with c := v.getLsbD pos.toNat }
        pc := if v.getLsbD pos.toNat then s.pc else reach s disp } := by
  have hswap : (if v.getLsbD pos.toNat = false then reach s disp else s.pc) =
      if v.getLsbD pos.toNat then s.pc else reach s disp := by
    cases v.getLsbD pos.toNat with
    | false => rfl
    | true => rfl
  rw [exec, execBtjf, testBit_of_read pos disp false h hv, relTarget_eq_reach, hswap]

/-- Settles O54: both are one test of the byte read, which differ in the value of the bit that jumps. -/
theorem bitTestResult : Obligations.BitTestResult :=
  fun pos _ disp _ _ _ _ _ h hv => ⟨exec_btjt pos disp h hv, exec_btjf pos disp h hv⟩

end Sys2Proof.Machine
end

section
/-! SUPPORT. The proof for the statement about MUL of `45_arithmetic.md`: the product and the flags (R244). -/

namespace Sys2Proof.Machine

/-- The product of two bytes fits in 16 bits: nothing is lost mod 2^16. -/
theorem mulFlags_exact (r a : Byte) (cc : CC) : (mulFlags r a cc).1.toNat = r.toNat * a.toNat := by
  have hlt : r.toNat * a.toNat < 2 ^ 8 * 2 ^ 8 := Nat.mul_lt_mul'' r.isLt a.isLt
  rw [mulFlags, BitVec.toNat_ofNat]
  exact Nat.mod_eq_of_lt hlt

/-- A word is 256 times its high byte, and its low byte. -/
theorem msByte_lsByte_toNat (w : Word) : 256 * (msByte w).toNat + (lsByte w).toNat = w.toNat := by
  rw [← wordOf_toNat, wordOf_msByte_lsByte]

/-- MUL splits the exact product over its index register and A, clears H and C, and changes nothing else (R244). -/
theorem exec_mul (ndx : Index) (s : State) :
    ∃ hi lo : Byte, 256 * hi.toNat + lo.toNat = (s.index ndx).toNat * s.a.toNat ∧
      exec (.mul ndx) s = .next { s.setReg ndx.reg hi with a := lo, cc := { s.cc with h := false, c := false } } :=
  ⟨_, _, (msByte_lsByte_toNat _).trans (mulFlags_exact (s.index ndx) s.a s.cc), rfl⟩

/-- Settles O52: the rule of MUL for X and for Y, and the rows of its two encodings. -/
theorem multiplyResult : Obligations.MultiplyResult :=
  ⟨exec_mul .x, exec_mul .y, rfl, rfl, rfl, rfl⟩

end Sys2Proof.Machine
end

section
/-! SUPPORT. The proofs for the statements of `46_shift_rotate.md`: shifts (R260 to R263), rotations and the exchange of the nibbles (R264 to
R266). -/

namespace Sys2Proof.Machine

/-! ## One position to the left, one to the right

A shift or rotation moves nine bits, the byte and a bit beside it: `b` enters at one end and the bit at the other end leaves for C.
So its result is read off one equation between two ways to write the same nine bits, and the shifts are the case that a 0 enters. -/

/-- To the left: what was `v` above `b` is the old bit 7 above the result. -/
theorem concat_eq_cons_shiftLeft (v : Byte) (b : Bool) :
    v.concat b = BitVec.cons (v.getLsbD 7) (v <<< 1 ||| (BitVec.ofBool b).setWidth 8) := by
  refine BitVec.eq_of_getLsbD_eq fun k hk => ?_
  rw [BitVec.getLsbD_concat, BitVec.getLsbD_cons]
  obtain rfl | rfl | ⟨hpos, hlt⟩ : k = 0 ∨ k = 8 ∨ 0 < k ∧ k < 8 := by omega
  · simp
  · simp
  · have hprev : k - 1 < 8 := by omega
    simp [hpos.ne', hlt, hlt.ne, BitVec.getLsbD_eq_getElem hprev]

/-- To the right: what was `b` above `v` is the result above the old bit 0. -/
theorem cons_eq_concat_shiftRight (v : Byte) (b : Bool) :
    BitVec.cons b v = (v >>> 1 ||| (BitVec.ofBool b).setWidth 8 <<< 7).concat (v.getLsbD 0) := by
  refine BitVec.eq_of_getLsbD_eq fun k hk => ?_
  rw [BitVec.getLsbD_concat, BitVec.getLsbD_cons]
  obtain rfl | rfl | ⟨hpos, hlt⟩ : k = 0 ∨ k = 8 ∨ 0 < k ∧ k < 8 := by omega
  · simp
  · simp
  · have hprev : k - 1 < 7 := by omega
    simp [hpos.ne', hlt.ne, hprev, Nat.add_sub_cancel' hpos]

/-- RLC doubles the operand and adds the old C; the ninth bit is the new C (R264). -/
theorem rlcFlags_exact (v : Byte) (cc : CC) :
    (rlcFlags v cc).1.toNat + 256 * (rlcFlags v cc).2.c.toNat = 2 * v.toNat + cc.c.toNat := by
  have h := congrArg BitVec.toNat (concat_eq_cons_shiftLeft v cc.c)
  rw [BitVec.toNat_concat, BitVec.toNat_cons', Nat.shiftLeft_eq] at h
  simp only [rlcFlags]
  omega

/-- RRC halves the nine bits with the old C on top; the remainder is the new C (R265). -/
theorem rrcFlags_exact (v : Byte) (cc : CC) :
    2 * (rrcFlags v cc).1.toNat + (rrcFlags v cc).2.c.toNat = v.toNat + 256 * cc.c.toNat := by
  have h := congrArg BitVec.toNat (cons_eq_concat_shiftRight v cc.c)
  rw [BitVec.toNat_concat, BitVec.toNat_cons', Nat.shiftLeft_eq] at h
  simp only [rrcFlags]
  omega

/-- SLL and SLA are RLC with C = 0 (R260, R261). -/
theorem sllFlags_eq_rlcFlags (v : Byte) (cc : CC) : sllFlags v cc = rlcFlags v { cc with c := false } := by
  have hzero : v <<< 1 ||| (BitVec.ofBool false).setWidth 8 = v <<< 1 := BitVec.or_zero
  simp only [sllFlags, rlcFlags, hzero, CC.setNZ]

theorem sllFlags_exact (v : Byte) (cc : CC) :
    (sllFlags v cc).1.toNat + 256 * (sllFlags v cc).2.c.toNat = 2 * v.toNat := by
  rw [sllFlags_eq_rlcFlags]
  exact rlcFlags_exact v { cc with c := false }

/-- SRL is RRC with C = 0, whose result has bit 7 clear: N = 0 says the same (R262). -/
theorem srlFlags_eq_rrcFlags (v : Byte) (cc : CC) : srlFlags v cc = rrcFlags v { cc with c := false } := by
  have hzero : v >>> 1 ||| (BitVec.ofBool false).setWidth 8 <<< 7 = v >>> 1 := BitVec.or_zero
  have hmsb : (v >>> 1).msb = false := by simp [BitVec.msb_ushiftRight]
  simp only [srlFlags, rrcFlags, hzero, CC.setNZ, hmsb]

theorem srlFlags_exact (v : Byte) (cc : CC) :
    2 * (srlFlags v cc).1.toNat + (srlFlags v cc).2.c.toNat = v.toNat := by
  rw [srlFlags_eq_rrcFlags]
  exact rrcFlags_exact v { cc with c := false }

/-- SRA is RRC with the sign of the operand for C (R263). -/
theorem sraFlags_eq_rrcFlags (v : Byte) (cc : CC) : sraFlags v cc = rrcFlags v { cc with c := v.msb } := by
  have hsign : v &&& 0x80#8 = (BitVec.ofBool v.msb).setWidth 8 <<< 7 := by
    have hmask : (0x80#8 : Byte) = BitVec.twoPow 8 7 := rfl
    rw [hmask, BitVec.and_twoPow, BitVec.msb_eq_getLsbD_last]
    cases v.getLsbD (8 - 1) with
    | false => rfl
    | true => rfl
  simp only [sraFlags, rrcFlags, hsign, CC.setNZ]

/-- SRA keeps the sign (R263). -/
theorem sraFlags_msb (v : Byte) (cc : CC) : (sraFlags v cc).1.msb = v.msb := by
  have hmask : (0x80#8).msb = true := rfl
  simp [sraFlags, BitVec.msb_or, BitVec.msb_and, hmask]

/-- The signed value of a byte is 256 below the unsigned one where bit 7 is set. -/
theorem toInt_eq_toNat_sub_msb (v : Byte) : v.toInt = v.toNat - 256 * (v.msb.toNat : Int) := by
  rw [BitVec.toInt_eq_msb_cond]
  cases v.msb with
  | false => simp
  | true => rfl

/-- The sign stands on top of the operand and on top of the result, so the halving of the nine bits is a signed one (R263). -/
theorem sraFlags_exact (v : Byte) (cc : CC) :
    2 * (sraFlags v cc).1.toInt + ((sraFlags v cc).2.c.toNat : Int) = v.toInt := by
  have h : 2 * (sraFlags v cc).1.toNat + (sraFlags v cc).2.c.toNat = v.toNat + 256 * v.msb.toNat := by
    rw [sraFlags_eq_rrcFlags]
    exact rrcFlags_exact v { cc with c := v.msb }
  rw [toInt_eq_toNat_sub_msb, sraFlags_msb, toInt_eq_toNat_sub_msb v]
  omega

/-! ## The statements -/

/-- An instruction whose flags are N and Z of its result, and a C, rewrites its operand with these. -/
theorem rewrites_with_carry {i : Instr} {dst : Dst} {s : State} {v r : Byte} {c : Bool} {f : Byte → CC → Byte × CC}
    (hi : exec i s = modifyDst dst s f) (hf : f v s.cc = (r, { s.cc.setNZ r with c := c })) :
    Rewrites i dst s v r { nzOf s.cc r with c := c } :=
  rewrites_of_modifyDst hi (by rw [hf, CC.setNZ_eq_nzOf])

/-- SRL leaves N clear, and Z and C of its result (R262). -/
theorem rewrites_srl (dst : Dst) (s : State) (v : Byte) :
    Rewrites (.srl dst) dst s v (srlFlags v s.cc).1
      { s.cc with n := false, z := decide ((srlFlags v s.cc).1.toNat = 0), c := (srlFlags v s.cc).2.c } := by
  have hz : ((srlFlags v s.cc).1 == 0x00#8) = decide ((srlFlags v s.cc).1.toNat = 0) :=
    congrArg CC.z (CC.setNZ_eq_nzOf s.cc (srlFlags v s.cc).1)
  rw [← hz]
  exact rewrites_of_modifyDst (f := srlFlags) rfl rfl

/-- Settles O50: each shift is one rotation of nine bits, with a 0 or the sign entering. -/
theorem shiftResult : Obligations.ShiftResult := by
  intro dst s v
  refine ⟨⟨_, _, sllFlags_exact v s.cc, ?_, ?_⟩, ⟨_, _, srlFlags_exact v s.cc, rewrites_srl dst s v⟩,
    _, _, sraFlags_exact v s.cc, ?_⟩
  · exact rewrites_with_carry (f := sllFlags) rfl rfl
  · exact rewrites_with_carry (f := sllFlags) rfl rfl
  · exact rewrites_with_carry (f := sraFlags) rfl rfl

/-- SWAP: the low nibble becomes the high one, and the high one the low (R266). -/
theorem swapFlags_toNat (v : Byte) (cc : CC) : (swapFlags v cc).1.toNat = 16 * (v.toNat % 16) + v.toNat / 16 := by
  have hv := v.isLt
  have hlow : (v &&& 0x0F#8).toNat = v.toNat % 16 := Nat.and_two_pow_sub_one_eq_mod v.toNat 4
  have hlowUp : (v.toNat % 16) <<< 4 < 2 ^ 8 := by rw [Nat.shiftLeft_eq]; omega
  have hhigh : v.toNat / 2 ^ 4 < 2 ^ 4 := by omega
  simp only [swapFlags]
  rw [BitVec.toNat_or, BitVec.toNat_shiftLeft, BitVec.toNat_ushiftRight, hlow, Nat.mod_eq_of_lt hlowUp,
    Nat.shiftRight_eq_div_pow, ← Nat.shiftLeft_add_eq_or_of_lt hhigh, Nat.shiftLeft_eq]
  omega

/-- Settles O51: RLC and RRC by their nine bits, SWAP by its nibbles. -/
theorem rotateResult : Obligations.RotateResult := by
  intro dst s v
  refine ⟨⟨_, _, rlcFlags_exact v s.cc, ?_⟩, ⟨_, _, rrcFlags_exact v s.cc, ?_⟩, _, swapFlags_toNat v s.cc, ?_⟩
  · exact rewrites_with_carry (f := rlcFlags) rfl rfl
  · exact rewrites_with_carry (f := rrcFlags) rfl rfl
  · refine rewrites_of_modifyDst (f := swapFlags) rfl ?_
    rw [← CC.setNZ_eq_nzOf]
    rfl

end Sys2Proof.Machine
end

section
/-! SUPPORT. The proofs for the statements of `47_jump_call.md` and `49_interrupt_ccflags.md`: the relative jumps (R280 to R283, R300 to R316), what
calls and exceptions stack and what RET and IRET take back (R285 to R288, R330, R333), and WFI and HALT (R331, R332). -/

namespace Sys2Proof.Machine

/-! ## Relative jumps -/

/-- Settles O55: each relative jump is `branchIf` on its condition; JRUGT reads `not C and not Z`. -/
theorem relativeJumpResult : Obligations.RelativeJumpResult := by
  intro rel s
  have jumps {i : Instr} {c : Bool} (h : exec i s = branchIf c rel s) : JumpsIf i rel s c := jumpsIf_of_branchIf h rfl
  have hugt : JumpsIf (.jrugt rel) rel s (!(s.cc.c || s.cc.z)) :=
    jumpsIf_of_branchIf rfl (Bool.not_or s.cc.c s.cc.z).symm
  exact ⟨jumps rfl, jumps rfl, jumps rfl, jumps rfl, jumps rfl, jumps rfl, jumps rfl, jumps rfl, jumps rfl, jumps rfl,
    jumps rfl, jumps rfl, jumps rfl, jumps rfl, jumps rfl, hugt, jumps rfl, jumps rfl, jumps rfl⟩

/-! ## Bytes pushed, and what pops take back -/

/-- Bytes pushed are told by memory and SP alone. -/
theorem Pushed.congr {s t u : State} {vs : List Byte} (h : Pushed s t vs) (hm : u.mem = t.mem) (hsp : u.sp = t.sp) :
    Pushed s u vs := by
  obtain ⟨hbytes, hrest, hdown⟩ := h
  exact ⟨fun k hk => (State.byteAt_congr hm _).trans (hbytes k hk),
    fun b hb => (State.byteAt_congr hm b).trans (hrest b hb), hsp.trans hdown⟩

/-- After `vs` was pushed, the `k`-th byte above SP, `k` from 0, is the one pushed `k` before the last. -/
theorem Pushed.byteAt_above {s t : State} {vs : List Byte} (h : Pushed s t vs) (hd : t.device = s.device) {k : Nat}
    (hk : k < vs.length) :
    t.byteAt (t.device.spPreset ++ (t.sp + BitVec.ofNat 6 (k + 1))) = vs.getD (vs.length - 1 - k) 0#8 := by
  obtain ⟨hbytes, -, hdown⟩ := h
  rw [hd, hdown, slot_of_pops s hk, hbytes _ (by omega)]

/-- As many pops as there were pushes bring SP back. -/
theorem Pushed.sp_back {s t : State} {vs : List Byte} (h : Pushed s t vs) : t.sp + BitVec.ofNat 6 vs.length = s.sp := by
  obtain ⟨-, -, hdown⟩ := h
  rw [hdown, BitVec.sub_add_cancel]

section
variable {s t : State}

/-- A pop in a quiet turn from a RAM stack: the byte above SP, and SP one more. -/
theorem popByte_ram (hq : s.quiet) (hs : s.stackIsRam) :
    popByte s = .next (s.byteAt (s.device.spPreset ++ (s.sp + 1)), { s with sp := s.sp + 1 }) :=
  popByte_plain hq (State.plainAt_of_ram (hs _))

/-- A return address popped in a quiet turn from a RAM stack: the two bytes above SP, the most significant first. -/
theorem popWord_ram (hq : s.quiet) (hs : s.stackIsRam) :
    popWord s = .next (wordOf (s.byteAt (s.device.spPreset ++ (s.sp + 1))) (s.byteAt (s.device.spPreset ++ (s.sp + 2))),
      { s with sp := s.sp + 2 }) :=
  popWord_of_reads (readByte_plain hq (State.plainAt_of_ram (hs _))) (readByte_plain hq (State.plainAt_of_ram (hs _)))

/-- RET takes back the return address that was pushed. -/
theorem exec_ret_of_pushed {w : Word} (h : Pushed s t [lsByte w, msByte w]) (hd : t.device = s.device) (hq : t.quiet)
    (hs : s.stackIsRam) : exec .ret t = .next { t with pc := w, sp := s.sp } := by
  have hhi : t.byteAt (t.device.spPreset ++ (t.sp + 1)) = msByte w := h.byteAt_above hd (k := 0) Nat.two_pos
  have hlo : t.byteAt (t.device.spPreset ++ (t.sp + 2)) = lsByte w := h.byteAt_above hd (k := 1) Nat.one_lt_two
  have hsp : t.sp + 2 = s.sp := h.sp_back
  have hpop := popWord_ram hq (State.stackIsRam_congr hd hs)
  rw [hhi, hlo, wordOf_msByte_lsByte, hsp] at hpop
  simp only [exec, execRet, hpop, andThen_next]

/-! ## Taking an exception, and returning from one -/

/-- A context stacked in a quiet turn on a RAM stack. -/
theorem pushContext_ram (hq : s.quiet) (hs : s.stackIsRam) :
    ∃ u, pushContext s = .next u ∧ u = { s with mem := u.mem, sp := u.sp } ∧ Pushed s u s.context := by
  rw [pushContext_pushAll]
  exact pushed_of s s.context hq (by decide : (5 : Nat) ≤ 64) fun _ _ => hs _

/-- An exception taken in a quiet turn through a vector that can be read: the context stacked, I set, and PC the vector's word
(R330, R355). -/
theorem enterException_ram {v : Word} (hq : s.quiet) (hs : s.stackIsRam) (hv : s.plainAt v) (hv' : s.plainAt (v + 1)) :
    ∃ u, enterException s v = .next u ∧ Pushed s u s.context ∧
      u = { s with mem := u.mem, sp := u.sp, cc := { s.cc with i := true }, pc := u.wordAt v } := by
  obtain ⟨u, hpush, hu, hpushed⟩ := pushContext_ram hq hs
  rw [hu] at hpush
  have hread := readWord_plain (s := { s with mem := u.mem, sp := u.sp, cc := { s.cc with i := true } }) hq hv hv'
  refine ⟨{ s with mem := u.mem, sp := u.sp, cc := { s.cc with i := true }, pc := u.wordAt v }, ?_, hpushed.congr rfl rfl, rfl⟩
  simp only [enterException, hpush, andThen_next, hread]
  rfl

/-- However the vector is read, in a quiet turn an exception leaves its context on the RAM stack, and the turn quiet. -/
theorem pushed_of_enterException {v : Word} (hq : s.quiet) (hs : s.stackIsRam) (h : enterException s v = .next t) :
    Pushed s t s.context ∧ t.quiet := by
  obtain ⟨u, hpush, hu, hpushed⟩ := pushContext_ram hq hs
  rw [hu] at hpush
  simp only [enterException, hpush, andThen_next] at h
  obtain ⟨⟨w, t1⟩, hread, hend⟩ := andThen_eq_next.mp h
  obtain ⟨m, g, d, e, rfl, hreads⟩ := readWord_frame hread
  obtain ⟨hquiet, hmem⟩ := hreads.quiet_mem hq
  cases hend
  exact ⟨hpushed.congr hmem rfl, hquiet⟩

/-- IRET in a quiet turn from a RAM stack: CC, A, X and PC from the five bytes above SP (R333, R361). -/
theorem returnFromException_ram (hq : s.quiet) (hs : s.stackIsRam) :
    returnFromException s = .next
      { s with
        cc := CC.ofByte (s.byteAt (s.device.spPreset ++ (s.sp + 1)))
        a := s.byteAt (s.device.spPreset ++ (s.sp + 2))
        x := s.byteAt (s.device.spPreset ++ (s.sp + 3))
        pc := wordOf (s.byteAt (s.device.spPreset ++ (s.sp + 4))) (s.byteAt (s.device.spPreset ++ (s.sp + 5)))
        sp := s.sp + 5 } := by
  have hsp (p q : BitVec 6) : s.sp + p + q = s.sp + (p + q) := BitVec.add_assoc s.sp p q
  have hpop (cc : CC) (a x : Byte) (p : BitVec 6) : popByte { s with cc := cc, a := a, x := x, sp := p } =
      .next (s.byteAt (s.device.spPreset ++ (p + 1)), { s with cc := cc, a := a, x := x, sp := p + 1 }) := popByte_ram hq hs
  have hpopWord (cc : CC) (a x : Byte) (p : BitVec 6) : popWord { s with cc := cc, a := a, x := x, sp := p } =
      .next (wordOf (s.byteAt (s.device.spPreset ++ (p + 1))) (s.byteAt (s.device.spPreset ++ (p + 2))),
        { s with cc := cc, a := a, x := x, sp := p + 2 }) := popWord_ram hq hs
  simp only [returnFromException, popByte_ram hq hs, hpop, hpopWord, andThen_next, hsp, BitVec.reduceAdd]
  rfl

/-- IRET takes back the context that was stacked, and leaves everything else. -/
theorem exec_iret_of_pushed (h : Pushed s t s.context) (hd : t.device = s.device) (hq : t.quiet) (hs : s.stackIsRam) :
    exec .iret t = .next { t with pc := s.pc, sp := s.sp, cc := s.cc, a := s.a, x := s.x } := by
  have hcc : t.byteAt (t.device.spPreset ++ (t.sp + 1)) = s.cc.toByte := h.byteAt_above hd (k := 0) (by decide : 0 < 5)
  have ha : t.byteAt (t.device.spPreset ++ (t.sp + 2)) = s.a := h.byteAt_above hd (k := 1) (by decide : 1 < 5)
  have hx : t.byteAt (t.device.spPreset ++ (t.sp + 3)) = s.x := h.byteAt_above hd (k := 2) (by decide : 2 < 5)
  have hhi : t.byteAt (t.device.spPreset ++ (t.sp + 4)) = msByte s.pc := h.byteAt_above hd (k := 3) (by decide : 3 < 5)
  have hlo : t.byteAt (t.device.spPreset ++ (t.sp + 5)) = lsByte s.pc := h.byteAt_above hd (k := 4) (by decide : 4 < 5)
  have hsp : t.sp + 5 = s.sp := h.sp_back
  rw [exec, execIret, returnFromException_ram hq (State.stackIsRam_congr hd hs), hcc, ha, hx, hhi, hlo, hsp,
    CC.ofByte_toByte, wordOf_msByte_lsByte]

end

/-- Settles O58: TRAP is the entry through its vector, and IRET reads the five bytes above SP. -/
theorem trapIretResult : Obligations.TrapIretResult := by
  intro s hq hs
  refine ⟨fun hv hv' => enterException_ram hq hs hv hv', _, wordOf_toNat _ _, ?_⟩
  rw [exec, execIret, returnFromException_ram hq hs, CC.ofByte_eq_stackedFlags]

/-- RET after an instruction that pushed the return address, having read its operand. -/
theorem exec_ret_of_call {i : Instr} {s s1 t : State} {target : Word} (hq : s.quiet) (hs : s.stackIsRam)
    (hi : exec i s = andThen (pushWord s1 s.pc) fun t => .next { t with pc := target })
    (hread : ∃ m g d e, s1 = { s with mem := m, gaps := g, draws := d, events := e } ∧ s.bus.Reads s1.bus)
    (h : exec i s = .next t) : exec .ret t = .next { t with pc := s.pc, sp := s.sp } := by
  obtain ⟨u, hu, hpushed, heq⟩ := pushed_of_call hi hread hq (hs _) (hs _)
  obtain rfl : u = t := Host.Outcome.next.inj (hu.symm.trans h)
  obtain ⟨-, -, -, haccesses⟩ := exec_environment h
  have hquiet : u.quiet := haccesses.quiet hq
  exact exec_ret_of_pushed hpushed (exec_sameSetting h).device hquiet hs

/-- Settles O37: what is taken back is what was pushed, and the turn is still quiet. -/
theorem callsAndTrapReturn : Obligations.CallsAndTrapReturn := by
  intro s t hq hs
  refine ⟨fun m h => ?call, fun rel h => ?callr, fun h => ?trap⟩
  case call =>
    obtain ⟨⟨ea, s1⟩, hea, -⟩ := andThen_eq_next.mp h
    exact exec_ret_of_call hq hs (exec_call hea) (effAddr_frame hea) h
  case callr =>
    obtain ⟨⟨disp, s1⟩, hdisp, -⟩ := andThen_eq_next.mp h
    exact exec_ret_of_call hq hs (exec_callr hdisp) (readRel_frame hdisp) h
  case trap =>
    obtain ⟨hpushed, hquiet⟩ := pushed_of_enterException hq hs h
    have hiret := exec_iret_of_pushed hpushed (exec_sameSetting h).device hquiet hs
    obtain ⟨m, g, d, e, w, rfl, -⟩ := enterException_frame h
    exact hiret

/-! ## WFI and HALT -/

/-- Settles O60: each effect, encoding and count by its definition. -/
theorem waitHaltResult : Obligations.WaitHaltResult := fun _ => ⟨rfl, rfl, rfl, rfl, rfl, rfl⟩

end Sys2Proof.Machine
end

section
/-! SUPPORT. The proofs for the statements of `60_exceptions.md`: what faults (R350, R360), the entry of a hardware interrupt (R353 to R358, R370,
R372) and its return (R361), and the core and the peripherals in WAIT and HALT (R372 to R374). -/

namespace Sys2Proof.Machine

/-! ## What faults -/

theorem next_ne_fault {α : Type} (v : α) (f : Fault) : (.next v : Res α) ≠ .fault f := nofun

/-- What does not fault, and ends in the next state, does not fault. -/
theorem andThen_next_ne_fault {α β : Type} {r : Res α} {g : α → β} {f : Fault} (h : r ≠ .fault f) :
    andThen r (fun v => .next (g v)) ≠ .fault f := andThen_ne_fault h fun v => next_ne_fault (g v) f

/-- NO INSTRUCTION FAULTS: each is made of operations that do not. -/
theorem exec_ne_fault (i : Instr) (s : State) (f : Fault) : exec i s ≠ .fault f := by
  cases i
  case adc | add | sub | sbc | and | or | xor =>
    simp only [exec, execAdc, execAdd, execSub, execSbc, execAnd, execOr, execXor]
    exact modifyAcc_ne_fault _ _ _ _
  case cp | bcp => simp only [exec, execCp, execBcp]; exact compareReg_ne_fault _ _ _ _ _
  case cpl | neg | inc | dec | sll | sla | srl | sra | rlc | rrc | swap => exact modifyDst_ne_fault _ _ _ _
  case bset | bres => simp only [exec, execBset, execBres]; exact modifyBit_ne_fault _ _ _ _
  case btjt | btjf => exact testBit_ne_fault _ _ _ _ _ _
  case jra | jrt | jrf | jrc | jrnc | jrult | jruge | jreq | jrne | jrmi | jrpl | jrh | jrnh | jrm | jrnm | jrugt | jrule |
      jrih | jril =>
    exact branchIf_ne_fault _ _ _ _
  case clr => exact andThen_next_ne_fault (overwriteDst_ne_fault _ _ _ _)
  case tnz => exact andThen_next_ne_fault (readDst_ne_fault _ _ _)
  case ld => exact andThen_next_ne_fault (readSrc_ne_fault _ _ _)
  case ldStore =>
    exact andThen_ne_fault (effAddr_ne_fault _ _ _) fun _ => andThen_next_ne_fault (writeByte_ne_fault _ _ _ _)
  case push => exact pushByte_ne_fault _ _ _
  case pop => exact andThen_next_ne_fault (popByte_ne_fault _ _)
  case jp => exact andThen_next_ne_fault (effAddr_ne_fault _ _ _)
  case call => exact andThen_ne_fault (effAddr_ne_fault _ _ _) fun _ => andThen_next_ne_fault (pushWord_ne_fault _ _ _)
  case callr => exact andThen_ne_fault (readRel_ne_fault _ _ _) fun _ => andThen_next_ne_fault (pushWord_ne_fault _ _ _)
  case ret => exact andThen_next_ne_fault (popWord_ne_fault _ _)
  case trap => exact enterException_ne_fault _ _ _
  case iret => exact returnFromException_ne_fault _ _
  case mul | ldRegReg | ldSReg | ldRegS | rsp | nop | wfi | halt | sim | rim | scf | rcf => exact next_ne_fault _ _

theorem enterInterrupt_ne_fault (k : Nat) (src : IrqSource) (s : State) (f : Fault) : enterInterrupt k src s ≠ .fault f :=
  andThen_next_ne_fault (enterException_ne_fault _ _ _)

theorem resetAll_ne_fault (rs : List Reset) (s : State) (f : Fault) : resetAll rs s ≠ .fault f := by
  induction rs generalizing s with
  | nil => exact next_ne_fault _ _
  | cons r rest ih => exact andThen_ne_fault (resetSequence_ne_fault _ _ _) fun t => ih t

theorem deliver_ne_fault (e : Input) (s : State) (f : Fault) : deliver e s ≠ .fault f := by
  cases e <;> exact next_ne_fault _ _

/-- An instruction run faults in its fetch alone. -/
theorem runInstruction_fault {s : State} {f : Fault} (h : runInstruction s = .fault f) : fetchInstr s = .fault f := by
  rcases andThen_eq_fault.mp h with h | ⟨⟨i, u⟩, -, h⟩
  · exact h
  · exact absurd h (andThen_next_ne_fault (exec_ne_fault i u f))

/-- The core's turn faults where a running core fetches an undefined pair, and nowhere else. -/
theorem coreTurn_fault {s : State} {f : Fault} (h : coreTurn s = .fault f) :
    s.runState = .running ∧ ∃ p op, opcodeMap p op = none ∧ f = .illegalOpcode (preByte? p) op := by
  unfold coreTurn at h
  split at h
  · exact absurd h (enterInterrupt_ne_fault _ _ _ _)
  · split at h
    · next hr => exact ⟨hr, fetchInstr_fault (runInstruction_fault h)⟩
    · cases h
    · cases h

/-- The resets of a turn do not fault, so that the turn faults where the core does. -/
theorem takeTurn_fault {g : Gaps} {rs : List Reset} {s : State} {f : Fault} (h : takeTurn g rs s = .fault f) :
    s.runState = .running ∧ ∃ p op, opcodeMap p op = none ∧ f = .illegalOpcode (preByte? p) op := by
  rcases andThen_eq_fault.mp h with h | ⟨t, -, h⟩
  · exact coreTurn_fault (s := { s with gaps := g, cut := !(possibleResets s rs).isEmpty }) h
  · refine absurd h (andThen_next_ne_fault ?_)
    split
    · exact next_ne_fault _ _
    · exact resetAll_ne_fault _ _ _

/-- Settles O11: an instruction never faults, the environment never does, and the core's turn only in its fetch. -/
theorem onlyIllegalOpcodesFault : Obligations.OnlyIllegalOpcodesFault := by
  refine ⟨exec_ne_fault, fun s f h => ?_⟩
  cases hs : s.schedule with
  | nil =>
    obtain ⟨hr, hf⟩ := takeTurn_fault ((step_of_idle hs).symm.trans h)
    exact ⟨hr, .inl rfl, hf⟩
  | cons turn rest =>
    cases turn with
    | core g rs =>
      obtain ⟨hr, hf⟩ := takeTurn_fault ((step_of_core hs).symm.trans h)
      exact ⟨hr, .inr ⟨g, rs, rest, rfl⟩, hf⟩
    | env e => exact absurd ((step_of_env hs).symm.trans h) (deliver_ne_fault _ _ _)

/-! ## The entry of a hardware interrupt -/

/-- On the core's turn with I clear, the source selected is entered, and nothing of the turn is left. -/
theorem step_of_selected {s t : State} {k : Nat} {src : IrqSource} (ht : CoreTurn s t) (hi : t.cc.i = false)
    (hk : Selected t k src) :
    step s = andThen (enterInterrupt k src t) fun u => .next { u with gaps := [], cut := false } := by
  rw [step_of_sharedTurn ht, coreTurn, acceptedSource_of_selected hi hk]

/-- Settles O13: the entry is that of an exception, with latch, run state and cycles after it. -/
theorem interruptEntry : Obligations.InterruptEntry := by
  intro s t k src ht hi hk hram hv hv'
  obtain ⟨u, hu, hpushed, heq⟩ := enterException_ram ht.quiet hram hv hv'
  obtain ⟨hgaps, hcut⟩ := ht.quiet
  rw [step_of_selected ht hi hk, enterInterrupt, hu]
  refine ⟨_, rfl, hpushed.congr rfl rfl, ?_⟩
  rw [heq]
  simp only [hgaps, hcut, wakeCycles]
  rfl

/-- Settles O14: where every source is ranked one is selected, and it is entered. -/
theorem pendingRequestIsTaken : Obligations.PendingRequestIsTaken := by
  intro s t ht hi hrank hsome hram hvec
  obtain ⟨k, src, hk⟩ := exists_selected hrank hsome
  have ⟨⟨hsrc, _, _⟩, _⟩ := hk
  obtain ⟨hv, hv'⟩ := hvec k src hsrc
  obtain ⟨u, hu, -, heq⟩ := interruptEntry s t k src ht hi hk hram hv hv'
  exact ⟨u, k, src, hu, hk, by rw [heq]; rfl, by rw [heq], by rw [heq]⟩

/-- Settles O38: the entry leaves the context stacked and the turn quiet, and IRET takes the context back. -/
theorem interruptThenIret : Obligations.InterruptThenIret := by
  intro s t u k src ht hi hk hram h
  rw [step_of_selected ht hi hk] at h
  obtain ⟨v, hv, hend⟩ := andThen_eq_next.mp h
  obtain ⟨w, hw, hv⟩ := andThen_eq_next.mp hv
  obtain ⟨hpushed, -⟩ := pushed_of_enterException ht.quiet hram hw
  obtain ⟨m, g, d, e, target, rfl, -⟩ := enterException_frame hw
  cases hv
  cases hend
  exact exec_iret_of_pushed (hpushed.congr rfl rfl) rfl ⟨rfl, rfl⟩ hram

/-! ## WAIT and HALT -/

/-- A waiting or halted core with nothing to take does nothing (R331, R332, R374). -/
theorem coreTurn_of_waiting {s : State} (hu : Undisturbed s) (hr : s.runState ≠ .running) : coreTurn s = .next s := by
  unfold coreTurn
  rw [acceptedSource_of_undisturbed hu]
  cases h : s.runState with
  | running => exact absurd h hr
  | waiting => rfl
  | halted => rfl

/-- Settles O15: the turn is a wait, and nothing of it is left. -/
theorem lowPowerWaits : Obligations.LowPowerWaits := by
  intro s t ht _ hu hr
  rw [step_of_sharedTurn ht, coreTurn_of_waiting hu hr, andThen_next, ht.quiet.tidy]

/-- In HALT a request of a source outside `HALT_WAKE_SET`, a withdrawal and a bus write change nothing (R372). -/
theorem deliver_in_halt {e : Input} {s : State} (hr : s.runState = .halted)
    (he : (∃ k, e = .request k ∧ ∀ src, s.device.sources[k]? = some src → src.wakesHalt = false) ∨
      (∃ k, e = .withdraw k) ∨ ∃ a v, e = .busWrite a v) : deliver e s = .next s := by
  rcases he with ⟨k, rfl, hk⟩ | ⟨k, rfl⟩ | ⟨a, v, rfl⟩
  · have hstopped : sourceRuns s k = false := by
      cases hsrc : s.device.sources[k]? with
      | none => simp [sourceRuns, hr, hsrc]
      | some src => simp [sourceRuns, hr, hsrc, hk src hsrc]
    simp [deliver, hstopped]
  · simp [deliver, hr]
  · simp [deliver, hr]

/-- Settles O18: such an input changes nothing, and a barred watchdog leaves the turn a wait. -/
theorem haltStopsPeripherals : Obligations.HaltStopsPeripherals := by
  intro s rest hr
  refine ⟨fun e hs he => (step_of_env hs).trans (deliver_in_halt hr he), fun g r hs hw hu => ?_⟩
  have hstopped : oscillatorStopped { s with schedule := rest } = true := by
    rw [oscillatorStopped, acceptedSource_of_undisturbed (s := { s with schedule := rest }) hu]
    simp [hr]
  rw [step_of_core hs, takeTurn_barred hw hstopped, takeTurn_no_reset,
    coreTurn_of_waiting (s := { s with schedule := rest, gaps := g, cut := false }) hu (by simp [hr])]
  rfl

end Sys2Proof.Machine
end

section
/-! SUPPORT. The proofs for the statements of `70_reset_and_hazards.md`: reset (R390 to R393, R359, R373) and cycle counts (R405 to R407). -/

namespace Sys2Proof.Machine

/-! ## A turn cut short before its first access (R359) -/

section
variable {s : State}

theorem pushByte_frozen (v : Byte) (h : s.frozen = true) : pushByte s v = .next { s with sp := s.sp - 1 } := by
  rw [pushByte, writeByte_frozen _ v h, andThen_next]

theorem pushAll_frozen (vs : List Byte) (h : s.frozen = true) : ∃ p, pushAll s vs = .next { s with sp := p } := by
  induction vs generalizing s with
  | nil => exact ⟨s.sp, rfl⟩
  | cons v vs ih =>
    obtain ⟨p, hp⟩ := ih (s := { s with sp := s.sp - 1 }) h
    exact ⟨p, by rw [pushAll, pushByte_frozen v h, andThen_next, hp]⟩

theorem readWord_frozen (a : Word) (h : s.frozen = true) : readWord s a = .next (wordOf 0x00#8 0x00#8, s) :=
  readWord_of_reads (readByte_frozen a h) (readByte_frozen _ h)

theorem enterException_frozen (v : Word) (h : s.frozen = true) : ∃ t, enterException s v = .next t := by
  obtain ⟨p, hp⟩ := pushAll_frozen s.context h
  rw [← pushContext_pushAll] at hp
  have hread := readWord_frozen (s := { s with sp := p, cc := { s.cc with i := true } }) v h
  simp only [enterException, hp, andThen_next, hread]
  exact ⟨_, rfl⟩

theorem fetchByte_frozen (h : s.frozen = true) : fetchByte s = .next (0x00#8, { s with pc := s.pc + 1 }) := by
  rw [fetchByte, readByte_frozen _ h, andThen_next]

/-- Once the turn is cut short the placeholders that stand for the bytes fetched are those of `BTJT $00,#0,$00`. -/
theorem fetchInstr_frozen (h : s.frozen = true) :
    fetchInstr s = .next (.btjt 0#3 (.direct 0x00#8) 0x00#8, { s with pc := s.pc + 1 + 1 + 1 }) := by
  have hfetch (w : Word) : fetchByte { s with pc := w } = .next (0x00#8, { s with pc := w + 1 }) := fetchByte_frozen h
  have hrow : fetchOperands .none 0x00#8 { s with pc := s.pc + 1 } =
      andThen (fetchByte { s with pc := s.pc + 1 }) fun (b1, t) =>
        andThen (fetchByte t) fun (b2, t) => .next (.btjt 0#3 (.direct b1) b2, t) := rfl
  simp only [hfetch, andThen_next] at hrow
  rw [fetchInstr, fetchByte_frozen h, andThen_next]
  exact hrow

theorem runInstruction_frozen (h : s.frozen = true) : ∃ t, runInstruction s = .next t := by
  have hexec := exec_btjt (s := { s with pc := s.pc + 1 + 1 + 1 }) (b := .direct 0x00#8) 0#3 0x00#8 rfl (readByte_frozen _ h)
  simp only [runInstruction, fetchInstr_frozen h, andThen_next, hexec]
  exact ⟨_, rfl⟩

/-- A turn cut short before its first access ends in some state. -/
theorem coreTurn_frozen (h : s.frozen = true) : ∃ t, coreTurn s = .next t := by
  unfold coreTurn
  split
  · next k src _ =>
    obtain ⟨t, ht⟩ := enterException_frozen src.vector h
    exact ⟨_, by rw [enterInterrupt, ht, andThen_next]⟩
  · split
    · exact runInstruction_frozen h
    · exact ⟨s, rfl⟩
    · exact ⟨s, rfl⟩

end

/-! ## What a turn of the core leaves of the environment -/

/-- An instruction or an interrupt entry leaves the line, and as many latches as there were; it reaches the bus by accesses. -/
structure EnvironmentKept (s t : State) : Prop where
  extIntLine : t.extIntLine = s.extIntLine
  latches : t.pending.length = s.pending.length
  accesses : s.bus.Accesses t.bus

theorem runInstruction_environment {s t : State} (h : runInstruction s = .next t) : EnvironmentKept s t := by
  obtain ⟨⟨i, s1⟩, h1, h2⟩ := andThen_eq_next.mp h
  obtain ⟨s2, h2, h3⟩ := andThen_eq_next.mp h2
  obtain ⟨m, g, d, e, w, rfl, hreads⟩ := fetchInstr_frame h1
  obtain ⟨hpending, hline, -, haccesses⟩ := exec_environment h2
  cases h3
  exact ⟨hline, congrArg List.length hpending, hreads.toAccesses.trans haccesses⟩

theorem enterInterrupt_environment {k : Nat} {src : IrqSource} {s t : State} (h : enterInterrupt k src s = .next t) :
    EnvironmentKept s t := by
  obtain ⟨u, h1, h2⟩ := andThen_eq_next.mp h
  have hframe := enterException_registersAndBus h1
  have hlatches : (if src.ack = .onEntry then u.pending.set k false else u.pending).length = s.pending.length := by
    rw [← hframe.pending]
    split
    · exact List.length_set
    · rfl
  cases h2
  exact ⟨hframe.extIntLine, hlatches, hframe.accesses⟩

theorem coreTurn_environment {s t : State} (h : coreTurn s = .next t) : EnvironmentKept s t := by
  rcases coreTurn_cases h with ⟨k, src, -, h⟩ | ⟨-, -, h⟩ | ⟨-, -, rfl⟩
  · exact enterInterrupt_environment h
  · exact runInstruction_environment h
  · exact ⟨rfl, rfl, .refl _⟩

/-! ## Reset -/

/-- The reset sequence in a quiet turn, where the vector can be read: the drawn RAM bytes land, PC is the vector's word, and the
registers are those of a reset (R391 to R393). -/
theorem resetSequence_ends {s t : State} (d : ResetDraw) (hq : t.quiet) (hd : t.device = s.device)
    (hv : s.plainAt s.device.resetVector) (hv' : s.plainAt (s.device.resetVector + 1)) :
    ∃ u, resetSequence t d = .next u ∧
      (∀ b : Word, u.byteAt b =
        if s.kindAt b = some .ram then (lastWrite d.ram b).getD (t.byteAt b) else t.byteAt b) ∧
      u = { t.resetRegs d with mem := u.mem, pc := u.wordAt s.device.resetVector } := by
  rw [← State.plainAt_congr hd, ← hd] at hv hv'
  refine ⟨_, resetSequence_quiet d hq hv hv', fun b => ?_, by rw [← hd]; rfl⟩
  rw [← State.kindAt_congr hd]
  exact storeRam_byteAt t d.ram b

/-- A reset can happen where it does not come from the watchdog, or where the oscillator runs (R373). -/
theorem oscillatorRuns_of {s : State} (h : s.runState ≠ .halted ∨ (acceptedSource s).isSome = true) :
    oscillatorStopped s = false := by
  rcases h with h | h
  · simp [oscillatorStopped, h]
  · rw [oscillatorStopped, Option.isNone_eq_false_iff.mpr h, Bool.and_false]

/-- Settles O19: at the boundary the turn makes no access; where the turn ends, the reset sequence follows it undisturbed, and what
the turn left of registers and latches is lost. -/
theorem resetTakesEffect : Obligations.ResetTakesEffect := by
  intro s u0 rest g r hs hg hbarred hv hv'
  refine ⟨?boundary, fun hturn => ?taken⟩
  case boundary =>
    rintro rfl
    obtain ⟨v, hturn⟩ := coreTurn_frozen (s := { s with schedule := rest, gaps := [], cut := true }) rfl
    have hbus := (coreTurn_environment hturn).accesses.frozen rfl rfl
    simp only [State.bus, Bus.mk.injEq] at hbus
    obtain ⟨hmem, -, -, hdraws, hevents⟩ := hbus
    exact ⟨v, hturn, hmem, hdraws, hevents⟩
  case taken =>
    have hruns : r.origin = .watchdog → oscillatorStopped { s with schedule := rest } = false := fun hw =>
      oscillatorRuns_of (s := { s with schedule := rest }) (hbarred hw)
    obtain ⟨hdevice, hschedule⟩ := coreTurn_sameSetting hturn
    obtain ⟨hline, hlatches, -⟩ := coreTurn_environment hturn
    simp only at hdevice hschedule hline hlatches
    obtain ⟨u, hreset, hbytes, hu⟩ := resetSequence_ends (s := s)
      (t := { u0 with gaps := r.gaps, cut := false, cycles := s.cycles + wakeCycles { s with schedule := rest } }) r.draw
      ⟨hg, rfl⟩ hdevice hv hv'
    refine ⟨{ u with gaps := [], cut := false }, ?_, hbytes, ?_⟩
    · rw [step_of_core hs, takeTurn_reset hruns, hturn, andThen_next, hreset, andThen_next]
    · have hpending : (u0.pending.map fun _ => false) = List.replicate s.pending.length false := by
        rw [List.map_const', hlatches]
      rw [hu]
      simp only [State.resetRegs, hdevice, hschedule, hline, hpending]
      rfl

end Sys2Proof.Machine

namespace Sys2Proof

/-! ## Cycle counts: families of instructions with one table (R406) -/

theorem accReads_cycles {f : Src → Instr} (h : f ∈ accReads) (s : Src) : (f s).cycles = s.readCyclesFor .a := by
  simp only [accReads, List.mem_cons, List.not_mem_nil, or_false] at h
  rcases h with rfl | rfl | rfl | rfl | rfl | rfl | rfl | rfl | rfl | rfl <;> rfl

theorem rewriters_cycles {f : Dst → Instr} (h : f ∈ rewriters) (d : Dst) : (f d).cycles = d.cycles 2 := by
  simp only [rewriters, List.mem_cons, List.not_mem_nil, or_false] at h
  rcases h with rfl | rfl | rfl | rfl | rfl | rfl | rfl | rfl | rfl | rfl | rfl | rfl <;> rfl

theorem relatives_cycles {f : Rel → Instr} (h : f ∈ relatives) (t : Rel) : (f t).cycles = t.cycles := by
  simp only [relatives, List.mem_cons, List.not_mem_nil, or_false] at h
  rcases h with rfl | rfl | rfl | rfl | rfl | rfl | rfl | rfl | rfl | rfl | rfl | rfl | rfl | rfl | rfl | rfl | rfl | rfl |
    rfl <;> rfl

/-- CP and LD of a register cost what reading the operand for it costs. -/
theorem loads_cycles {r : Reg} {f : Src → Instr} (h : f ∈ [Instr.cp r, Instr.ld r]) (s : Src) :
    (f s).cycles = s.readCyclesFor r := by
  simp only [List.mem_cons, List.not_mem_nil, or_false] at h
  rcases h with rfl | rfl <;> rfl

theorem bitForms_cycles {k : BitVec 3} {d : Byte} {f : BitForm → Instr}
    (h : f ∈ [Instr.bset k, Instr.bres k, (Instr.btjt k · d), (Instr.btjf k · d)]) (b : BitForm) :
      (f b).cycles = b.cycles := by
  simp only [List.mem_cons, List.not_mem_nil, or_false] at h
  rcases h with rfl | rfl | rfl | rfl <;> rfl

/-! ## Bounds -/

theorem MemForm.readCycles_bounds (m : MemForm) : 3 ≤ m.readCycles ∧ m.readCycles ≤ 7 := by
  cases m with
  | short _ | long _ | indS _ | indL _ | indxS _ _ | indxL _ _ => simp [MemForm.readCycles]
  | idx0 n | idx1 n _ | idx2 n _ => cases n <;> simp [MemForm.readCycles]

@[simp] theorem MemForm.readCyclesFor_a (m : MemForm) : m.readCyclesFor .a = m.readCycles := by cases m <;> rfl

theorem MemForm.readCyclesFor_bounds (r : Reg) (m : MemForm) : 3 ≤ m.readCyclesFor r ∧ m.readCyclesFor r ≤ 7 := by
  have h := m.readCycles_bounds
  cases r with
  | a | x => cases m <;> exact h
  | y =>
    cases m with
    | short _ | long _ => simp [MemForm.readCyclesFor]
    | _ => exact h

theorem Src.readCyclesFor_bounds (r : Reg) (s : Src) : 2 ≤ s.readCyclesFor r ∧ s.readCyclesFor r ≤ 7 := by
  cases s with
  | imm v => cases r <;> simp [Src.readCyclesFor]
  | mem m =>
    obtain ⟨hlow, hhigh⟩ := m.readCyclesFor_bounds r
    exact ⟨Nat.le_of_succ_le hlow, hhigh⟩

theorem Dst.cycles_bounds {extra : Nat} (he : extra ≤ 2) (d : Dst) : 3 ≤ d.cycles extra ∧ d.cycles extra ≤ 9 := by
  cases d with
  | reg r => cases r <;> simp [Dst.cycles]
  | mem m =>
    have h := m.readCycles_bounds
    simp only [Dst.cycles]
    omega

theorem Rel.cycles_bounds (t : Rel) : 3 ≤ t.cycles ∧ t.cycles ≤ 5 := by cases t <;> simp [Rel.cycles]

theorem BitForm.cycles_bounds (b : BitForm) : 5 ≤ b.cycles ∧ b.cycles ≤ 7 := by cases b <;> simp [BitForm.cycles]

/-- Every instruction takes 2 to 12 cycles (R405). -/
theorem Instr.cycles_bounds (i : Instr) : 2 ≤ i.cycles ∧ i.cycles ≤ 12 := by
  cases i with
  | adc s | add s | sub s | sbc s | and s | or s | xor s | bcp s =>
    have h := s.readCyclesFor_bounds .a
    simp only [Instr.cycles]; omega
  | cp r s | ld r s =>
    have h := s.readCyclesFor_bounds r
    simp only [Instr.cycles]; omega
  | ldStore m r =>
    have h := m.readCyclesFor_bounds r
    simp only [Instr.cycles]; omega
  | jp m | call m =>
    have h := m.readCycles_bounds
    simp only [Instr.cycles]; omega
  | cpl d | neg d | inc d | dec d | clr d | sll d | sla d | srl d | sra d | rlc d | rrc d | swap d =>
    have h := d.cycles_bounds (extra := 2) (by decide)
    simp only [Instr.cycles]; omega
  | tnz d =>
    have h := d.cycles_bounds (extra := 1) (by decide)
    simp only [Instr.cycles]; omega
  | bset _ b | bres _ b | btjt _ b _ | btjf _ b _ =>
    have h := b.cycles_bounds
    simp only [Instr.cycles]; omega
  | jra t | jrt t | jrf t | callr t | jrc t | jrnc t | jrult t | jruge t | jreq t | jrne t | jrmi t | jrpl t | jrh t | jrnh t
  | jrm t | jrnm t | jrugt t | jrule t | jrih t | jril t =>
    have h := t.cycles_bounds
    simp only [Instr.cycles]; omega
  | mul r | ldSReg r | ldRegS r | push r | pop r => cases r <;> decide
  | ldRegReg d s => cases d <;> cases s <;> decide
  | rsp | nop | ret | trap | wfi | halt | iret | sim | rim | scf | rcf => decide

/-! ## The cycles of a pre-byte and op-code (R407) -/

section
variable (b1 b2 : Byte)

@[simp] theorem MemForm.readCycles_fill (m : MemForm) : (m.fill b1 b2).readCycles = m.readCycles := by
  cases m with
  | short _ | long _ | indS _ | indL _ | indxS _ _ | indxL _ _ => rfl
  | idx0 n | idx1 n _ | idx2 n _ => cases n <;> rfl

@[simp] theorem MemForm.readCyclesFor_fill (r : Reg) (m : MemForm) :
    (m.fill b1 b2).readCyclesFor r = m.readCyclesFor r := by
  cases m with
  | short _ | long _ | indS _ | indL _ | indxS _ _ | indxL _ _ => cases r <;> rfl
  | idx0 n | idx1 n _ | idx2 n _ => cases r <;> cases n <;> rfl

@[simp] theorem Src.readCyclesFor_fill (r : Reg) (s : Src) : (s.fill b1 b2).readCyclesFor r = s.readCyclesFor r := by
  cases s with
  | imm v => rfl
  | mem m => exact m.readCyclesFor_fill b1 b2 r

@[simp] theorem Dst.cycles_fill (extra : Nat) (d : Dst) : (d.fill b1 b2).cycles extra = d.cycles extra := by
  cases d with
  | reg r => rfl
  | mem m => exact congrArg (· + extra) (m.readCycles_fill b1 b2)

@[simp] theorem Rel.cycles_fill (t : Rel) : (t.fill b1).cycles = t.cycles := by cases t <;> rfl

@[simp] theorem BitForm.cycles_fill (b : BitForm) : (b.fill b1).cycles = b.cycles := by cases b <;> rfl

/-- The cycles do not depend on the operand bytes. -/
@[simp] theorem Instr.cycles_fill (i : Instr) : (i.fill b1 b2).cycles = i.cycles := by
  cases i <;> simp only [Instr.fill, Instr.cycles, MemForm.readCycles_fill, MemForm.readCyclesFor_fill,
    Src.readCyclesFor_fill, Dst.cycles_fill, Rel.cycles_fill, BitForm.cycles_fill]

end

/-- The two mnemonics of an encoding take the same cycles. -/
@[simp] theorem Instr.cycles_canonical (i : Instr) : i.canonical.cycles = i.cycles := by cases i <;> rfl

/-- The cycles of the instructions with a pre-byte and op-code, where the pair is defined. -/
def pairCycles (p : Pre) (op : Byte) : Option Nat := (opcodeMap p op).map Instr.cycles

/-- Pre-byte and op-code fix the cycles of a well-formed instruction. -/
theorem pairCycles_head {i : Instr} (h : i.wf = true) : pairCycles i.head.1 i.head.2 = some i.cycles := by
  rw [pairCycles, opcodeMap_head h, Option.map_some, Instr.cycles_fill, Instr.cycles_canonical]

/-- No defined op-code is a pre-byte, whatever pre-byte stands before it. -/
theorem ofByte_of_pairCycles {p : Pre} {op : Byte} {n : Nat} (h : pairCycles p op = some n) : Pre.ofByte op = none := by
  have hall : ∀ op, pairCycles p op = none ∨ Pre.ofByte op = none := by cases p <;> decide
  exact (hall op).resolve_left (by simp [h])

/-- Pre-byte and op-code of a well-formed instruction are the first bytes of its encoding. -/
theorem head_of_encode {i : Instr} {p : Pre} {op : Byte} {rest : List Byte} (hwf : i.wf = true)
    (h : encode i = p.bytes ++ op :: rest) (hop : p = .none → Pre.ofByte op = none) : i.head = (p, op) := by
  have hown : splitPre (encode i) = .ok (i.head.1, i.head.2, i.operandBytes) :=
    splitPre_bytes _ _ _ fun _ => ofByte_of_pairCycles (pairCycles_head hwf)
  rw [h, splitPre_bytes p op rest hop] at hown
  cases hown
  rfl

/-- An encoding that begins with a pre-byte. -/
theorem pairCycles_of_encode {i : Instr} {p : Pre} {op : Byte} {rest : List Byte} (hwf : i.wf = true) (hp : p ≠ .none)
    (h : encode i = p.bytes ++ op :: rest) : pairCycles p op = some i.cycles := by
  rw [← pairCycles_head hwf, head_of_encode hwf h fun hn => absurd hn hp]

/-- An encoding that begins with an op-code that is also defined after a pre-byte: it has no pre-byte itself. -/
theorem pairCycles_of_encode_plain {j : Instr} {p : Pre} {op : Byte} {rest : List Byte} {n : Nat} (hwf : j.wf = true)
    (h : encode j = op :: rest) (hn : pairCycles p op = some n) : pairCycles .none op = some j.cycles := by
  rw [← pairCycles_head hwf, head_of_encode (p := .none) hwf h fun _ => ofByte_of_pairCycles hn]

/-- (a) of R407: $90 costs one cycle more. -/
theorem pairCycles_pdy : ∀ op, ∀ n ∈ pairCycles .pdy op, ∀ m ∈ pairCycles .none op, n = m + 1 := by decide

/-- (b) of R407: $92 costs two cycles more. -/
theorem pairCycles_pix : ∀ op, ∀ n ∈ pairCycles .pix op, ∀ m ∈ pairCycles .none op, n = m + 2 := by decide

/-- (c) of R407: $91 costs what $92 costs. -/
theorem pairCycles_piy : ∀ op, ∀ n ∈ pairCycles .piy op, ∀ m ∈ pairCycles .pix op, n = m := by decide

theorem cycles_of_pdy {i j : Instr} (hi : i.wf = true) (hj : j.wf = true) (h : encode i = 0x90#8 :: encode j) :
    i.cycles = j.cycles + 1 := by
  obtain ⟨op, rest, hop⟩ : ∃ op rest, encode j = op :: rest := by
    rw [encode]; cases j.head.1 <;> exact ⟨_, _, rfl⟩
  have hpair := pairCycles_of_encode (p := .pdy) hi nofun (h.trans (congrArg _ hop))
  exact pairCycles_pdy op _ hpair _ (pairCycles_of_encode_plain hj hop hpair)

theorem cycles_of_pix {i j : Instr} {op : Byte} {r r' : List Byte} (hi : i.wf = true) (hj : j.wf = true)
    (h : encode i = 0x92#8 :: op :: r) (h' : encode j = op :: r') : i.cycles = j.cycles + 2 := by
  have hpair := pairCycles_of_encode (p := .pix) hi nofun h
  exact pairCycles_pix op _ hpair _ (pairCycles_of_encode_plain hj h' hpair)

theorem cycles_of_piy {i j : Instr} {op : Byte} {r r' : List Byte} (hi : i.wf = true) (hj : j.wf = true)
    (h : encode i = 0x91#8 :: op :: r) (h' : encode j = 0x92#8 :: op :: r') : i.cycles = j.cycles :=
  pairCycles_piy op _ (pairCycles_of_encode (p := .piy) hi nofun h) _ (pairCycles_of_encode (p := .pix) hj nofun h')

theorem call_cycles (m : MemForm) : (Instr.call m).cycles = (Instr.jp m).cycles + 3 := by
  have h := m.readCycles_bounds
  simp only [Instr.cycles]
  omega

/-- A load of A costs what reading its operand costs. -/
theorem ld_cycles (m : MemForm) : (Instr.ld .a (.mem m)).cycles = m.readCycles := m.readCyclesFor_a

/-- Settles O8: a table's rows are one count of the operand form, evaluated at each form of its columns; (a) to (c) compare the opcode
map with itself, and (d) compares the counts. -/
theorem cycleCounts : Obligations.CycleCounts := by
  refine ⟨fun b w => ⟨fun f hf => ?accReads, fun f hf => ?loadsOfX, fun f hf => ?loadsOfY, rfl, rfl, rfl,
      fun f hf => ?rewriters, rfl, rfl, rfl, fun f hf => ?relatives, rfl, rfl, fun k d f hf => ?bits⟩,
    rfl, by decide, by decide, fun i _ => i.cycles_bounds,
    fun i j hi hj => ⟨cycles_of_pdy hi hj, fun op r r' => ⟨cycles_of_pix hi hj, cycles_of_piy hi hj⟩⟩,
    fun _ _ => rfl, call_cycles, fun m => ?overLoad⟩
  case accReads => simp only [accReads_cycles hf]; exact ⟨rfl, rfl⟩
  case loadsOfX => simp only [loads_cycles hf]; exact ⟨rfl, rfl⟩
  case loadsOfY => simp only [loads_cycles hf]; exact ⟨rfl, rfl⟩
  case rewriters => simp only [rewriters_cycles hf]; rfl
  case relatives => simp only [relatives_cycles hf]; exact ⟨rfl, rfl⟩
  case bits => simp only [bitForms_cycles hf]; exact ⟨rfl, rfl⟩
  case overLoad => rw [ld_cycles]; exact ⟨rfl, rfl⟩

end Sys2Proof
end
